-- ==== Sys2Proof/Word.lean ====
section
/-! DEFINITION. Word.lean: the word types of the Repetier timer sequencer.
A host command and an event are one 64-bit word (R80, R81); a serialised word is eight bytes (R61). -/

namespace Sys2Proof

/-- A command word, an event word, RES and FAULT_INFO: 64 bits (R21, R34, R80). -/
abbrev Word := BitVec 64

/-- A byte of a serialised command word (R61), and the 8-bit fields OP, CH, AUX and RSV (R80). -/
abbrev Byte := BitVec 8

/-- The immediate operand IMM, 32 bits (R80). -/
abbrev Imm := BitVec 32

end Sys2Proof
end

