-- ==== Sys2Proof/Syntax.lean ====
section
/-! DEFINITION. Syntax.lean: the instructions, one constructor per row of the opcode table (R83), and the
names they speak of: the four timer channels (R9), the agents (R3) and a sign (R8, R35). -/

namespace Sys2Proof

/-- The timer channels, in the order of their numbers STEP = 0, PWM = 1, SERVO = 2, ADV = 3 (R9). -/
inductive Timer where
  | step | pwm | servo | adv
deriving DecidableEq, Repr, Inhabited

/-- One value for each timer channel (an indexed cell `C[t]` of R25 and R26, or BASE_CLOCK_HZ[t] of R8). -/
structure PerTimer (α : Type) where
  step : α
  pwm : α
  servo : α
  adv : α
deriving DecidableEq, Repr

/-- The agents of R3: one per timer channel, the microsecond clock, and the CPU. -/
inductive Agent where
  | timer (t : Timer)
  | clock
  | cpu
deriving DecidableEq, Repr, Inhabited

/-- A value in the set -1, +1: ADV_FOLD_SIGN (R8) and the direction argument of ADV_STEP and ADV_DIRSET (R35). -/
inductive Sign where
  | minus | plus
deriving DecidableEq, Repr, Inhabited

/-- The rows of the opcode table: 17 host commands (format C, R80) and 9 events (format E, R81).
Operands are the raw fields CH, AUX and IMM that R83 marks with a name; R82 says how each is read. -/
inductive Instr where
  /-- CFG t, prio, f (R101): configure a timer channel. -/
  | cfg (t prio : Byte) (f : Imm)
  /-- REARM t, ticks (R104): rewrite a reload value. -/
  | rearm (t : Byte) (ticks : Imm)
  /-- TMR_READ t, sel (R105): read a timer field. -/
  | tmrRead (t sel : Byte)
  /-- SET_DUTY i, d (R161): write a PWM duty target. -/
  | setDuty (i : Byte) (d : Imm)
  /-- READ_ANALOG j (R170): read a published average. -/
  | readAnalog (j : Byte)
  /-- READ_MAINT (R171): read the maintenance flag. -/
  | readMaint
  /-- CLR_MAINT (R172): clear the maintenance flag. -/
  | clrMaint
  /-- SET_SERVO c, us (R202): write a servo width. -/
  | setServo (c : Byte) (us : Imm)
  /-- SET_ADV_ACTIVE b (R231): write the advance-active flag. -/
  | setAdvActive (b : Imm)
  /-- ADV_ADD_OWED n (R232): add to the owed-step counter. -/
  | advAddOwed (n : Imm)
  /-- SET_ADV_COMP n (R233): write the outstanding compensation. -/
  | setAdvComp (n : Imm)
  /-- SET_ADV_INTERVAL t (R234): write the advance interval. -/
  | setAdvInterval (t : Imm)
  /-- US_READ (R261): read the microsecond counter. -/
  | usRead
  /-- WAIT_US us (R262): begin a busy-wait. -/
  | waitUs (us : Imm)
  /-- US_REACHED g (R265): compare the counter with a goal. -/
  | usReached (g : Imm)
  /-- IRQ_DISABLE (R314). -/
  | irqDisable
  /-- IRQ_ENABLE (R315). -/
  | irqEnable
  /-- TICK t (R106): one count of a timer channel. -/
  | tick (t : Byte)
  /-- CLK_TICK (R260): one count of the microsecond clock. -/
  | clkTick
  /-- DISPATCH t (R308): take a pending interrupt. -/
  | dispatch (t : Byte)
  /-- WAIT_POLL (R263): one poll of a busy-wait. -/
  | waitPoll
  /-- FIRE_STEP (R131): first segment of the stepper handler. -/
  | fireStep
  /-- STEP_TAIL (R136): second segment of the stepper handler. -/
  | stepTail
  /-- FIRE_PWM (R162): the PWM and sampling handler. -/
  | firePwm
  /-- FIRE_SERVO (R203): the servo handler. -/
  | fireServo
  /-- FIRE_ADV (R235): the advance handler. -/
  | fireAdv
deriving DecidableEq, Repr

end Sys2Proof
end

