-- ==== Sys2Proof/WellFormed.lean ====
section
/-! DEFINITION. WellFormed.lean: which instructions are labels or commands the spec gives a meaning.
A host command is well formed with every operand its fields can hold: a value out of range is refused by
its own rule with a fault, not by decoding (R84). An event names a step of an agent, so the channel of
TICK and DISPATCH must be a timer channel number (R81, R83, R9). -/

namespace Sys2Proof

/-- The check of R81: CH of TICK and DISPATCH is a timer channel number 0..3. -/
def Instr.wellFormed : Instr → Bool
  | .tick t => t.toNat < 4
  | .dispatch t => t.toNat < 4
  | .cfg _ _ _ | .rearm _ _ | .tmrRead _ _ | .setDuty _ _ | .readAnalog _ | .readMaint | .clrMaint
  | .setServo _ _ | .setAdvActive _ | .advAddOwed _ | .setAdvComp _ | .setAdvInterval _ | .usRead
  | .waitUs _ | .usReached _ | .irqDisable | .irqEnable | .clkTick | .waitPoll | .fireStep | .stepTail
  | .firePwm | .fireServo | .fireAdv => true

/-- A host command (format C), as against an event (format E): R80, R81. -/
def Instr.isCommand : Instr → Bool
  | .cfg _ _ _ | .rearm _ _ | .tmrRead _ _ | .setDuty _ _ | .readAnalog _ | .readMaint | .clrMaint
  | .setServo _ _ | .setAdvActive _ | .advAddOwed _ | .setAdvComp _ | .setAdvInterval _ | .usRead
  | .waitUs _ | .usReached _ | .irqDisable | .irqEnable => true
  | .tick _ | .clkTick | .dispatch _ | .waitPoll | .fireStep | .stepTail | .firePwm | .fireServo
  | .fireAdv => false

end Sys2Proof
end

