-- ==== Sys2Proof/Decode.lean ====
section
/-! DEFINITION. Decode.lean: the command and event words (R80 to R85), their serialisation (R61), the
decoder, total on every word and on any bytes, and after it the encoder. -/

namespace Sys2Proof

/-- The opcode field OP, bits 63:56 (R80). -/
def opField (w : Word) : Byte := w.extractLsb' 56 8
/-- The channel field CH, bits 55:48 (R80). -/
def chField (w : Word) : Byte := w.extractLsb' 48 8
/-- The auxiliary field AUX, bits 47:40 (R80). -/
def auxField (w : Word) : Byte := w.extractLsb' 40 8
/-- The reserved field RSV, bits 39:32 (R80). -/
def rsvField (w : Word) : Byte := w.extractLsb' 32 8
/-- The immediate field IMM, bits 31:0 (R80). -/
def immField (w : Word) : Imm := w.extractLsb' 0 32

/-- Why a word or a byte string is no instruction. -/
inductive Illegal where
  /-- OP is in neither map of R83. -/
  | opcode
  /-- RSV is not zero (R84). -/
  | reserved
  /-- A field marked "0" in R83 is not zero (R84), or a bit outside OP and CH of an event word (R81). -/
  | unusedField
  /-- Fewer than eight bytes: a word is always taken whole (R62, R85). -/
  | short
deriving DecidableEq, Repr

/-- Accept an instruction only when the fields its row marks "0" are zero (R84). -/
def requireZero (unused : Bool) (i : Instr) : Except Illegal Instr :=
  if unused then .ok i else .error .unusedField

/-- The checks of R84 on a host command whose opcode is in the map: RSV first, then the unused fields. -/
def requireFields (w : Word) (unused : Bool) (i : Instr) : Except Illegal Instr :=
  if rsvField w == 0#8 then requireZero unused i else .error .reserved

/-- Decoding of a host command word (R84): every 64-bit word selects one row of the host table or is illegal. -/
def decodeCommand (w : Word) : Except Illegal Instr :=
  match opField w with
  | 0x01#8 => requireFields w true (.cfg (chField w) (auxField w) (immField w))
  | 0x02#8 => requireFields w (auxField w == 0#8) (.rearm (chField w) (immField w))
  | 0x03#8 => requireFields w (immField w == 0#32) (.tmrRead (chField w) (auxField w))
  | 0x10#8 => requireFields w (auxField w == 0#8) (.setDuty (chField w) (immField w))
  | 0x11#8 => requireFields w (auxField w == 0#8 && immField w == 0#32) (.readAnalog (chField w))
  | 0x12#8 => requireFields w (chField w == 0#8 && auxField w == 0#8 && immField w == 0#32) .readMaint
  | 0x13#8 => requireFields w (chField w == 0#8 && auxField w == 0#8 && immField w == 0#32) .clrMaint
  | 0x20#8 => requireFields w (auxField w == 0#8) (.setServo (chField w) (immField w))
  | 0x30#8 => requireFields w (chField w == 0#8 && auxField w == 0#8) (.setAdvActive (immField w))
  | 0x31#8 => requireFields w (chField w == 0#8 && auxField w == 0#8) (.advAddOwed (immField w))
  | 0x32#8 => requireFields w (chField w == 0#8 && auxField w == 0#8) (.setAdvComp (immField w))
  | 0x33#8 => requireFields w (chField w == 0#8 && auxField w == 0#8) (.setAdvInterval (immField w))
  | 0x40#8 => requireFields w (chField w == 0#8 && auxField w == 0#8 && immField w == 0#32) .usRead
  | 0x41#8 => requireFields w (chField w == 0#8 && auxField w == 0#8) (.waitUs (immField w))
  | 0x42#8 => requireFields w (chField w == 0#8 && auxField w == 0#8) (.usReached (immField w))
  | 0x50#8 => requireFields w (chField w == 0#8 && auxField w == 0#8 && immField w == 0#32) .irqDisable
  | 0x51#8 => requireFields w (chField w == 0#8 && auxField w == 0#8 && immField w == 0#32) .irqEnable
  | _ => .error .opcode

/-- Reading of an event word (R81): OP 0x80..0x94, CH the timer channel for TICK and DISPATCH, zero elsewhere
(DEDUCED, log entry 20). -/
def decodeEvent (w : Word) : Except Illegal Instr :=
  let low := auxField w == 0#8 && rsvField w == 0#8 && immField w == 0#32
  match opField w with
  | 0x80#8 => requireZero low (.tick (chField w))
  | 0x81#8 => requireZero (chField w == 0#8 && low) .clkTick
  | 0x82#8 => requireZero low (.dispatch (chField w))
  | 0x83#8 => requireZero (chField w == 0#8 && low) .waitPoll
  | 0x90#8 => requireZero (chField w == 0#8 && low) .fireStep
  | 0x91#8 => requireZero (chField w == 0#8 && low) .stepTail
  | 0x92#8 => requireZero (chField w == 0#8 && low) .firePwm
  | 0x93#8 => requireZero (chField w == 0#8 && low) .fireServo
  | 0x94#8 => requireZero (chField w == 0#8 && low) .fireAdv
  | _ => .error .opcode

/-- An event opcode has its top bit set (R83); no host opcode has. -/
def isEventWord (w : Word) : Bool := w.getLsbD 63

/-- Reading of any word of the opcode table, a host command or an event label (R83). -/
def decodeWord (w : Word) : Except Illegal Instr :=
  if isEventWord w then decodeEvent w else decodeCommand w

/-- Serialisation of a word outside the block, little-endian: byte 0 is bits 7:0 (R61). -/
def wordBytes (w : Word) : List Byte :=
  [w.extractLsb' 0 8, w.extractLsb' 8 8, w.extractLsb' 16 8, w.extractLsb' 24 8,
   w.extractLsb' 32 8, w.extractLsb' 40 8, w.extractLsb' 48 8, w.extractLsb' 56 8]

/-- The word a byte string begins with, and the bytes after it (R61, R85: always eight bytes). -/
def takeWord : List Byte → Option (Word × List Byte)
  | b0 :: b1 :: b2 :: b3 :: b4 :: b5 :: b6 :: b7 :: rest =>
    some (b7 ++ b6 ++ b5 ++ b4 ++ b3 ++ b2 ++ b1 ++ b0, rest)
  | _ => none

/-- Decoding of a byte string: the first instruction and the bytes after it, or the reason there is none. -/
def decodeBytes (bs : List Byte) : Except Illegal (Instr × List Byte) :=
  match takeWord bs with
  | none => .error .short
  | some (w, rest) => (decodeWord w).map fun i => (i, rest)

/-- The instruction the decoder reads from the table's bit string: `nbits` bits of `w`, the bits above them
zero, laid out as the eight bytes of one word (R61). -/
def decodeTableWord (nbits w : Nat) : Option Instr :=
  match decodeBytes (wordBytes (BitVec.ofNat 64 (w % 2 ^ nbits))) with
  | .ok (i, _) => some i
  | .error _ => none

/-- A word from its fields, RSV zero (R80). -/
def assemble (op ch aux : Byte) (imm : Imm) : Word := op ++ ch ++ aux ++ 0#8 ++ imm

/-- The word of an instruction, from the maps of R83. -/
def encode : Instr → Word
  | .cfg t prio f => assemble 0x01#8 t prio f
  | .rearm t ticks => assemble 0x02#8 t 0#8 ticks
  | .tmrRead t sel => assemble 0x03#8 t sel 0#32
  | .setDuty i d => assemble 0x10#8 i 0#8 d
  | .readAnalog j => assemble 0x11#8 j 0#8 0#32
  | .readMaint => assemble 0x12#8 0#8 0#8 0#32
  | .clrMaint => assemble 0x13#8 0#8 0#8 0#32
  | .setServo c us => assemble 0x20#8 c 0#8 us
  | .setAdvActive b => assemble 0x30#8 0#8 0#8 b
  | .advAddOwed n => assemble 0x31#8 0#8 0#8 n
  | .setAdvComp n => assemble 0x32#8 0#8 0#8 n
  | .setAdvInterval t => assemble 0x33#8 0#8 0#8 t
  | .usRead => assemble 0x40#8 0#8 0#8 0#32
  | .waitUs us => assemble 0x41#8 0#8 0#8 us
  | .usReached g => assemble 0x42#8 0#8 0#8 g
  | .irqDisable => assemble 0x50#8 0#8 0#8 0#32
  | .irqEnable => assemble 0x51#8 0#8 0#8 0#32
  | .tick t => assemble 0x80#8 t 0#8 0#32
  | .clkTick => assemble 0x81#8 0#8 0#8 0#32
  | .dispatch t => assemble 0x82#8 t 0#8 0#32
  | .waitPoll => assemble 0x83#8 0#8 0#8 0#32
  | .fireStep => assemble 0x90#8 0#8 0#8 0#32
  | .stepTail => assemble 0x91#8 0#8 0#8 0#32
  | .firePwm => assemble 0x92#8 0#8 0#8 0#32
  | .fireServo => assemble 0x93#8 0#8 0#8 0#32
  | .fireAdv => assemble 0x94#8 0#8 0#8 0#32

/-- FAULT_INFO for a fault raised inside an event: the event opcode in bits 63:56, the timer channel in bits
55:48, zeros (R34). It is not an event word (R81). -/
def eventInfo (op ch : Byte) : Word := assemble op ch 0#8 0#32

end Sys2Proof
end

