-- ==== Sys2Proof/Config.lean ====
section
/-! DEFINITION. Config.lean: the implementation parameters of R8, and the free values: what the spec leaves
to any answer (the oracles, the interleaving of the agents), each an opaque constant that nothing can evaluate. -/

namespace Sys2Proof

/-- The parameters the model takes (R8; 93_implementation_defined.md row 19). A State carries one value of this type and no step changes it, so a
statement about every state is about every implementation. -/
structure Params where
  /-- BASE_CLOCK_HZ[t]. -/
  baseClock : PerTimer Nat
  /-- PRESCALERS, ascending. Each fits PSC's 32 bits (R25; DEDUCED, log entry 3). -/
  prescalers : List (BitVec 32)
  /-- TIMER_BITS. -/
  timerBits : Nat
  /-- SERVO_PRESENT. -/
  servoPresent : Bool
  /-- N_SERVO. -/
  nServo : Nat
  /-- ADVANCE_PRESENT. -/
  advancePresent : Bool
  /-- N_PWM. -/
  nPwm : Nat
  /-- N_ANALOG. -/
  nAnalog : Nat
  /-- OVERSAMPLE_K. -/
  oversampleK : Nat
  /-- ADC_BITS. -/
  adcBits : Nat
  /-- OUT_BITS. -/
  outBits : Nat
  /-- MAINT_THRESHOLD. -/
  maintThreshold : Nat
  /-- UI_HOOK_PRESENT. -/
  uiHookPresent : Bool
  /-- RELAX_TICKS, 0..2^16 - 1. -/
  relaxTicks : BitVec 16
  /-- STEP_IDLE_TICKS. -/
  stepIdleTicks : Nat
  /-- ADV_PENALTY_TICKS. -/
  advPenaltyTicks : Nat
  /-- ADV_FOLD_SIGN, decided -1, kept a parameter (R8, D28). -/
  advFoldSign : Sign
  /-- US_BITS. -/
  usBits : Nat
  /-- US_TICKS_PER_US. -/
  usTicksPerUs : Nat
  /-- The microsecond counter's value at reset (R33; 93_implementation_defined.md row 19). -/
  usCntReset : Nat
deriving DecidableEq, Repr

/-- The constraints of R8 on the parameters, and of row 19 on the counter's reset value. The bound on MAINT_THRESHOLD is DEDUCED from TICK_CNT's 32 bits
(R30, log entry 3). -/
abbrev Params.Legal (p : Params) : Prop :=
  (1 ≤ p.baseClock.step ∧ 1 ≤ p.baseClock.pwm ∧ 1 ≤ p.baseClock.servo ∧ 1 ≤ p.baseClock.adv) ∧
  (p.prescalers ≠ [] ∧ (∀ q ∈ p.prescalers, 1 ≤ q.toNat) ∧ p.prescalers.Pairwise (fun a b => a.toNat < b.toNat)) ∧
  8 ≤ p.timerBits ∧
  (p.servoPresent = true → 1 ≤ p.nServo ∧ p.nServo ≤ 4) ∧
  p.nPwm ≤ 256 ∧ p.nAnalog ≤ 256 ∧ p.oversampleK ≤ 16 ∧
  (1 ≤ p.adcBits ∧ p.adcBits ≤ 16) ∧ (1 ≤ p.outBits ∧ p.outBits ≤ 32) ∧
  (1 ≤ p.maintThreshold ∧ p.maintThreshold ≤ 2 ^ 32) ∧
  (1 ≤ p.stepIdleTicks ∧ p.stepIdleTicks < 2 ^ p.timerBits) ∧
  p.advPenaltyTicks < 2 ^ p.timerBits ∧
  (2 ≤ p.usBits ∧ p.usBits ≤ 64) ∧ 1 ≤ p.usTicksPerUs ∧ p.usCntReset < 2 ^ p.usBits

/-- The reference configuration of R8 (95_test_vectors.md section 0). State.reset is the reset of this one
implementation (log entry 2); State.resetWith takes any other. -/
def Params.reference : Params where
  baseClock := ⟨84000000, 84000000, 84000000, 84000000⟩
  prescalers := [2, 8, 32, 128]
  timerBits := 32
  servoPresent := true
  nServo := 4
  advancePresent := true
  nPwm := 3
  nAnalog := 2
  oversampleK := 2
  adcBits := 10
  outBits := 12
  maintThreshold := 4
  uiHookPresent := true
  relaxTicks := 2
  stepIdleTicks := 1000
  advPenaltyTicks := 10
  advFoldSign := .minus
  usBits := 32
  usTicksPerUs := 1
  usCntReset := 0

namespace Config

/-- Which agent moves at a turn that no scheduled turn of the state names: any interleaving (R322, R323;
93_implementation_defined.md row 21; log entry 4). -/
opaque schedule : Nat → Agent

/-- The answer of `draw motion.pending()` at the n-th draw: any boolean (R130; row 20; log entry 5). -/
opaque motionPending : Nat → Bool

/-- The answer of `draw motion.step()` at the n-th draw: any non-negative integer (R130; row 20; log entry 5). -/
opaque motionStep : Nat → Nat

/-- The answer of `draw adc.ready(j)` at the n-th draw: any boolean (R166; row 20; log entry 5). -/
opaque adcReady : Nat → Byte → Bool

/-- The answer of `draw adc.value(j)` at the n-th draw: any raw sample, an out-of-range one included, which
R166 refuses with ORACLE_RANGE (log entry 5). -/
opaque adcValue : Nat → Byte → Nat

/-- us_to_ticks(us) while PSC[SERVO] is 0: R201 divides by PSC and states no result there. No run reaches it,
because the SERVO handler is entered only after a CFG (log entry 9). -/
opaque unconfiguredTicks : Nat → Nat

/-- What TMR_READ returns of a field whose value does not fit the 64 bits of RES, which takes TIMER_BITS above 64: R105
states zext_64 and no result for such a value (log entry 11). -/
opaque wideField : Nat → Word

end Config

end Sys2Proof
end

