-- ==== Sys2Proof/Machine/State.lean ====
section
/-! DEFINITION. Machine/State.lean: the architectural state of 10_state.md (R20 to R35), grouped by the units
of R2, the model's own fields for what the spec makes parameters, draws and interleaving (R36, R322), the
outcomes of a step, and reset (R350). All of it is plain data. -/

namespace Sys2Proof.Machine

/-- The fault codes 1 to 8 of R300, in order. -/
inductive FaultCode where
  /-- 1: a requested frequency is 0 or has no representation. -/
  | configFatal
  /-- 2: a command word that decodes to no command. -/
  | illegalCommand
  /-- 3: a decoded operand outside its legal range. -/
  | operandRange
  /-- 4: an optional unit or a channel that is not present. -/
  | notPresent
  /-- 5: REARM of a timer not yet configured. -/
  | notConfigured
  /-- 6: an oracle answer the block cannot hold. -/
  | oracleRange
  /-- 7: the stepper's fold leaves the signed 32-bit range. -/
  | arithRange
  /-- 8: a scaled wait duration that does not fit the counter. -/
  | waitRange
deriving DecidableEq, Repr

/-- The registers of one timer channel (R25, R26). RLD and COUNT are TIMER_BITS wide, a parameter, so they are
numbers whose bound is an invariant (Safety.lean; log entry 10). -/
structure TimerChan where
  /-- PSC[t], 32 bits: the prescaler in use, 0 before configuration. -/
  psc : BitVec 32
  /-- RLD[t], TIMER_BITS bits: the compare (reload) value. -/
  rld : Nat
  /-- EN[t]: counter enabled. -/
  en : Bool
  /-- IE[t]: interrupt enabled. -/
  ie : Bool
  /-- PRIO[t], 4 bits: priority level, 0 most urgent. -/
  prio : BitVec 4
  /-- COUNT[t], TIMER_BITS bits: ticks since the last match or configuration. -/
  count : Nat
  /-- PEND[t]: the pending bit. -/
  pend : Bool
deriving DecidableEq, Repr

/-- A segment of a handler (R23). -/
inductive Seg where
  | entered | tail
deriving DecidableEq, Repr

/-- An entry of the handler-context stack CTX (R23). -/
structure CtxEntry where
  tmr : Timer
  seg : Seg
deriving DecidableEq, Repr

/-- SP_STATE (R27): encodings Idle = 0, Stepping = 1, Relaxing = 2; 3 is never written (log entry 8). -/
inductive SpState where
  | idle | stepping | relaxing
deriving DecidableEq, Repr

/-- The stepper pacer's cells (R27). -/
structure Stepper where
  /-- GUARD: the reentrancy guard. -/
  guard : Bool
  /-- SP_STATE. -/
  spState : SpState
  /-- RELAX, 16 bits: the relax countdown. -/
  relax : BitVec 16
deriving DecidableEq, Repr

/-- The cells of one configured PWM channel (R28). -/
structure PwmChan where
  /-- DUTY_TGT[i], 8 bits. -/
  tgt : BitVec 8
  /-- DUTY_LAT[i], 8 bits. -/
  lat : BitVec 8
  /-- PWM_OUT[i]: the logical output level. -/
  out : Bool
deriving DecidableEq, Repr

/-- The cells of one configured analog channel (R29); the widths are parameters (log entry 10). -/
structure AnalogChan where
  /-- ACC[j], ADC_BITS + OVERSAMPLE_K bits. -/
  acc : Nat
  /-- SCNT[j], OVERSAMPLE_K + 1 bits. -/
  scnt : Nat
  /-- AVG[j], OUT_BITS bits. -/
  avg : Nat
deriving DecidableEq, Repr

/-- The PWM and sampling multiplexer's cells (R28, R29, R30). -/
structure Mux where
  /-- The configured PWM channels 0..N_PWM - 1. -/
  pwm : List PwmChan
  /-- PWM_CNT, 8 bits: the cycle counter modulo 256. -/
  pwmCnt : BitVec 8
  /-- The configured analog channels 0..N_ANALOG - 1. -/
  analog : List AnalogChan
  /-- ADC_POS, 8 bits: the addressed analog channel. -/
  adcPos : BitVec 8
  /-- TICK_CNT, 32 bits: the periodic tick counter. -/
  tickCnt : BitVec 32
  /-- MAINT_DUE: the maintenance-due flag. -/
  maintDue : Bool
deriving DecidableEq, Repr

/-- The cells of one servo channel (R31). -/
structure ServoChan where
  /-- SRV_W[c], 16 bits: desired width in microseconds, 0 disabled. -/
  width : BitVec 16
  /-- SRV_OUT[c]: the logical output level. -/
  out : Bool
deriving DecidableEq, Repr

/-- The servo generator's cells (R31). -/
structure Servo where
  /-- The four channels, 0 first. -/
  chans : List ServoChan
  /-- SRV_PHASE, 3 bits. -/
  phase : BitVec 3
  /-- SRV_LAST_HIGH, TIMER_BITS bits. -/
  lastHigh : Nat
deriving DecidableEq, Repr

/-- ADV_DIR (R32): encodings Unknown = 0, Forward = 1, Reverse = 2; 3 is never written (log entry 8). -/
inductive AdvDir where
  | unknown | forward | reverse
deriving DecidableEq, Repr

/-- The advance pacer's cells (R32). ADV_OWED and ADV_COMP are signed: they are read by toInt. -/
structure Advance where
  /-- ADV_ACTIVE. -/
  active : Bool
  /-- ADV_OWED, 32 bits signed. -/
  owed : BitVec 32
  /-- ADV_COMP, 32 bits signed. -/
  comp : BitVec 32
  /-- ADV_INTERVAL, TIMER_BITS bits. -/
  interval : Nat
  /-- ADV_DIR. -/
  dir : AdvDir
  /-- ADV_DIR_OUT: the direction output level, 1 forward. -/
  dirOut : Bool
deriving DecidableEq, Repr

/-- The phase of a wait record, 1 or 2 (R33). -/
inductive WaitPhase where
  | one | two
deriving DecidableEq, Repr

/-- The main context's wait record (R33); start and goal are US_BITS wide. -/
structure WaitRec where
  start : Nat
  goal : Nat
  phase : WaitPhase
deriving DecidableEq, Repr

/-- The output events of TRACE (R35). -/
inductive OutEvent where
  | stepExec
  | driverDisable
  | adcStart
  | uiHook
  | advStep (d : Sign)
  | advDirSet (d : Sign)
deriving DecidableEq, Repr

/-- What is not a cell of the block but a parameter of its steps (R36), held as plain data: the host program,
and the outside world's answers and turns. The lists are read first, from their heads; where a list is empty
the answer or the turn is a free value of Config at the counter beside it (log entries 1, 4 and 5). -/
structure Env where
  /-- PROG, the host program (R22): loaded from outside the machine. -/
  prog : List Word
  /-- Turns already scheduled: which agent moves at the next steps. -/
  sched : List Agent
  /-- How many turns have been taken: the argument of Config.schedule. -/
  turn : Nat
  /-- How many oracle answers have been drawn: the argument of the oracles in Config. -/
  draws : Nat
  /-- Answers of motion.pending() already given. -/
  pendingIn : List Bool
  /-- Answers of motion.step() already given. -/
  stepIn : List Nat
  /-- Answers of adc.ready(j) already given. -/
  readyIn : List Bool
  /-- Answers of adc.value(j) already given. -/
  valueIn : List Nat
deriving DecidableEq, Repr

/-- The state of the block: every cell of 10_state.md, and the parameters and inputs of R8 and R36. An absent unit's
cells stay at reset (log entry 14). -/
structure State where
  /-- The implementation parameters (R8): no step writes them. -/
  params : Params
  /-- The host program and the outside world (R36). -/
  env : Env
  /-- RES, 64 bits: the result register (R21). -/
  res : Word
  /-- hpc: the host program index (R22). -/
  hpc : Nat
  /-- CTX: the handler-context stack, its top entry first (R23; log entry 8). -/
  ctx : List CtxEntry
  /-- GIE: the global interrupt enable (R24). -/
  gie : Bool
  /-- The timer channel registers (R25, R26). -/
  timers : PerTimer TimerChan
  /-- The stepper pacer (R27). -/
  stepper : Stepper
  /-- The PWM and sampling multiplexer (R28, R29, R30). -/
  mux : Mux
  /-- The servo generator (R31). -/
  servo : Servo
  /-- The advance pacer (R32). -/
  adv : Advance
  /-- US_CNT, US_BITS bits: the free-running microsecond counter (R33). -/
  usCnt : Nat
  /-- WAITF: the main context's wait record (R33). -/
  waitf : Option WaitRec
  /-- FAULT: the fault register (R34). -/
  fault : Option FaultCode
  /-- FAULT_INFO, 64 bits (R34). -/
  faultInfo : Word
  /-- TRACE: the output events, the oldest first (R35). -/
  trace : List OutEvent
deriving DecidableEq, Repr

/-- Why the machine stops. -/
inductive Fault where
  /-- The block is halted: FAULT holds a code, and no agent has a step until the next run's reset (R301).
  Raised by step and by every meaning in a halted state. Safe: the spec gives the halted block no step (log
  entry 6). -/
  | halted (code : FaultCode)
deriving DecidableEq, Repr

/-- Why an instruction has no meaning in a state. -/
inductive Refusal where
  /-- The instruction has no meaning in this model yet; only exec answers it. Safe: nothing follows from it. -/
  | notModelled (mnemonic : String)
  /-- The word names no step that its agent has in this state: the enabling condition of R106, R260 or R322
  fails (an event whose handler is not on top of CTX, a command while a handler runs). Answered by a meaning that
  is called outside its enabling condition; step never calls one so. Safe: the spec gives no step there (log
  entry 7). -/
  | notEnabled
deriving DecidableEq, Repr

/-- What the CPU agent's next step is (R322). -/
inductive CpuChoice where
  /-- Rules 2, 3 and 4: an event. -/
  | event (i : Instr)
  /-- Rules 5 and 6: the main context goes on with the host program, if it has not ended. -/
  | main
  /-- Rule 1, or a CTX entry that no rule lists. -/
  | noStep
deriving DecidableEq, Repr

/-- What the agent whose turn it is does. -/
inductive Turn where
  /-- Its step is this instruction. -/
  | run (i : Instr)
  /-- The CPU decodes a word that is no command: ILLEGAL_COMMAND (R84). -/
  | illegal (w : Word)
  /-- The agent has no step. -/
  | idle
deriving DecidableEq, Repr

/-- A timer channel right after reset (R350). -/
def TimerChan.reset : TimerChan where
  psc := 0
  rld := 0
  en := false
  ie := false
  prio := 0
  count := 0
  pend := false

/-- The advance pacer right after reset (R350). -/
def Advance.reset : Advance where
  active := false
  owed := 0
  comp := 0
  interval := 0
  dir := .unknown
  dirOut := false

/-- The servo generator right after reset (R350). -/
def Servo.reset : Servo where
  chans := List.replicate 4 ⟨0, false⟩
  phase := 0
  lastHigh := 0

/-- The outside world of a run that no one has loaded or scheduled (log entries 1, 4 and 16). -/
def Env.reset : Env where
  prog := []
  sched := []
  turn := 0
  draws := 0
  pendingIn := []
  stepIn := []
  readyIn := []
  valueIn := []

/-- The block right after reset, for any parameters (R350). The counter's value is a parameter whose reference is 0
(R33, log entry 15). -/
def State.resetWith (p : Params) : State where
  params := p
  env := .reset
  res := 0
  hpc := 0
  ctx := []
  gie := false
  timers := ⟨.reset, .reset, .reset, .reset⟩
  stepper := ⟨false, .idle, 0⟩
  mux :=
    { pwm := List.replicate p.nPwm ⟨0, 0, false⟩, pwmCnt := 0,
      analog := List.replicate p.nAnalog ⟨0, 0, 0⟩, adcPos := 0, tickCnt := 0, maintDue := false }
  servo := .reset
  adv := .reset
  usCnt := p.usCntReset
  waitf := none
  fault := none
  faultInfo := 0
  trace := []

/-- The machine right after reset, in the reference configuration (R350, R8; log entry 2). -/
def State.reset : State := State.resetWith .reference

end Sys2Proof.Machine
end

