-- ==== Sys2Proof/Machine/Operands.lean ====
section
/-! DEFINITION. Machine/Operands.lean: how operands are read (R82), which channels and units are present
(R7, R9, R160, R200), the derived parameter RELOAD_MAX (R8), the TMR_READ selectors (R83, R105) and the
encodings of the small state machines (R27, R32, R300). -/

namespace Sys2Proof

/-- Element t of an indexed cell. -/
def PerTimer.get {α : Type} (c : PerTimer α) : Timer → α
  | .step => c.step
  | .pwm => c.pwm
  | .servo => c.servo
  | .adv => c.adv

/-- `C[t] <- v` (R11). -/
def PerTimer.set {α : Type} (c : PerTimer α) (t : Timer) (v : α) : PerTimer α :=
  match t with
  | .step => { c with step := v }
  | .pwm => { c with pwm := v }
  | .servo => { c with servo := v }
  | .adv => { c with adv := v }

namespace Machine

/-- The channel number of a timer (R9). -/
def timerNumber : Timer → Byte
  | .step => 0
  | .pwm => 1
  | .servo => 2
  | .adv => 3

/-- The timer a channel number names (R9). -/
def timerOf : Byte → Option Timer
  | 0#8 => some .step
  | 1#8 => some .pwm
  | 2#8 => some .servo
  | 3#8 => some .adv
  | _ => none

/-- present(t): STEP and PWM always, SERVO iff SERVO_PRESENT, ADV iff ADVANCE_PRESENT (R9, R100). -/
def present (p : Params) : Timer → Bool
  | .step => true
  | .pwm => true
  | .servo => p.servoPresent
  | .adv => p.advancePresent

/-- The present channel a channel operand names, if it names one (the first check of R101, R104, R105). -/
def presentTimer (p : Params) (ch : Byte) : Option Timer :=
  match timerOf ch with
  | some t => if present p t then some t else none
  | none => none

/-- RELOAD_MAX = 2^TIMER_BITS - 1 (R8). -/
def reloadMax (p : Params) : Nat := 2 ^ p.timerBits - 1

/-- zext(IMM): the unsigned value of an immediate (R82). -/
def immNat (v : Imm) : Nat := v.toNat

/-- sext_32(IMM): the signed value of an immediate, for ADV_ADD_OWED and SET_ADV_COMP (R82). -/
def immInt (v : Imm) : Int := v.toInt

/-- Whether a sum stays in the signed 32-bit range -2^31 .. 2^31 - 1 (R135, R232). -/
def fitsSigned32 (v : Int) : Bool := -2147483648 ≤ v && v ≤ 2147483647

/-- The 64-bit result of reading a cell: zext_64 (R21). -/
def resultOf (v : Nat) : Word := BitVec.ofNat 64 v

/-- The result of reading a timer field, whose width is a parameter: zext_64, and a free value where the field's value
does not fit (R105; log entry 11). -/
def fieldResult (v : Nat) : Word := if v < 2 ^ 64 then resultOf v else Config.wideField v

/-- A one-bit cell as a number. -/
def bitNat (b : Bool) : Nat := if b then 1 else 0

/-- The field of a timer channel that a TMR_READ selector names: 0 = PSC, 1 = RLD, 2 = EN, 3 = IE, 4 = PRIO,
5 = PEND, 6 = COUNT (R83, R105). -/
def timerField (c : TimerChan) : Byte → Option Nat
  | 0#8 => some c.psc.toNat
  | 1#8 => some c.rld
  | 2#8 => some (bitNat c.en)
  | 3#8 => some (bitNat c.ie)
  | 4#8 => some c.prio.toNat
  | 5#8 => some (bitNat c.pend)
  | 6#8 => some c.count
  | _ => none

/-- The value of a sign. -/
def signInt : Sign → Int
  | .minus => -1
  | .plus => 1

/-- sign(ADV_OWED), with none for 0 (R10, R235). -/
def signOf (v : Int) : Option Sign :=
  if v = 0 then none else if 0 < v then some .plus else some .minus

/-- dir(+1) = Forward, dir(-1) = Reverse (R235). -/
def dirOf : Sign → AdvDir
  | .plus => .forward
  | .minus => .reverse

/-- The code number of a fault (R300). -/
def faultNumber : FaultCode → Nat
  | .configFatal => 1
  | .illegalCommand => 2
  | .operandRange => 3
  | .notPresent => 4
  | .notConfigured => 5
  | .oracleRange => 6
  | .arithRange => 7
  | .waitRange => 8

/-- The encoding of SP_STATE (R27). -/
def spStateBits : SpState → BitVec 2
  | .idle => 0
  | .stepping => 1
  | .relaxing => 2

/-- The encoding of ADV_DIR (R32). -/
def advDirBits : AdvDir → BitVec 2
  | .unknown => 0
  | .forward => 1
  | .reverse => 2

/-- `scaled(us) = us * US_TICKS_PER_US`, an exact product (R267). -/
def scaled (p : Params) (us : Imm) : Nat := immNat us * p.usTicksPerUs

end Machine

end Sys2Proof
end

