-- ==== Sys2Proof/Machine/Flags.lean ====
section
/-! DEFINITION. Machine/Flags.lean: the conditions under which the one-bit cells of the block change or are
read: a compare match (PEND), a source that can be taken (GIE, IE, EN, PEND), the maintenance threshold
(MAINT_DUE), the PWM output level, the end of a wait and the wraparound comparison. -/

namespace Sys2Proof.Machine

/-- A compare match: COUNT[t] + 1 has reached RLD[t] (R106). -/
def compareMatch (c : TimerChan) : Bool := c.rld ≤ c.count + 1

/-- Whether source t can be taken once GIE = 1: present, EN[t] = IE[t] = PEND[t] = 1 (R304). -/
def sourceReady (s : State) (t : Timer) : Bool :=
  present s.params t && (s.timers.get t).en && (s.timers.get t).ie && (s.timers.get t).pend

/-- TICK t is enabled: the channel is present and EN[t] = 1 (R106; FAULT is tested by the step). -/
def tickEnabled (s : State) (t : Timer) : Bool := present s.params t && (s.timers.get t).en

/-- The maintenance threshold is reached by this firing (R168). -/
def maintReached (p : Params) (tickCnt : BitVec 32) : Bool := p.maintThreshold ≤ tickCnt.toNat + 1

/-- Deassert compare: the latched duty equals the counter value and is not 255 (R164). -/
def deassert (c lat : BitVec 8) : Bool := lat == c && lat != 255#8

/-- The two-phase comparison of a poll that reads counter value c: the record after the poll's first test, and
whether the poll ends the wait (R263). -/
def pollWait (c : Nat) (r : WaitRec) : WaitRec × Bool :=
  let r' := if r.phase = .one ∧ c < r.start then { r with phase := .two } else r
  (r', r'.phase = .two && r'.goal ≤ c)

/-- (US_CNT - g) mod 2^US_BITS, for a goal g below 2^US_BITS (R265). -/
def usDiff (p : Params) (cnt g : Nat) : Nat := (cnt + 2 ^ p.usBits - g) % 2 ^ p.usBits

/-- The counter is at or past g: the difference is below 2^(US_BITS - 1) (R265). -/
def usReachedFlag (p : Params) (cnt g : Nat) : Bool := usDiff p cnt g < 2 ^ (p.usBits - 1)

end Sys2Proof.Machine
end

