-- ==== Sys2Proof/Machine/Schedule.lean ====
section
/-! DEFINITION. Machine/Schedule.lean: which step is enabled: interrupt selection (R304, R305), the CPU agent's
choice (R322), and the turn of any agent (R3, R106, R260). -/

namespace Sys2Proof.Machine

/-- Keep the more urgent of the best source so far and source t: the smaller PRIO, a tie to the earlier (R305). -/
def moreUrgent (s : State) (best : Option Timer) (t : Timer) : Option Timer :=
  if sourceReady s t then
    match best with
    | none => some t
    | some b => if (s.timers.get t).prio.toNat < (s.timers.get b).prio.toNat then some t else some b
  else best

/-- The source that would be taken: smallest PRIO, ties to the smaller channel number (R305). -/
def selectSource (s : State) : Option Timer :=
  moreUrgent s (moreUrgent s (moreUrgent s (moreUrgent s none .step) .pwm) .servo) .adv

/-- The dispatch that is enabled: GIE = 1 and some source can be taken (R304, R308). -/
def dispatchable (s : State) : Option Timer := if s.gie then selectSource s else none

/-- The handler segment a top CTX entry stands for (R322, rule 3). The tail of another channel than STEP is never on CTX
and has no step (DEDUCED, log entry 13). -/
def handlerSegment : CtxEntry → CpuChoice
  | ⟨.step, .entered⟩ => .event .fireStep
  | ⟨.step, .tail⟩ => .event .stepTail
  | ⟨.pwm, .entered⟩ => .event .firePwm
  | ⟨.servo, .entered⟩ => .event .fireServo
  | ⟨.adv, .entered⟩ => .event .fireAdv
  | ⟨.pwm, .tail⟩ | ⟨.servo, .tail⟩ | ⟨.adv, .tail⟩ => .noStep

/-- The CPU agent's step, by the first rule of R322 that applies. -/
def cpuChoice (s : State) : CpuChoice :=
  match s.fault with
  | some _ => .noStep
  | none =>
    match dispatchable s with
    | some t => .event (.dispatch (timerNumber t))
    | none =>
      match s.ctx with
      | e :: _ => handlerSegment e
      | [] => if s.waitf.isSome then .event .waitPoll else .main

/-- Rules 5 and 6 of R322: decode and execute PROG[hpc], or no step when the host has ended. -/
def hostTurn (s : State) : Turn :=
  match s.env.prog[s.hpc]? with
  | none => .idle
  | some w =>
    match decodeCommand w with
    | .ok i => .run i
    | .error _ => .illegal w

/-- The CPU agent's turn (R322). -/
def cpuTurn (s : State) : Turn :=
  match cpuChoice s with
  | .event i => .run i
  | .main => hostTurn s
  | .noStep => .idle

/-- An agent's turn: TICK of an enabled channel, CLK_TICK, or the CPU's step (R3, R106, R260, R322). -/
def agentTurn (s : State) : Agent → Turn
  | .timer t => if tickEnabled s t then .run (.tick (timerNumber t)) else .idle
  | .clock => .run .clkTick
  | .cpu => cpuTurn s

/-- Whose turn it is: the scheduled turn, or any agent where none is scheduled (R322, R323; log entry 4). -/
def agentAt (e : Env) : Agent :=
  match e.sched with
  | a :: _ => a
  | [] => Config.schedule e.turn

/-- The outside world after a turn is taken. -/
def nextTurn (e : Env) : Env := { e with sched := e.sched.tail, turn := e.turn + 1 }

end Sys2Proof.Machine
end

