-- ==== Sys2Proof/Machine/Ops.lean ====
section
/-! DEFINITION. Machine/Ops.lean: the named operations every meaning is built from: writes of the shared cells,
`emit`, `draw`, `raise`, REARM_INT (R11, R103), taking an interrupt and returning from a handler (R308, R311),
and the two forms of a step, a host command's and an event's (R12, R301, R322). -/

namespace Sys2Proof.Machine

/-- `RES <- v` (R21). -/
def setRes (v : Word) (s : State) : State := { s with res := v }

/-- `hpc <- hpc + 1` (R11, R22). -/
def advanceHost (s : State) : State := { s with hpc := s.hpc + 1 }

/-- `GIE <- b` (R24). -/
def setGie (b : Bool) (s : State) : State := { s with gie := b }

/-- The registers of channel t are written (R25, R26). -/
def setTimer (t : Timer) (c : TimerChan) (s : State) : State := { s with timers := s.timers.set t c }

/-- `emit E` (R11, R35): append an output event to TRACE. -/
def emit (e : OutEvent) (s : State) : State := { s with trace := s.trace ++ [e] }

/-- `WAITF <- r` (R33). -/
def setWait (r : Option WaitRec) (s : State) : State := { s with waitf := r }

/-- The stepper pacer's cells are written (R27). -/
def setStepper (c : Stepper) (s : State) : State := { s with stepper := c }

/-- The multiplexer's cells are written (R28, R29, R30). -/
def setMux (c : Mux) (s : State) : State := { s with mux := c }

/-- The servo generator's cells are written (R31). -/
def setServo (c : Servo) (s : State) : State := { s with servo := c }

/-- The advance pacer's cells are written (R32). -/
def setAdv (c : Advance) (s : State) : State := { s with adv := c }

/-- The handler-context stack is written (R23). -/
def setCtx (c : List CtxEntry) (s : State) : State := { s with ctx := c }

/-- The outside world after an answer or a turn (R36). -/
def setEnv (e : Env) (s : State) : State := { s with env := e }

/-- `raise F(info)` (R11, R301): FAULT and FAULT_INFO are written, and the step has no other effect. It is applied
to the state the step began in. -/
def raiseFault (f : FaultCode) (info : Word) (s : State) : State :=
  { s with fault := some f, faultInfo := info }

/-- The state a step leaves: its body's, or, where the body raises, the halted state (R301). -/
def settle (s : State) (info : Word) (body : Except FaultCode State) : State :=
  match body with
  | .ok s' => s'
  | .error f => raiseFault f info s

/-- A step in a state where it is enabled or not. A halted block has no step (R301). -/
def whenEnabled (enabled : Bool) (s : State) (result : State) : Host.Outcome State Fault Refusal :=
  match s.fault with
  | some f => .fault (.halted f)
  | none => if enabled then .next result else .refused .notEnabled

/-- A host command: it runs in main context, when the CPU's choice is the host program (R306, R322), and a fault
it raises records its command word (R34, R300). -/
def runCommand (i : Instr) (s : State) (body : Except FaultCode State) : Host.Outcome State Fault Refusal :=
  whenEnabled (cpuChoice s == .main) s (settle s (encode i) body)

/-- A handler segment, a dispatch or a poll: it runs when it is the CPU's step (R322), and a fault it raises
records its event opcode and timer channel (R34, R300). -/
def runEvent (i : Instr) (info : Word) (s : State) (body : Except FaultCode State) :
    Host.Outcome State Fault Refusal :=
  whenEnabled (cpuChoice s == .event i) s (settle s info body)

/-- `REARM_INT(t, ticks)` (R103): at least one tick, and OPERAND_RANGE above RELOAD_MAX; COUNT and PEND are kept. -/
def rearmInt (t : Timer) (ticks : Nat) (s : State) : Except FaultCode State :=
  if reloadMax s.params < ticks then .error .operandRange
  else .ok (setTimer t { s.timers.get t with rld := max 1 ticks } s)

/-- Taking an interrupt (R308): PEND[t] and GIE are cleared and the handler's context is pushed. Nothing else is
saved. -/
def takeInterrupt (t : Timer) (s : State) : State :=
  setCtx (⟨t, .entered⟩ :: s.ctx) (setGie false (setTimer t { s.timers.get t with pend := false } s))

/-- `return_from_handler()` (R311): pop the top entry of CTX and set GIE. -/
def returnFromHandler (s : State) : State := setGie true (setCtx s.ctx.tail s)

/-- A context stack whose top entry's segment is Tail. -/
def tailTop : List CtxEntry → List CtxEntry
  | e :: rest => { e with seg := .tail } :: rest
  | [] => []

/-- `top(CTX).seg <- Tail` (R133). -/
def enterTail (s : State) : State := setCtx (tailTop s.ctx) s

/-- The next answer of an oracle: the first answer already given, or a free value. -/
def answer {α : Type} (given : List α) (free : α) : α :=
  match given with
  | a :: _ => a
  | [] => free

/-- The answer `draw motion.pending()` gives now (R130). -/
def pendingAnswer (e : Env) : Bool := answer e.pendingIn (Config.motionPending e.draws)

/-- The answer `draw motion.step()` gives now (R130). -/
def stepAnswer (e : Env) : Nat := answer e.stepIn (Config.motionStep e.draws)

/-- The answer `draw adc.ready(j)` gives now (R166). -/
def readyAnswer (e : Env) (j : Byte) : Bool := answer e.readyIn (Config.adcReady e.draws j)

/-- The answer `draw adc.value(j)` gives now (R166). -/
def valueAnswer (e : Env) (j : Byte) : Nat := answer e.valueIn (Config.adcValue e.draws j)

/-- The outside world after `draw motion.pending()`. -/
def drewPending (e : Env) : Env := { e with pendingIn := e.pendingIn.tail, draws := e.draws + 1 }

/-- The outside world after `draw motion.step()`. -/
def drewStep (e : Env) : Env := { e with stepIn := e.stepIn.tail, draws := e.draws + 1 }

/-- The outside world after `draw adc.ready(j)`. -/
def drewReady (e : Env) : Env := { e with readyIn := e.readyIn.tail, draws := e.draws + 1 }

/-- The outside world after `draw adc.value(j)`. -/
def drewValue (e : Env) : Env := { e with valueIn := e.valueIn.tail, draws := e.draws + 1 }

end Sys2Proof.Machine
end

