-- ==== Sys2Proof/Machine/Advance.lean ====
section
/-! DEFINITION. Machine/Advance.lean: the extruder advance pacer (44_advance.md): SET_ADV_ACTIVE, ADV_ADD_OWED,
SET_ADV_COMP, SET_ADV_INTERVAL and FIRE_ADV. -/

namespace Sys2Proof.Machine

/-- The body of SET_ADV_ACTIVE (R231). -/
def setAdvActiveBody (b : Imm) (s : State) : Except FaultCode State :=
  if s.params.advancePresent = false then .error .notPresent
  else if 1 < immNat b then .error .operandRange
  else .ok (advanceHost (setAdv { s.adv with active := immNat b == 1 } s))

/-- SET_ADV_ACTIVE b (R231). -/
def execSetAdvActive (b : Imm) (s : State) : Host.Outcome State Fault Refusal :=
  runCommand (.setAdvActive b) s (setAdvActiveBody b s)

/-- The body of ADV_ADD_OWED (R232): one atomic add, refused when it leaves the signed range. -/
def advAddOwedBody (n : Imm) (s : State) : Except FaultCode State :=
  if s.params.advancePresent = false then .error .notPresent
  else
    let v := s.adv.owed.toInt + immInt n
    if fitsSigned32 v then .ok (advanceHost (setAdv { s.adv with owed := BitVec.ofInt 32 v } s))
    else .error .operandRange

/-- ADV_ADD_OWED n (R232). -/
def execAdvAddOwed (n : Imm) (s : State) : Host.Outcome State Fault Refusal :=
  runCommand (.advAddOwed n) s (advAddOwedBody n s)

/-- The body of SET_ADV_COMP (R233). -/
def setAdvCompBody (n : Imm) (s : State) : Except FaultCode State :=
  if s.params.advancePresent = false then .error .notPresent
  else .ok (advanceHost (setAdv { s.adv with comp := BitVec.ofInt 32 (immInt n) } s))

/-- SET_ADV_COMP n (R233). -/
def execSetAdvComp (n : Imm) (s : State) : Host.Outcome State Fault Refusal :=
  runCommand (.setAdvComp n) s (setAdvCompBody n s)

/-- The body of SET_ADV_INTERVAL (R234). -/
def setAdvIntervalBody (t : Imm) (s : State) : Except FaultCode State :=
  if s.params.advancePresent = false then .error .notPresent
  else if reloadMax s.params < immNat t then .error .operandRange
  else .ok (advanceHost (setAdv { s.adv with interval := immNat t } s))

/-- SET_ADV_INTERVAL t (R234). -/
def execSetAdvInterval (t : Imm) (s : State) : Host.Outcome State Fault Refusal :=
  runCommand (.setAdvInterval t) s (setAdvIntervalBody t s)

/-- The penalised interval of a direction change, saturated at RELOAD_MAX (R237). -/
def penalisedInterval (s : State) : Nat := min (s.adv.interval + s.params.advPenaltyTicks) (reloadMax s.params)

/-- `no_step()` (R236). -/
def advNoStep (s : State) : Except FaultCode State := rearmInt .adv s.adv.interval s

/-- `direction_change(s)` (R237): no step, the new direction, and the penalised re-arm. -/
def advDirectionChange (d : Sign) (s : State) : Except FaultCode State :=
  rearmInt .adv (penalisedInterval s)
    (emit (.advDirSet d) (setAdv { s.adv with dir := dirOf d, dirOut := d == .plus } s))

/-- `one_step(s)` (R238): exactly one step, one unit toward zero. -/
def advOneStep (d : Sign) (s : State) : Except FaultCode State :=
  rearmInt .adv s.adv.interval
    (setAdv { s.adv with owed := BitVec.ofInt 32 (s.adv.owed.toInt - signInt d) } (emit (.advStep d) s))

/-- The body of FIRE_ADV (R235): a no-op while ADV_ACTIVE = 0, else one of three cases. -/
def fireAdvBody (s : State) : Except FaultCode State :=
  if s.adv.active = false then .ok (returnFromHandler s)
  else
    (match signOf s.adv.owed.toInt with
      | none => advNoStep s
      | some d => if s.adv.dir = dirOf d then advOneStep d s else advDirectionChange d s).map returnFromHandler

/-- FIRE_ADV (R235): the CPU's step when the top CTX entry is (ADV, Entered). -/
def execFireAdv (s : State) : Host.Outcome State Fault Refusal :=
  runEvent .fireAdv (eventInfo 0x94#8 (timerNumber .adv)) s (fireAdvBody s)

end Sys2Proof.Machine
end

