-- ==== Sys2Proof/Machine/Clock.lean ====
section
/-! DEFINITION. Machine/Clock.lean: the free-running counter and wraparound arbiter (45_us_clock.md): CLK_TICK,
US_READ, WAIT_US, WAIT_POLL and US_REACHED. -/

namespace Sys2Proof.Machine

/-- The counter after one count, modulo 2^US_BITS (R260). -/
def countUp (s : State) : State := { s with usCnt := (s.usCnt + 1) % 2 ^ s.params.usBits }

/-- CLK_TICK (R260), the only step of the microsecond-clock agent: enabled whenever FAULT = none. -/
def execClkTick (s : State) : Host.Outcome State Fault Refusal := whenEnabled true s (countUp s)

/-- US_READ (R261). -/
def execUsRead (s : State) : Host.Outcome State Fault Refusal :=
  runCommand .usRead s (.ok (advanceHost (setRes (resultOf s.usCnt) s)))

/-- The wait record of a duration d begun at counter value c (R262): phase 1 when the goal wraps. -/
def waitRecord (range c d : Nat) : WaitRec :=
  if range ≤ c + d then ⟨c, c + d - range, .one⟩ else ⟨c, c + d, .two⟩

/-- The body of WAIT_US (R262): the wait is recorded; hpc is not advanced. -/
def waitUsBody (us : Imm) (s : State) : Except FaultCode State :=
  if 2 ^ s.params.usBits ≤ scaled s.params us then .error .waitRange
  else .ok (setWait (some (waitRecord (2 ^ s.params.usBits) s.usCnt (scaled s.params us))) s)

/-- WAIT_US us (R262). -/
def execWaitUs (us : Imm) (s : State) : Host.Outcome State Fault Refusal :=
  runCommand (.waitUs us) s (waitUsBody us s)

/-- One poll of the wait (R263): the wrap is observed, the goal tested, and a wait that ends completes the WAIT_US
command. -/
def pollBody (s : State) : State :=
  match s.waitf with
  | none => s
  | some r =>
    if (pollWait s.usCnt r).2 then advanceHost (setWait none s) else setWait (some (pollWait s.usCnt r).1) s

/-- WAIT_POLL (R263): the CPU's step in main context while a wait is recorded. -/
def execWaitPoll (s : State) : Host.Outcome State Fault Refusal :=
  runEvent .waitPoll (eventInfo 0x83#8 0#8) s (.ok (pollBody s))

/-- The body of US_REACHED (R265). -/
def usReachedBody (g : Imm) (s : State) : Except FaultCode State :=
  if 2 ^ s.params.usBits ≤ immNat g then .error .operandRange
  else .ok (advanceHost (setRes (resultOf (bitNat (usReachedFlag s.params s.usCnt (immNat g)))) s))

/-- US_REACHED g (R265). -/
def execUsReached (g : Imm) (s : State) : Host.Outcome State Fault Refusal :=
  runCommand (.usReached g) s (usReachedBody g s)

end Sys2Proof.Machine
end

