-- ==== Sys2Proof/Machine/Interrupt.lean ====
section
/-! DEFINITION. Machine/Interrupt.lean: interrupt dispatch and the critical section (60_exceptions.md): DISPATCH,
IRQ_DISABLE and IRQ_ENABLE. -/

namespace Sys2Proof.Machine

/-- DISPATCH t (R308): the CPU's step when GIE = 1 and t is the source R305 selects. -/
def execDispatch (t : Byte) (s : State) : Host.Outcome State Fault Refusal :=
  match timerOf t with
  | none => whenEnabled false s s
  | some tm => runEvent (.dispatch t) (eventInfo 0x82#8 t) s (.ok (takeInterrupt tm s))

/-- IRQ_DISABLE (R314). -/
def execIrqDisable (s : State) : Host.Outcome State Fault Refusal :=
  runCommand .irqDisable s (.ok (advanceHost (setGie false s)))

/-- IRQ_ENABLE (R315). -/
def execIrqEnable (s : State) : Host.Outcome State Fault Refusal :=
  runCommand .irqEnable s (.ok (advanceHost (setGie true s)))

end Sys2Proof.Machine
end

