-- ==== Sys2Proof/Machine/Pwm.lean ====
section
/-! DEFINITION. Machine/Pwm.lean: the PWM duty latch, the analog sampling and the maintenance tick
(42_pwm_sampling.md): SET_DUTY, FIRE_PWM, READ_ANALOG, READ_MAINT and CLR_MAINT. -/

namespace Sys2Proof.Machine

/-- The body of SET_DUTY (R161). -/
def setDutyBody (i : Byte) (d : Imm) (s : State) : Except FaultCode State :=
  if s.params.nPwm ≤ i.toNat then .error .operandRange
  else if 255 < immNat d then .error .operandRange
  else
    .ok (advanceHost (setMux
      { s.mux with pwm := s.mux.pwm.modify i.toNat fun ch => { ch with tgt := d.setWidth 8 } } s))

/-- SET_DUTY i, d (R161). -/
def execSetDuty (i : Byte) (d : Imm) (s : State) : Host.Outcome State Fault Refusal :=
  runCommand (.setDuty i d) s (setDutyBody i d s)

/-- The cycle-start latch of one channel (R163): the first loop, at counter value 0. -/
def latchChan (c : BitVec 8) (ch : PwmChan) : PwmChan :=
  if c = 0 then { ch with lat := ch.tgt, out := if ch.tgt = 0 then ch.out else true } else ch

/-- The deassert compare of one channel (R164): the second loop. -/
def compareChan (c : BitVec 8) (ch : PwmChan) : PwmChan :=
  if deassert c ch.lat then { ch with out := false } else ch

/-- `pwm_latch_and_compare(c)` (R163, R164): both loops, channel by channel. -/
def pwmLatchAndCompare (c : BitVec 8) (s : State) : State :=
  setMux { s.mux with pwm := s.mux.pwm.map fun ch => compareChan c (latchChan c ch) } s

/-- Normalisation (R167): one shift of the accumulation by OUT_BITS - ADC_BITS - OVERSAMPLE_K, up or down. -/
def normalizeAvg (p : Params) (a : Nat) : Nat :=
  if p.adcBits + p.oversampleK ≤ p.outBits then a * 2 ^ (p.outBits - p.adcBits - p.oversampleK)
  else a / 2 ^ (p.adcBits + p.oversampleK - p.outBits)

/-- A ready sample v of the addressed channel j, whose cells are ch (R166): accumulate, and at 2^k samples publish,
clear, and address the next channel, re-triggering conversion when the index wraps. -/
def acceptSample (j : Byte) (ch : AnalogChan) (v : Nat) (s : State) : State :=
  let acc := ch.acc + v
  let scnt := ch.scnt + 1
  if scnt = 2 ^ s.params.oversampleK then
    let next := (j.toNat + 1) % s.params.nAnalog
    let s1 := setMux
      { s.mux with
          analog := s.mux.analog.set j.toNat ⟨0, 0, normalizeAvg s.params acc⟩
          adcPos := BitVec.ofNat 8 next } s
    if next = 0 then emit .adcStart s1 else s1
  else setMux { s.mux with analog := s.mux.analog.set j.toNat { ch with acc := acc, scnt := scnt } } s

/-- `analog_step()` (R166): one hardware-conversion step. A channel that is not ready is retried at the next
firing. No run reaches an index past the list (log entry 18). -/
def analogStep (s : State) : Except FaultCode State :=
  if s.params.nAnalog = 0 then .ok s
  else
    let j := s.mux.adcPos
    let s1 := setEnv (drewReady s.env) s
    if readyAnswer s.env j then
      let v := valueAnswer s1.env j
      let s2 := setEnv (drewValue s1.env) s1
      if 2 ^ s.params.adcBits - 1 < v then .error .oracleRange
      else
        match s2.mux.analog[j.toNat]? with
        | some ch => .ok (acceptSample j ch v s2)
        | none => .ok s2
    else .ok s1

/-- `maintenance_tick()` (R168). -/
def maintenanceTick (s : State) : State :=
  if maintReached s.params s.mux.tickCnt then setMux { s.mux with tickCnt := 0, maintDue := true } s
  else setMux { s.mux with tickCnt := s.mux.tickCnt + 1 } s

/-- `ui_hook()` (R169): an event only. -/
def uiHook (s : State) : State := if s.params.uiHookPresent then emit .uiHook s else s

/-- `PWM_CNT <- (c + 1) mod 256` (R165). -/
def advancePwmCnt (c : BitVec 8) (s : State) : State := setMux { s.mux with pwmCnt := c + 1 } s

/-- The body of FIRE_PWM (R162): the four sub-steps in order, the counter, the return. -/
def firePwmBody (s : State) : Except FaultCode State :=
  let c := s.mux.pwmCnt
  (analogStep (pwmLatchAndCompare c s)).map fun s1 =>
    returnFromHandler (advancePwmCnt c (uiHook (maintenanceTick s1)))

/-- FIRE_PWM (R162): the CPU's step when the top CTX entry is (PWM, Entered). -/
def execFirePwm (s : State) : Host.Outcome State Fault Refusal :=
  runEvent .firePwm (eventInfo 0x92#8 (timerNumber .pwm)) s (firePwmBody s)

/-- The body of READ_ANALOG (R170). -/
def readAnalogBody (j : Byte) (s : State) : Except FaultCode State :=
  if s.params.nAnalog ≤ j.toNat then .error .operandRange
  else .ok (advanceHost (setRes (resultOf ((s.mux.analog[j.toNat]?.map (·.avg)).getD 0)) s))

/-- READ_ANALOG j (R170). -/
def execReadAnalog (j : Byte) (s : State) : Host.Outcome State Fault Refusal :=
  runCommand (.readAnalog j) s (readAnalogBody j s)

/-- READ_MAINT (R171): the flag is read, not cleared. -/
def execReadMaint (s : State) : Host.Outcome State Fault Refusal :=
  runCommand .readMaint s (.ok (advanceHost (setRes (resultOf (bitNat s.mux.maintDue)) s)))

/-- CLR_MAINT (R172). -/
def execClrMaint (s : State) : Host.Outcome State Fault Refusal :=
  runCommand .clrMaint s (.ok (advanceHost (setMux { s.mux with maintDue := false } s)))

end Sys2Proof.Machine
end

