-- ==== Sys2Proof/Machine/Servo.lean ====
section
/-! DEFINITION. Machine/Servo.lean: the servo phase multiplexer (43_servo.md): SET_SERVO and FIRE_SERVO. -/

namespace Sys2Proof.Machine

/-- SERVO_FRAME_US (R8, source constant). -/
def servoFrameUs : Nat := 5000
/-- SERVO_MIN_US (R8, source constant). -/
def servoMinUs : Nat := 500
/-- SERVO_MAX_US (R8, source constant). -/
def servoMaxUs : Nat := 2500
/-- SERVO_HALF_FRAME_US = SERVO_FRAME_US div 2 (R8). -/
def servoHalfFrameUs : Nat := servoFrameUs / 2

/-- `clamp(x, lo, hi) = min(max(x, lo), hi)` (R10). -/
def clamp (x lo hi : Nat) : Nat := min (max x lo) hi

/-- `us_to_ticks(us)` with base clock `base` and prescaler `psc`, floored (R201). For psc = 0, which no run
reaches, R201 states no result: a free value (log entry 9). -/
def usToTicksWith (base : Nat) (psc : BitVec 32) (us : Nat) : Nat :=
  if psc = 0 then Config.unconfiguredTicks us else us * base / (psc.toNat * 1000000)

/-- `us_to_ticks(us)` of the SERVO channel (R201). -/
def usToTicks (s : State) (us : Nat) : Nat := usToTicksWith s.params.baseClock.servo s.timers.servo.psc us

/-- FRAME_TICKS (R201). -/
def frameTicks (s : State) : Nat := usToTicks s servoFrameUs

/-- The servo channel a phase serves: p div 2 (R200). -/
def phaseChan (p : BitVec 3) : Nat := p.toNat / 2

/-- An even phase is a high phase (R200). -/
def highPhase (p : BitVec 3) : Bool := p.toNat % 2 == 0

/-- SRV_W[c]; a channel c ≥ N_SERVO behaves as a present channel whose width is 0 (R200, R31). -/
def servoWidth (s : State) (c : Nat) : Nat :=
  if c < s.params.nServo then (s.servo.chans[c]?.map (·.width.toNat)).getD 0 else 0

/-- The length of the high phase of a channel of width w (R203): the half frame for width 0, tested before the
clamp. -/
def highTicks (s : State) (w : Nat) : Nat :=
  if w = 0 then usToTicks s servoHalfFrameUs else usToTicks s (clamp w servoMinUs servoMaxUs)

/-- `SRV_OUT[c] <- b`. -/
def driveServo (c : Nat) (b : Bool) (s : State) : State :=
  setServo { s.servo with chans := s.servo.chans.modify c fun ch => { ch with out := b } } s

/-- The high phase of channel c (R203). -/
def servoHighPhase (c : Nat) (s : State) : Except FaultCode State :=
  let w := servoWidth s c
  let h := highTicks s w
  let s1 := if w = 0 then s else driveServo c true s
  rearmInt .servo h (setServo { s1.servo with lastHigh := h } s1)

/-- The low phase of channel c (R204). A negative difference, outside the boot constraints, re-arms with one tick
as a difference of 0 does (R352 (c), R103; DEDUCED, log entry 12). -/
def servoLowPhase (c : Nat) (s : State) : Except FaultCode State :=
  rearmInt .servo (frameTicks s - s.servo.lastHigh) (driveServo c false s)

/-- The body of FIRE_SERVO (R203): one phase, then the rotation (R205), then the return. -/
def fireServoBody (s : State) : Except FaultCode State :=
  let p := s.servo.phase
  let c := phaseChan p
  (if highPhase p then servoHighPhase c s else servoLowPhase c s).map fun s1 =>
    returnFromHandler (setServo { s1.servo with phase := p + 1 } s1)

/-- FIRE_SERVO (R203): the CPU's step when the top CTX entry is (SERVO, Entered). -/
def execFireServo (s : State) : Host.Outcome State Fault Refusal :=
  runEvent .fireServo (eventInfo 0x93#8 (timerNumber .servo)) s (fireServoBody s)

/-- The body of SET_SERVO (R202): the width is stored unclamped. -/
def setServoBody (c : Byte) (us : Imm) (s : State) : Except FaultCode State :=
  if s.params.servoPresent = false then .error .notPresent
  else if s.params.nServo ≤ c.toNat then .error .operandRange
  else if 65535 < immNat us then .error .operandRange
  else
    .ok (advanceHost (setServo
      { s.servo with chans := s.servo.chans.modify c.toNat fun ch => { ch with width := us.setWidth 16 } } s))

/-- SET_SERVO c, us (R202). -/
def execSetServo (c : Byte) (us : Imm) (s : State) : Host.Outcome State Fault Refusal :=
  runCommand (.setServo c us) s (setServoBody c us s)

end Sys2Proof.Machine
end

