-- ==== Sys2Proof/Machine/Stepper.lean ====
section
/-! DEFINITION. Machine/Stepper.lean: the stepper pacer (41_stepper_pacer.md): FIRE_STEP and STEP_TAIL. -/

namespace Sys2Proof.Machine

/-- The stepping branch (R133): one motion step, a re-arm with its delay, and the early re-enable of GIE. -/
def steppingBranch (s : State) : Except FaultCode State :=
  let ticks := stepAnswer s.env
  let s1 := setEnv (drewStep s.env) s
  if reloadMax s1.params < ticks then .error .oracleRange
  else
    (rearmInt .step ticks (emit .stepExec s1)).map fun s2 =>
      enterTail (setGie true (setStepper { s2.stepper with spState := .stepping } s2))

/-- The relax countdown of an empty firing (R134): loaded when motion has just ended, counted down once, and Idle
at zero. -/
def relaxStep (relaxTicks : BitVec 16) (c : Stepper) : Stepper :=
  let c1 := if c.spState = .stepping then { c with relax := relaxTicks, spState := .relaxing } else c
  if c1.spState = .relaxing then
    let r := if c1.relax = 0 then 0 else c1.relax - 1
    { c1 with relax := r, spState := if r = 0 then .idle else .relaxing }
  else c1

/-- The disable signal of idle housekeeping (R135): emitted when nothing is owed or nothing can be. -/
def disableWhenIdle (s : State) : State :=
  if s.params.advancePresent = false ∨ s.adv.owed = 0 then emit .driverDisable s else s

/-- Idle housekeeping (R135): fold the outstanding compensation, then disable the driver if nothing is owed. -/
def idleHousekeeping (s : State) : Except FaultCode State :=
  if s.params.advancePresent then
    let v := s.adv.owed.toInt + signInt s.params.advFoldSign * s.adv.comp.toInt
    if fitsSigned32 v then
      .ok (disableWhenIdle (setAdv { s.adv with owed := BitVec.ofInt 32 v, comp := 0 } s))
    else .error .arithRange
  else .ok (disableWhenIdle s)

/-- The empty branch (R134). -/
def emptyBranch (s : State) : Except FaultCode State :=
  let s1 := setStepper (relaxStep s.params.relaxTicks s.stepper) s
  match (if s1.stepper.spState = .idle then idleHousekeeping s1 else .ok s1) with
  | .error f => .error f
  | .ok s2 =>
    (rearmInt .step s2.params.stepIdleTicks s2).map fun s3 =>
      returnFromHandler (setStepper { s3.stepper with guard := false } s3)

/-- The body of FIRE_STEP (R131): the reentrancy check (R132), the guard, then one of the two branches. -/
def fireStepBody (s : State) : Except FaultCode State :=
  if s.stepper.guard then .ok (returnFromHandler s)
  else
    let s1 := setStepper { s.stepper with guard := true } s
    let s2 := setEnv (drewPending s1.env) s1
    if pendingAnswer s1.env then steppingBranch s2 else emptyBranch s2

/-- FIRE_STEP (R131): the CPU's step when the top CTX entry is (STEP, Entered). -/
def execFireStep (s : State) : Host.Outcome State Fault Refusal :=
  runEvent .fireStep (eventInfo 0x90#8 (timerNumber .step)) s (fireStepBody s)

/-- STEP_TAIL (R136): clear the guard and return. -/
def execStepTail (s : State) : Host.Outcome State Fault Refusal :=
  runEvent .stepTail (eventInfo 0x91#8 (timerNumber .step)) s
    (.ok (returnFromHandler (setStepper { s.stepper with guard := false } s)))

end Sys2Proof.Machine
end

