-- ==== Sys2Proof/Machine/Timer.lean ====
section
/-! DEFINITION. Machine/Timer.lean: the timer manager (40_timer_manager.md): CFG, REARM, TMR_READ and TICK. -/

namespace Sys2Proof.Machine

/-- The configuration search of R101: the first prescaler whose floored ideal reload is in 1..RELOAD_MAX. -/
def cfgSearch (base f rmax : Nat) : List (BitVec 32) → Option (BitVec 32 × Nat)
  | [] => none
  | p :: ps =>
    if 1 ≤ base / (p.toNat * f) ∧ base / (p.toNat * f) ≤ rmax then some (p, base / (p.toNat * f))
    else cfgSearch base f rmax ps

/-- A channel as CFG leaves it (R101). -/
def configured (psc : BitVec 32) (rld : Nat) (prio : BitVec 4) : TimerChan where
  psc := psc
  rld := rld
  en := true
  ie := true
  prio := prio
  count := 0
  pend := false

/-- The body of CFG (R101): the checks in their written order. -/
def cfgBody (t prio : Byte) (f : Imm) (s : State) : Except FaultCode State :=
  match presentTimer s.params t with
  | none => .error .notPresent
  | some tm =>
    if 15 < prio.toNat then .error .operandRange
    else if immNat f = 0 then .error .configFatal
    else
      match cfgSearch (s.params.baseClock.get tm) (immNat f) (reloadMax s.params) s.params.prescalers with
      | none => .error .configFatal
      | some (p, r) => .ok (advanceHost (setTimer tm (configured p r (prio.setWidth 4)) s))

/-- CFG t, prio, f (R101). -/
def execCfg (t prio : Byte) (f : Imm) (s : State) : Host.Outcome State Fault Refusal :=
  runCommand (.cfg t prio f) s (cfgBody t prio f s)

/-- The body of REARM (R104). -/
def rearmBody (t : Byte) (ticks : Imm) (s : State) : Except FaultCode State :=
  match presentTimer s.params t with
  | none => .error .notPresent
  | some tm =>
    if (s.timers.get tm).en = false then .error .notConfigured
    else (rearmInt tm (immNat ticks) s).map advanceHost

/-- REARM t, ticks (R104). -/
def execRearm (t : Byte) (ticks : Imm) (s : State) : Host.Outcome State Fault Refusal :=
  runCommand (.rearm t ticks) s (rearmBody t ticks s)

/-- The body of TMR_READ (R105). -/
def tmrReadBody (t sel : Byte) (s : State) : Except FaultCode State :=
  match presentTimer s.params t with
  | none => .error .notPresent
  | some tm =>
    match timerField (s.timers.get tm) sel with
    | none => .error .operandRange
    | some v => .ok (advanceHost (setRes (fieldResult v) s))

/-- TMR_READ t, sel (R105). -/
def execTmrRead (t sel : Byte) (s : State) : Host.Outcome State Fault Refusal :=
  runCommand (.tmrRead t sel) s (tmrReadBody t sel s)

/-- One count of a channel (R106): a match restarts the counter and sets PEND, merging with a pending one. -/
def tickChan (c : TimerChan) : TimerChan :=
  if compareMatch c then { c with count := 0, pend := true } else { c with count := c.count + 1 }

/-- TICK t (R106), the only step of timer-channel agent t: enabled when the channel is present and EN[t] = 1. -/
def execTick (t : Byte) (s : State) : Host.Outcome State Fault Refusal :=
  match timerOf t with
  | none => whenEnabled false s s
  | some tm => whenEnabled (tickEnabled s tm) s (setTimer tm (tickChan (s.timers.get tm)) s)

end Sys2Proof.Machine
end

