-- ==== Sys2Proof/Machine/Dispatch.lean ====
section
/-! DEFINITION. Machine/Dispatch.lean: the meaning of each instruction, one arm per row of the opcode table. -/

namespace Sys2Proof.Machine

def exec (i : Instr) (s : State) : Host.Outcome State Fault Refusal :=
  match i with
  | .cfg t prio f => Sys2Proof.Machine.execCfg t prio f s
  | .rearm t ticks => Sys2Proof.Machine.execRearm t ticks s
  | .tmrRead t sel => Sys2Proof.Machine.execTmrRead t sel s
  | .setDuty k d => Sys2Proof.Machine.execSetDuty k d s
  | .readAnalog j => Sys2Proof.Machine.execReadAnalog j s
  | .readMaint => Sys2Proof.Machine.execReadMaint s
  | .clrMaint => Sys2Proof.Machine.execClrMaint s
  | .setServo c us => Sys2Proof.Machine.execSetServo c us s
  | .setAdvActive b => Sys2Proof.Machine.execSetAdvActive b s
  | .advAddOwed n => Sys2Proof.Machine.execAdvAddOwed n s
  | .setAdvComp n => Sys2Proof.Machine.execSetAdvComp n s
  | .setAdvInterval t => Sys2Proof.Machine.execSetAdvInterval t s
  | .usRead => Sys2Proof.Machine.execUsRead s
  | .waitUs us => Sys2Proof.Machine.execWaitUs us s
  | .usReached g => Sys2Proof.Machine.execUsReached g s
  | .irqDisable => Sys2Proof.Machine.execIrqDisable s
  | .irqEnable => Sys2Proof.Machine.execIrqEnable s
  | .tick t => Sys2Proof.Machine.execTick t s
  | .clkTick => Sys2Proof.Machine.execClkTick s
  | .dispatch t => Sys2Proof.Machine.execDispatch t s
  | .waitPoll => Sys2Proof.Machine.execWaitPoll s
  | .fireStep => Sys2Proof.Machine.execFireStep s
  | .stepTail => Sys2Proof.Machine.execStepTail s
  | .firePwm => Sys2Proof.Machine.execFirePwm s
  | .fireServo => Sys2Proof.Machine.execFireServo s
  | .fireAdv => Sys2Proof.Machine.execFireAdv s

end Sys2Proof.Machine
end

