-- ==== Sys2Proof/Machine/Fetch.lean ====
section
/-! DEFINITION. Machine/Fetch.lean: how one instruction word is made the next step's, for any agent: a host
command as PROG[hpc] in main context, an event by its agent's turn and enabling condition (R3, R106, R322). -/

namespace Sys2Proof.Machine

/-- The host program with w at index k; an index past the end is reached by words of zeros. -/
def placeCommand (w : Word) : Nat → List Word → List Word
  | 0, [] => [w]
  | 0, _ :: rest => w :: rest
  | k + 1, [] => 0 :: placeCommand w k []
  | k + 1, x :: rest => x :: placeCommand w k rest

/-- The next turn is agent a's, and the block is not halted. -/
def giveTurn (a : Agent) (s : State) : State :=
  { s with env := { s.env with sched := a :: s.env.sched }, fault := none }

/-- No dispatch comes first: GIE = 0 if a source could be taken. -/
def holdDispatch (s : State) : State := if (dispatchable s).isSome then setGie false s else s

/-- A top CTX entry e, with no dispatch before it (R322, rule 3). -/
def enterContext (e : CtxEntry) (s : State) : State :=
  holdDispatch (match s.ctx with
    | top :: _ => if top = e then s else setCtx (e :: s.ctx) s
    | [] => setCtx [e] s)

/-- Main context, with no dispatch and no wait before it (R322, rules 5 and 6). -/
def enterMain (s : State) : State := holdDispatch (setWait none (setCtx [] s))

/-- Source t is the only one that can be taken, and GIE = 1 (R304). -/
def onlyPending (t : Timer) (s : State) : State :=
  let quiet (u : Timer) (c : TimerChan) : TimerChan :=
    if u = t then { c with en := true, ie := true, pend := true } else { c with pend := false }
  setGie true { s with timers :=
    ⟨quiet .step s.timers.step, quiet .pwm s.timers.pwm, quiet .servo s.timers.servo, quiet .adv s.timers.adv⟩ }

/-- A wait is recorded in main context, with no dispatch before its poll (R322, rule 4). -/
def enterWait (s : State) : State :=
  holdDispatch (setCtx [] (match s.waitf with
    | some _ => s
    | none => setWait (some ⟨s.usCnt, s.usCnt, .two⟩) s))

/-- The state in which the very next step runs the instruction of word w: a word that is no event is the host
program's word at hpc, whether it decodes or not. -/
def placeWord (w : Word) (s : State) : State :=
  match decodeEvent w with
  | .ok (.tick ch) =>
    match timerOf ch with
    | some t => giveTurn (.timer t) (setTimer t { s.timers.get t with en := true } s)
    | none => s
  | .ok .clkTick => giveTurn .clock s
  | .ok (.dispatch ch) =>
    match timerOf ch with
    | some t => giveTurn .cpu (onlyPending t s)
    | none => s
  | .ok .waitPoll => giveTurn .cpu (enterWait s)
  | .ok .fireStep => giveTurn .cpu (enterContext ⟨.step, .entered⟩ s)
  | .ok .stepTail => giveTurn .cpu (enterContext ⟨.step, .tail⟩ s)
  | .ok .firePwm => giveTurn .cpu (enterContext ⟨.pwm, .entered⟩ s)
  | .ok .fireServo => giveTurn .cpu (enterContext ⟨.servo, .entered⟩ s)
  | .ok .fireAdv => giveTurn .cpu (enterContext ⟨.adv, .entered⟩ s)
  | _ =>
    let m := enterMain s
    giveTurn .cpu { m with env := { m.env with prog := placeCommand w m.hpc m.env.prog } }

end Sys2Proof.Machine
end

