-- ==== Sys2Proof/Machine/Step.lean ====
section
/-! DEFINITION. Machine/Step.lean: one step of the block: the turn of one agent (R3, R12, R68), and the state in
which the next step runs a given instruction word. -/

namespace Sys2Proof.Machine

/-- One step: a halted block has none (R301); otherwise the agent whose turn it is takes its step, or the turn
passes if it has none (R322, rule 6; log entry 4). -/
def step (s : State) : Host.Outcome State Fault Refusal :=
  match s.fault with
  | some f => .fault (.halted f)
  | none =>
    match agentTurn s (agentAt s.env) with
    | .run i => exec i (setEnv (nextTurn s.env) s)
    | .illegal w => .next (raiseFault .illegalCommand w (setEnv (nextTurn s.env) s))
    | .idle => .next (setEnv (nextTurn s.env) s)

/-- The state s with the word of nbits bits of w placed so that the next step runs it (log entry 19). -/
def State.withFetchWord (s : State) (nbits w : Nat) : State := placeWord (BitVec.ofNat 64 (w % 2 ^ nbits)) s

end Sys2Proof.Machine
end

