-- ==== Sys2Proof/Safety.lean ====
section
/-! DEFINITION. Safety.lean: the terms statements are made in: when a step is enabled, read off the raw cells
(R106, R260, R322), the invariants of the state (the widths and legal values of 10_state.md, the context rule
R312, the servo rule R207), the boot constraints (R352), runs of labels, and fairness (R323). -/

namespace Sys2Proof.Machine

/-! When a step is enabled, in terms of the cells (R304, R322). -/

/-- No dispatch comes before another CPU step: GIE = 0, or no present channel has EN, IE and PEND set. -/
def NoDispatch (s : State) : Prop :=
  s.gie = true → ∀ t, present s.params t = true → (s.timers.get t).en = true → (s.timers.get t).ie = true →
    (s.timers.get t).pend = false

/-- The CPU is in main context and free for the host program's next command (R322, rules 5 and 6). -/
def MainReady (s : State) : Prop := s.fault = none ∧ NoDispatch s ∧ s.ctx = [] ∧ s.waitf = none

/-- The CPU is in main context with a wait recorded (R322, rule 4). -/
def PollReady (s : State) : Prop := s.fault = none ∧ NoDispatch s ∧ s.ctx = [] ∧ s.waitf.isSome = true

/-- The handler segment of entry e is the CPU's step, with `rest` below it on CTX (R322, rule 3). -/
def HandlerReady (e : CtxEntry) (rest : List CtxEntry) (s : State) : Prop :=
  s.fault = none ∧ NoDispatch s ∧ s.ctx = e :: rest

/-- Source t can be taken (R304). -/
def CanTake (s : State) (t : Timer) : Prop :=
  s.gie = true ∧ present s.params t = true ∧ (s.timers.get t).en = true ∧ (s.timers.get t).ie = true ∧
    (s.timers.get t).pend = true

/-- t is before u in dispatch order: smaller PRIO, or equal PRIO and a smaller channel number (R305). -/
def Before (s : State) (t u : Timer) : Prop :=
  (s.timers.get t).prio.toNat < (s.timers.get u).prio.toNat ∨
    ((s.timers.get t).prio = (s.timers.get u).prio ∧ (timerNumber t).toNat < (timerNumber u).toNat)

/-- t is the source that rule R305 selects. -/
def Selected (s : State) (t : Timer) : Prop := CanTake s t ∧ ∀ u, CanTake s u → u = t ∨ Before s t u

/-! Points of a run. -/

/-- A halted block (R301). -/
def Halted (s : State) : Prop := s.fault.isSome = true

/-- A host-complete state (R318). -/
def HostComplete (s : State) : Prop :=
  s.fault = none ∧ s.hpc = s.env.prog.length ∧ s.waitf = none ∧ s.ctx = []

/-- The steps of a list of labels, one after another: the spec's view of a run as a sequence of host commands
and events (R68), in any interleaving. -/
def runLabels : List Instr → State → Host.Outcome State Fault Refusal
  | [], s => .next s
  | i :: rest, s =>
    match exec i s with
    | .next t => runLabels rest t
    | .fault r => .fault r
    | .refused r => .refused r

/-- Dense polling (R266): each CLK_TICK is followed by a WAIT_POLL before the next CLK_TICK and before the end.
`owed` says that a poll is due. -/
def DenselyPolled : Bool → List Instr → Prop
  | owed, [] => owed = false
  | owed, .clkTick :: rest => owed = false ∧ DenselyPolled true rest
  | _, .waitPoll :: rest => DenselyPolled false rest
  | owed, _ :: rest => DenselyPolled owed rest

/-- Weak fairness of an endless sequence of turns (R323; log entry 21): every agent moves again after any point. -/
def Fair (turns : Nat → Agent) : Prop := ∀ a n, ∃ m, n ≤ m ∧ turns m = a

/-! The boot constraints (R352). -/

/-- R352 (a): the priorities of a correct boot. -/
def BootPriorities (s : State) : Prop :=
  s.timers.step.prio < s.timers.pwm.prio ∧ s.timers.pwm.prio < s.timers.servo.prio ∧
    s.timers.step.prio < s.timers.adv.prio

/-- R352 (c): with the prescaler CFG chose, every servo reload is in 1..RELOAD_MAX. -/
def ServoBoot (s : State) : Prop :=
  s.timers.servo.psc ≠ 0 ∧ 1 ≤ usToTicks s servoMinUs ∧ frameTicks s ≤ reloadMax s.params ∧
    usToTicks s servoMaxUs + 1 ≤ frameTicks s

/-! The invariant of the block. -/

/-- The registers of a channel (R25, R26): all at reset before CFG; in range after it. -/
structure TimerOk (p : Params) (t : Timer) (c : TimerChan) : Prop where
  off : c.en = false → c = .reset
  here : c.en = true → present p t = true
  ie : c.en = true → c.ie = true
  psc : c.en = true → c.psc ∈ p.prescalers
  rld : c.en = true → 1 ≤ c.rld ∧ c.rld ≤ reloadMax p
  count : c.en = true → c.count + 1 ≤ reloadMax p

/-- The handler contexts (R23, R24, R138, R312): at most two entries, a second one only on the stepper's tail;
GIE = 0 in every handler body and 1 in the tail; GUARD = 1 exactly while the tail is on CTX; and a handler's
channel has been configured. -/
structure CtxOk (s : State) : Prop where
  shape : s.ctx = [] ∨ (∃ t, s.ctx = [⟨t, .entered⟩]) ∨ s.ctx = [⟨.step, .tail⟩] ∨
    ∃ t, s.ctx = [⟨t, .entered⟩, ⟨.step, .tail⟩]
  body : ∀ t rest, s.ctx = ⟨t, .entered⟩ :: rest → s.gie = false
  tail : s.ctx = [⟨.step, .tail⟩] → s.gie = true
  guard : s.stepper.guard = true ↔ ⟨.step, .tail⟩ ∈ s.ctx
  live : ∀ e ∈ s.ctx, (s.timers.get e.tmr).en = true

/-- The relax countdown (R137): 0 in Idle, positive in Relaxing. -/
structure StepperOk (c : Stepper) : Prop where
  idle : c.spState = .idle → c.relax = 0
  relaxing : c.spState = .relaxing → c.relax ≠ 0

/-- The multiplexer's cells (R28, R29, R30): one per configured channel, each within its width; the accumulator
holds only samples that fit. -/
structure MuxOk (p : Params) (m : Mux) : Prop where
  pwm : m.pwm.length = p.nPwm
  analog : m.analog.length = p.nAnalog
  acc : ∀ ch ∈ m.analog, ch.acc ≤ ch.scnt * (2 ^ p.adcBits - 1) ∧ ch.scnt < 2 ^ p.oversampleK ∧ ch.avg < 2 ^ p.outBits
  pos : m.adcPos.toNat < max 1 p.nAnalog
  tick : m.tickCnt.toNat < p.maintThreshold

/-- The servo generator's cells (R31, R207): a channel is high only between its own two phases, so no two are. -/
structure ServoOk (p : Params) (v : Servo) : Prop where
  chans : v.chans.length = 4
  absent : ∀ c, ∀ ch, v.chans[c]? = some ch → p.nServo ≤ c → ch.width = 0
  high : ∀ c, ∀ ch, v.chans[c]? = some ch → ch.out = true → v.phase.toNat = 2 * c + 1
  last : v.lastHigh ≤ reloadMax p
  unit : p.servoPresent = false → v = .reset

/-- The advance pacer's cells (R32). -/
structure AdvOk (p : Params) (a : Advance) : Prop where
  interval : a.interval ≤ reloadMax p
  level : a.dirOut = true ↔ a.dir = .forward
  unit : p.advancePresent = false → a = .reset

/-- The clock and the wait record (R33, R262): within US_BITS; a wait that began with a wrap has its goal below
its start; and a wait belongs to a command of the host program. -/
structure ClockOk (s : State) : Prop where
  cnt : s.usCnt < 2 ^ s.params.usBits
  wait : ∀ r, s.waitf = some r → r.start < 2 ^ s.params.usBits ∧ r.goal < 2 ^ s.params.usBits
  wrap : ∀ r, s.waitf = some r → r.phase = .one → r.goal < r.start
  host : s.waitf.isSome = true → s.hpc < s.env.prog.length

/-- The invariant of the block: legal parameters, every cell within its width and legal values (10_state.md), and
the rules that bind cells together. -/
structure BlockInv (s : State) : Prop where
  params : s.params.Legal
  timers : ∀ t, TimerOk s.params t (s.timers.get t)
  ctx : CtxOk s
  stepper : StepperOk s.stepper
  mux : MuxOk s.params s.mux
  servo : ServoOk s.params s.servo
  adv : AdvOk s.params s.adv
  clock : ClockOk s
  hpc : s.hpc ≤ s.env.prog.length
  info : s.fault = none → s.faultInfo = 0

end Sys2Proof.Machine
end

