-- ==== Sys2Proof/Certificates/Slice0/Obligations.lean ====
section
/-! DEFINITION. Certificates/Slice0/Obligations.lean: the statements for the provers, each from a numbered rule of
spec/. Command words and fault records are written out field by field, OP, CH, AUX, RSV and IMM, not through the
model's encoder. An equation `exec i s = .next {s with …}` says the result and the frame at once: every cell not
named is unchanged. -/

open Sys2Proof Sys2Proof.Machine

/-! ## Encoding -/

/-- R80 to R85: for every well-formed instruction, with every operand at every value, decoding its word gives it
back, as a word and as the table's bit string. -/
def Obligations.DecodeEncodeRoundTrip : Prop :=
  ∀ i : Instr, i.wellFormed = true →
    decodeWord (encode i) = .ok i ∧ decodeTableWord 64 (encode i).toNat = some i

/-- R84: a word has at most one reading, and it is the word of its reading, so no bit of a legal word is dropped. -/
def Obligations.EncodeDecodeUnique : Prop :=
  ∀ (w : Word) (i : Instr), decodeWord w = .ok i → encode i = w

/-- R83, R84: exactly which 64-bit words are host commands, row by row of the host table, and that the command's
operands are the fields CH, AUX and IMM. -/
def Obligations.LegalCommandWords : Prop :=
  ∀ (w : Word) (i : Instr),
    let op : Byte := w.extractLsb' 56 8
    let ch : Byte := w.extractLsb' 48 8
    let aux : Byte := w.extractLsb' 40 8
    let imm : Imm := w.extractLsb' 0 32
    decodeCommand w = .ok i ↔
      w.extractLsb' 32 8 = 0#8 ∧
      ((op = 0x01#8 ∧ i = .cfg ch aux imm) ∨
       (op = 0x02#8 ∧ aux = 0#8 ∧ i = .rearm ch imm) ∨
       (op = 0x03#8 ∧ imm = 0#32 ∧ i = .tmrRead ch aux) ∨
       (op = 0x10#8 ∧ aux = 0#8 ∧ i = .setDuty ch imm) ∨
       (op = 0x11#8 ∧ aux = 0#8 ∧ imm = 0#32 ∧ i = .readAnalog ch) ∨
       (op = 0x12#8 ∧ ch = 0#8 ∧ aux = 0#8 ∧ imm = 0#32 ∧ i = .readMaint) ∨
       (op = 0x13#8 ∧ ch = 0#8 ∧ aux = 0#8 ∧ imm = 0#32 ∧ i = .clrMaint) ∨
       (op = 0x20#8 ∧ aux = 0#8 ∧ i = .setServo ch imm) ∨
       (op = 0x30#8 ∧ ch = 0#8 ∧ aux = 0#8 ∧ i = .setAdvActive imm) ∨
       (op = 0x31#8 ∧ ch = 0#8 ∧ aux = 0#8 ∧ i = .advAddOwed imm) ∨
       (op = 0x32#8 ∧ ch = 0#8 ∧ aux = 0#8 ∧ i = .setAdvComp imm) ∨
       (op = 0x33#8 ∧ ch = 0#8 ∧ aux = 0#8 ∧ i = .setAdvInterval imm) ∨
       (op = 0x40#8 ∧ ch = 0#8 ∧ aux = 0#8 ∧ imm = 0#32 ∧ i = .usRead) ∨
       (op = 0x41#8 ∧ ch = 0#8 ∧ aux = 0#8 ∧ i = .waitUs imm) ∨
       (op = 0x42#8 ∧ ch = 0#8 ∧ aux = 0#8 ∧ i = .usReached imm) ∨
       (op = 0x50#8 ∧ ch = 0#8 ∧ aux = 0#8 ∧ imm = 0#32 ∧ i = .irqDisable) ∨
       (op = 0x51#8 ∧ ch = 0#8 ∧ aux = 0#8 ∧ imm = 0#32 ∧ i = .irqEnable))

/-- R84, R301, R34: when the CPU takes a word of PROG that is no command, the block halts with ILLEGAL_COMMAND and
the word in FAULT_INFO; hpc and every other cell stay. The turn's bookkeeping is the model's own (log entry 4). -/
def Obligations.IllegalWordRaises : Prop :=
  ∀ (s : State) (w : Word), agentAt s.env = .cpu → MainReady s → s.env.prog[s.hpc]? = some w →
    (∀ i : Instr, i.isCommand = true → w ≠ encode i) →
    step s = .next { s with
      env := { s.env with sched := s.env.sched.tail, turn := s.env.turn + 1 }
      fault := some .illegalCommand
      faultInfo := w }

/-- R61, R62: a word is serialised little-endian, byte k holding bits 8k+7..8k, and eight bytes are read back as
the word whatever follows them. -/
def Obligations.WordBytesLittleEndian : Prop :=
  ∀ (w : Word) (rest : List Byte),
    takeWord (wordBytes w ++ rest) = some (w, rest) ∧
      ∀ k : Nat, k < 8 → (wordBytes w)[k]? = some (w.extractLsb' (8 * k) 8)

/-- R88 and 95_test_vectors.md V-ENC-1: words written out from the spec's encodings decode to their commands. -/
def Obligations.SampleWordsDecode : Prop :=
  decodeCommand 0x010000000000A410#64 = .ok (.cfg 0 0 42000) ∧
  decodeCommand 0x1001000000000080#64 = .ok (.setDuty 1 128) ∧
  decodeCommand 0x31000000FFFFFFFD#64 = .ok (.advAddOwed (-3)) ∧
  decodeCommand 0x0301010000000000#64 = .ok (.tmrRead 1 1) ∧
  decodeCommand 0x0200010000000064#64 = .error .unusedField ∧
  decodeCommand 0x8000000000000000#64 = .error .opcode

/-! ## The step of an agent -/

/-- R22, R84, R322 rule 5: when it is the CPU's turn in main context and the word at hpc decodes to i, the step is
i's meaning. Around it the turn is taken: the next scheduled turn is used up and the turn counter advances (the model's
own bookkeeping, log entry 4). -/
def Obligations.StepRunsDecodedCommand : Prop :=
  ∀ (s : State) (w : Word) (i : Instr), agentAt s.env = .cpu → MainReady s →
    s.env.prog[s.hpc]? = some w → decodeCommand w = .ok i →
    step s = exec i { s with env := { s.env with sched := s.env.sched.tail, turn := s.env.turn + 1 } }

/-- R106, R260, R322 rules 2 to 4: the event that is the step of the agent whose turn it is, in a block that is not
halted. -/
def Obligations.StepRunsEnabledEvent : Prop :=
  ∀ s : State, s.fault = none →
    let s' : State := { s with env := { s.env with sched := s.env.sched.tail, turn := s.env.turn + 1 } }
    (∀ t, agentAt s.env = .timer t → present s.params t = true → (s.timers.get t).en = true →
      step s = exec (.tick (timerNumber t)) s') ∧
    (agentAt s.env = .clock → step s = exec .clkTick s') ∧
    (agentAt s.env = .cpu → ∀ t, Selected s t → step s = exec (.dispatch (timerNumber t)) s') ∧
    (agentAt s.env = .cpu → ∀ rest, HandlerReady ⟨.step, .entered⟩ rest s → step s = exec .fireStep s') ∧
    (agentAt s.env = .cpu → ∀ rest, HandlerReady ⟨.step, .tail⟩ rest s → step s = exec .stepTail s') ∧
    (agentAt s.env = .cpu → ∀ rest, HandlerReady ⟨.pwm, .entered⟩ rest s → step s = exec .firePwm s') ∧
    (agentAt s.env = .cpu → ∀ rest, HandlerReady ⟨.servo, .entered⟩ rest s → step s = exec .fireServo s') ∧
    (agentAt s.env = .cpu → ∀ rest, HandlerReady ⟨.adv, .entered⟩ rest s → step s = exec .fireAdv s') ∧
    (agentAt s.env = .cpu → PollReady s → step s = exec .waitPoll s')

/-- The model's choice (log entry 4): where the agent whose turn it is has no step (a channel that is absent or not
enabled, R106; the CPU once the host program has ended, R322 rule 6), the turn passes and no cell changes. -/
def Obligations.IdleTurnPasses : Prop :=
  ∀ s : State, s.fault = none →
    ((∃ t, agentAt s.env = .timer t ∧ (present s.params t = false ∨ (s.timers.get t).en = false)) ∨
     (agentAt s.env = .cpu ∧ MainReady s ∧ s.env.prog.length ≤ s.hpc)) →
    step s = .next { s with env := { s.env with sched := s.env.sched.tail, turn := s.env.turn + 1 } }

/-- R301: in a halted block no agent has a step: no step of the machine, and none of any instruction. -/
def Obligations.HaltedBlockHasNoStep : Prop :=
  ∀ (s : State) (f : FaultCode), s.fault = some f →
    step s = .fault (.halted f) ∧ ∀ i : Instr, exec i s = .fault (.halted f)

/-- R11, R34, R301: an instruction that raises has no other effect: the state it leaves is the state it began in,
with FAULT and FAULT_INFO written; and for a host command FAULT_INFO is its command word. -/
def Obligations.RaiseDiscardsEveryOtherEffect : Prop :=
  ∀ (i : Instr) (s t : State) (f : FaultCode), exec i s = .next t → t.fault = some f →
    t = { s with fault := some f, faultInfo := t.faultInfo } ∧ (i.isCommand = true → t.faultInfo = encode i)

/-- R304, R305, R322 rule 2: DISPATCH t is a step exactly when t can be taken and every other source that can be
taken has a larger PRIO, or the same PRIO and a larger channel number. -/
def Obligations.SelectionPicksMostUrgent : Prop :=
  ∀ (s : State) (t : Timer),
    (∃ u, exec (.dispatch (timerNumber t)) s = .next u) ↔ (s.fault = none ∧ Selected s t)

/-! ## Interrupts and contexts -/

/-- R308: DISPATCH t clears PEND[t] and GIE and pushes the entry (t, Entered); nothing else is saved or changed. -/
def Obligations.DispatchTakesInterrupt : Prop :=
  ∀ (s : State) (t : Timer), s.fault = none → Selected s t →
    exec (.dispatch (timerNumber t)) s = .next { s with
      timers := s.timers.set t { s.timers.get t with pend := false }
      gie := false
      ctx := ⟨t, .entered⟩ :: s.ctx }

/-- R314: IRQ_DISABLE clears GIE and advances hpc, and nothing else. -/
def Obligations.IrqDisableClearsGie : Prop :=
  ∀ s : State, MainReady s → exec .irqDisable s = .next { s with gie := false, hpc := s.hpc + 1 }

/-- R315: IRQ_ENABLE sets GIE and advances hpc, and nothing else. -/
def Obligations.IrqEnableSetsGie : Prop :=
  ∀ s : State, MainReady s → exec .irqEnable s = .next { s with gie := true, hpc := s.hpc + 1 }

/-- R132: a FIRE_STEP that finds GUARD = 1 returns at once: CTX is popped, GIE is set, and no other cell changes; no
oracle answer is drawn. -/
def Obligations.NestedFireStepReturns : Prop :=
  ∀ (s : State) (rest : List CtxEntry), HandlerReady ⟨.step, .entered⟩ rest s → s.stepper.guard = true →
    exec .fireStep s = .next { s with ctx := rest, gie := true }

/-- R136: STEP_TAIL clears GUARD and returns. -/
def Obligations.StepTailCompletesFiring : Prop :=
  ∀ (s : State) (rest : List CtxEntry), HandlerReady ⟨.step, .tail⟩ rest s →
    exec .stepTail s = .next { s with stepper := { s.stepper with guard := false }, ctx := rest, gie := true }

/-- R23, R24, R138, R312: every step keeps the context rule, which bounds CTX by two entries, puts a second entry
only on the stepper's tail, keeps GIE = 0 in handler bodies, and ties GUARD to the tail. -/
def Obligations.StepKeepsContextRule : Prop :=
  ∀ s t : State, CtxOk s → step s = .next t → CtxOk t ∧ t.ctx.length ≤ 2

/-! ## The timer manager -/

/-- R101: CFG in main context. A channel number that names no present channel raises NOT_PRESENT; then a priority
above 15 OPERAND_RANGE; then a frequency 0, or one no prescaler represents, CONFIG_FATAL; else the first prescaler in
order with a reload in 1..RELOAD_MAX is taken and the channel is configured. R101 calls the search the spec's own choice
(92_eei_decisions.md D8, which also decides f = 0 and the cleared pending bit; D43 and D45 decide the refusals). -/
def Obligations.CfgConfiguresOrRaises : Prop :=
  ∀ (s : State) (ch prio : Byte) (f : Imm), MainReady s →
    let w : Word := 0x01#8 ++ ch ++ prio ++ 0#8 ++ f
    let max : Nat := 2 ^ s.params.timerBits - 1
    ((∀ t, present s.params t = true → ch ≠ timerNumber t) →
      exec (.cfg ch prio f) s = .next { s with fault := some .notPresent, faultInfo := w }) ∧
    ∀ t, ch = timerNumber t → present s.params t = true →
      let r : BitVec 32 → Nat := fun p => s.params.baseClock.get t / (p.toNat * f.toNat)
      (15 < prio.toNat → exec (.cfg ch prio f) s = .next { s with fault := some .operandRange, faultInfo := w }) ∧
      (prio.toNat ≤ 15 → (f = 0 ∨ ∀ p ∈ s.params.prescalers, r p = 0 ∨ max < r p) →
        exec (.cfg ch prio f) s = .next { s with fault := some .configFatal, faultInfo := w }) ∧
      (prio.toNat ≤ 15 → f ≠ 0 → ∀ before p after, s.params.prescalers = before ++ p :: after →
        (∀ q ∈ before, r q = 0 ∨ max < r q) → 1 ≤ r p → r p ≤ max →
        exec (.cfg ch prio f) s = .next { s with
          timers := s.timers.set t
            { psc := p, rld := r p, en := true, ie := true, prio := BitVec.ofNat 4 prio.toNat, count := 0,
              pend := false }
          hpc := s.hpc + 1 })

/-- R102: after a CFG that does not raise, the chosen reload is within one count of the ideal one:
f * PSC * RLD ≤ BASE_CLOCK_HZ < f * PSC * (RLD + 1). -/
def Obligations.CfgWithinOneCount : Prop :=
  ∀ (s u : State) (t : Timer) (prio : Byte) (f : Imm), exec (.cfg (timerNumber t) prio f) s = .next u →
    u.fault = none →
    f.toNat * (u.timers.get t).psc.toNat * (u.timers.get t).rld ≤ s.params.baseClock.get t ∧
    s.params.baseClock.get t < f.toNat * (u.timers.get t).psc.toNat * ((u.timers.get t).rld + 1)

/-- R103, R104: REARM in main context: NOT_PRESENT, then NOT_CONFIGURED, then OPERAND_RANGE above RELOAD_MAX; else
RLD is the operand, at least 1, and COUNT and PEND are kept. -/
def Obligations.RearmRewritesReload : Prop :=
  ∀ (s : State) (ch : Byte) (ticks : Imm), MainReady s →
    let w : Word := 0x02#8 ++ ch ++ 0#8 ++ 0#8 ++ ticks
    ((∀ t, present s.params t = true → ch ≠ timerNumber t) →
      exec (.rearm ch ticks) s = .next { s with fault := some .notPresent, faultInfo := w }) ∧
    ∀ t, ch = timerNumber t → present s.params t = true →
      ((s.timers.get t).en = false →
        exec (.rearm ch ticks) s = .next { s with fault := some .notConfigured, faultInfo := w }) ∧
      ((s.timers.get t).en = true → 2 ^ s.params.timerBits - 1 < ticks.toNat →
        exec (.rearm ch ticks) s = .next { s with fault := some .operandRange, faultInfo := w }) ∧
      ((s.timers.get t).en = true → ticks.toNat ≤ 2 ^ s.params.timerBits - 1 →
        exec (.rearm ch ticks) s = .next { s with
          timers := s.timers.set t { s.timers.get t with rld := if ticks = 0 then 1 else ticks.toNat }
          hpc := s.hpc + 1 })

/-- R105: TMR_READ in main context: NOT_PRESENT, then OPERAND_RANGE for a selector above 6; else RES is the selected
field, zero-extended. The read port is the spec's own choice (92_eei_decisions.md D40). That the command runs, with RES
free, on a value of 2^64 or more is the model's choice (DESIGN CHOICE, log entry 11). -/
def Obligations.TmrReadReturnsField : Prop :=
  ∀ (s : State) (ch sel : Byte), MainReady s →
    let w : Word := 0x03#8 ++ ch ++ sel ++ 0#8 ++ 0#32
    ((∀ t, present s.params t = true → ch ≠ timerNumber t) →
      exec (.tmrRead ch sel) s = .next { s with fault := some .notPresent, faultInfo := w }) ∧
    ∀ t, ch = timerNumber t → present s.params t = true →
      let c := s.timers.get t
      (6 < sel.toNat → exec (.tmrRead ch sel) s = .next { s with fault := some .operandRange, faultInfo := w }) ∧
      ∀ v, [c.psc.toNat, c.rld, c.en.toNat, c.ie.toNat, c.prio.toNat, c.pend.toNat, c.count][sel.toNat]? = some v →
        ∃ r : Word, (v < 2 ^ 64 → r.toNat = v) ∧ exec (.tmrRead ch sel) s = .next { s with res := r, hpc := s.hpc + 1 }

/-- R106: TICK of a present, enabled channel in a block that is not halted: the count rises by one, and at the reload
it restarts and PEND is set, whether or not it was set; no other cell changes. -/
def Obligations.TickCountsOrMatches : Prop :=
  ∀ (s : State) (t : Timer), s.fault = none → present s.params t = true → (s.timers.get t).en = true →
    let c := s.timers.get t
    exec (.tick (timerNumber t)) s = .next { s with
      timers := s.timers.set t
        (if c.rld ≤ c.count + 1 then { c with count := 0, pend := true } else { c with count := c.count + 1 }) }

/-- R106, R357: with RLD[t] = r fixed, n TICKs from COUNT = 0 leave COUNT = n mod r and PEND set exactly if it was set
or n reached r: a match occurs every r TICKs, and matches merge. -/
def Obligations.MatchEveryReloadTicks : Prop :=
  ∀ (s : State) (t : Timer) (n : Nat), s.fault = none → present s.params t = true → (s.timers.get t).en = true →
    (s.timers.get t).count = 0 → 1 ≤ (s.timers.get t).rld →
    runLabels (List.replicate n (.tick (timerNumber t))) s = .next { s with
      timers := s.timers.set t { s.timers.get t with
        count := n % (s.timers.get t).rld
        pend := (s.timers.get t).pend || decide ((s.timers.get t).rld ≤ n) } }

/-! ## The stepper pacer -/

/-- R131, R133, R130: a firing that passes the guard and finds a pending move draws the motion engine's delay; above
RELOAD_MAX it raises ORACLE_RANGE; else it executes one step, re-arms with at least one tick, sets Stepping, enables
interrupts early and leaves the rest of the firing to the tail, GUARD staying 1. -/
def Obligations.SteppingBranchTakesOneStep : Prop :=
  ∀ (s : State) (rest : List CtxEntry), HandlerReady ⟨.step, .entered⟩ rest s → s.stepper.guard = false →
    pendingAnswer s.env = true →
    let ticks := stepAnswer (drewPending s.env)
    (2 ^ s.params.timerBits - 1 < ticks →
      exec .fireStep s = .next { s with fault := some .oracleRange, faultInfo := 0x9000000000000000#64 }) ∧
    (ticks ≤ 2 ^ s.params.timerBits - 1 →
      exec .fireStep s = .next { s with
        env := drewStep (drewPending s.env)
        trace := s.trace ++ [.stepExec]
        timers := s.timers.set .step { s.timers.step with rld := if ticks = 0 then 1 else ticks }
        stepper := ⟨true, .stepping, s.stepper.relax⟩
        gie := true
        ctx := ⟨.step, .tail⟩ :: rest })

/-- R134, R137: an empty firing that passes the guard while Stepping or Relaxing counts the relax countdown down,
loading it first if motion has just ended; while it is not yet 0 the firing emits nothing, re-arms with
STEP_IDLE_TICKS and returns with GUARD = 0. -/
def Obligations.EmptyFiringCountsRelaxDown : Prop :=
  ∀ (s : State) (rest : List CtxEntry) (r : BitVec 16), HandlerReady ⟨.step, .entered⟩ rest s →
    s.stepper.guard = false → pendingAnswer s.env = false →
    1 ≤ s.params.stepIdleTicks → s.params.stepIdleTicks ≤ 2 ^ s.params.timerBits - 1 →
    ((s.stepper.spState = .stepping ∧ s.params.relaxTicks.toNat = r.toNat + 1) ∨
     (s.stepper.spState = .relaxing ∧ s.stepper.relax.toNat = r.toNat + 1)) → r ≠ 0 →
    exec .fireStep s = .next { s with
      env := drewPending s.env
      timers := s.timers.set .step { s.timers.step with rld := s.params.stepIdleTicks }
      stepper := ⟨false, .relaxing, r⟩
      gie := true
      ctx := rest }

/-- R134, R135, R137: an empty firing that is in Idle or reaches it runs the idle housekeeping. With the advance
pacer present it folds ADV_COMP into ADV_OWED with ADV_FOLD_SIGN, raising ARITH_RANGE outside the signed 32-bit
range; it emits DRIVER_DISABLE exactly if nothing is then owed, or if the advance pacer is absent. -/
def Obligations.IdleFiringFoldsAndDisables : Prop :=
  ∀ (s : State) (rest : List CtxEntry), HandlerReady ⟨.step, .entered⟩ rest s →
    s.stepper.guard = false → pendingAnswer s.env = false →
    1 ≤ s.params.stepIdleTicks → s.params.stepIdleTicks ≤ 2 ^ s.params.timerBits - 1 →
    ((s.stepper.spState = .stepping ∧ s.params.relaxTicks.toNat ≤ 1) ∨
     (s.stepper.spState = .relaxing ∧ s.stepper.relax.toNat ≤ 1) ∨
     (s.stepper.spState = .idle ∧ s.stepper.relax = 0)) →
    let fold : Int := s.adv.owed.toInt + (if s.params.advFoldSign = .plus then 1 else -1) * s.adv.comp.toInt
    let after : State := { s with
      env := drewPending s.env
      timers := s.timers.set .step { s.timers.step with rld := s.params.stepIdleTicks }
      stepper := ⟨false, .idle, 0⟩
      gie := true
      ctx := rest }
    (s.params.advancePresent = false →
      exec .fireStep s = .next { after with trace := s.trace ++ [.driverDisable] }) ∧
    (s.params.advancePresent = true → -2 ^ 31 ≤ fold → fold ≤ 2 ^ 31 - 1 →
      exec .fireStep s = .next { after with
        adv := { s.adv with owed := BitVec.ofInt 32 fold, comp := 0 }
        trace := if fold = 0 then s.trace ++ [.driverDisable] else s.trace }) ∧
    (s.params.advancePresent = true → (fold < -2 ^ 31 ∨ 2 ^ 31 - 1 < fold) →
      exec .fireStep s = .next { s with fault := some .arithRange, faultInfo := 0x9000000000000000#64 })

/-! ## The PWM and sampling multiplexer -/

/-- R161: SET_DUTY in main context: OPERAND_RANGE for a channel not configured or a duty above 255; else the
channel's duty target is the operand, and its latched duty and its output stay. -/
def Obligations.SetDutyWritesTarget : Prop :=
  ∀ (s : State) (i : Byte) (d : Imm), MainReady s →
    ((s.params.nPwm ≤ i.toNat ∨ 255 < d.toNat) →
      exec (.setDuty i d) s = .next { s with
        fault := some .operandRange, faultInfo := 0x10#8 ++ i ++ 0#8 ++ 0#8 ++ d }) ∧
    (i.toNat < s.params.nPwm → d.toNat ≤ 255 → ∀ c, s.mux.pwm[i.toNat]? = some c →
      exec (.setDuty i d) s = .next { s with
        mux := { s.mux with pwm := s.mux.pwm.set i.toNat { c with tgt := BitVec.ofNat 8 d.toNat } }
        hpc := s.hpc + 1 })

/-- R162 to R166, R168, R169: a PWM firing that takes no analog sample (no analog channel, or the addressed one not
ready): each configured channel latches at counter value 0 and compares, the counter and the maintenance tick
advance, the hook is emitted, and the handler returns. -/
def Obligations.FirePwmWithoutSample : Prop :=
  ∀ (s : State) (rest : List CtxEntry), HandlerReady ⟨.pwm, .entered⟩ rest s →
    (s.params.nAnalog = 0 ∨ readyAnswer s.env s.mux.adcPos = false) →
    let c := s.mux.pwmCnt
    let cell : PwmChan → PwmChan := fun ch =>
      let lat := if c = 0 then ch.tgt else ch.lat
      { tgt := ch.tgt, lat := lat,
        out := if lat = c ∧ lat ≠ 255 then false else if c = 0 ∧ 0 < ch.tgt.toNat then true else ch.out }
    exec .firePwm s = .next { s with
      env := if s.params.nAnalog = 0 then s.env else drewReady s.env
      mux := { s.mux with
        pwm := s.mux.pwm.map cell
        pwmCnt := c + 1
        tickCnt := if s.params.maintThreshold ≤ s.mux.tickCnt.toNat + 1 then 0 else s.mux.tickCnt + 1
        maintDue := s.mux.maintDue || decide (s.params.maintThreshold ≤ s.mux.tickCnt.toNat + 1) }
      trace := s.trace ++ (if s.params.uiHookPresent then [.uiHook] else [])
      gie := true
      ctx := rest }

/-- R166, R167: a PWM firing with a ready sample v of the addressed channel j. A sample wider than ADC_BITS raises
ORACLE_RANGE; else it is accumulated, and the 2^k-th publishes the sum shifted by OUT_BITS - ADC_BITS - k, clears the
accumulator and the counter, and addresses the next channel, emitting ADC_START when the index wraps. The channel's
other duties are those of the firing without a sample. -/
def Obligations.FirePwmAcceptsSample : Prop :=
  ∀ (s : State) (rest : List CtxEntry) (ch : AnalogChan), HandlerReady ⟨.pwm, .entered⟩ rest s →
    s.params.nAnalog ≠ 0 → readyAnswer s.env s.mux.adcPos = true →
    s.mux.analog[s.mux.adcPos.toNat]? = some ch →
    let c := s.mux.pwmCnt
    let j := s.mux.adcPos.toNat
    let v := valueAnswer (drewReady s.env) s.mux.adcPos
    let next := (j + 1) % s.params.nAnalog
    let shift : Int := (s.params.outBits : Int) - s.params.adcBits - s.params.oversampleK
    let average := if 0 ≤ shift then (ch.acc + v) <<< shift.toNat else (ch.acc + v) >>> (-shift).toNat
    let hook : List OutEvent := if s.params.uiHookPresent then [.uiHook] else []
    let cell : PwmChan → PwmChan := fun ch =>
      let lat := if c = 0 then ch.tgt else ch.lat
      { tgt := ch.tgt, lat := lat,
        out := if lat = c ∧ lat ≠ 255 then false else if c = 0 ∧ 0 < ch.tgt.toNat then true else ch.out }
    let mux : Mux := { s.mux with
        pwm := s.mux.pwm.map cell
        pwmCnt := c + 1
        tickCnt := if s.params.maintThreshold ≤ s.mux.tickCnt.toNat + 1 then 0 else s.mux.tickCnt + 1
        maintDue := s.mux.maintDue || decide (s.params.maintThreshold ≤ s.mux.tickCnt.toNat + 1) }
    let after : State := { s with env := drewValue (drewReady s.env), gie := true, ctx := rest }
    (2 ^ s.params.adcBits ≤ v →
      exec .firePwm s = .next { s with fault := some .oracleRange, faultInfo := 0x9201000000000000#64 }) ∧
    (v < 2 ^ s.params.adcBits → ch.scnt + 1 ≠ 2 ^ s.params.oversampleK →
      exec .firePwm s = .next { after with
        mux := { mux with analog := s.mux.analog.set j { ch with acc := ch.acc + v, scnt := ch.scnt + 1 } }
        trace := s.trace ++ hook }) ∧
    (v < 2 ^ s.params.adcBits → ch.scnt + 1 = 2 ^ s.params.oversampleK →
      exec .firePwm s = .next { after with
        mux := { mux with
          analog := s.mux.analog.set j { acc := 0, scnt := 0, avg := average }
          adcPos := BitVec.ofNat 8 next }
        trace := s.trace ++ (if next = 0 then [.adcStart] else []) ++ hook })

/-- R173: the waveform law, under any interleaving. From a firing at counter value 0 on, whatever labels follow
(ticks, dispatches, other handlers, host commands, SET_DUTY among them), after k more PWM firings of the cycle the
output of a configured channel is that of tick k for the duty target d as it stood at the cycle's first firing: never
high for 0, always high for 255, and else high exactly for k < d. -/
def Obligations.PwmWaveformLaw : Prop :=
  ∀ (s s1 t : State) (labels : List Instr) (i : Nat) (ch : PwmChan),
    s.mux.pwmCnt = 0 → s.mux.pwm[i]? = some ch →
    exec .firePwm s = .next s1 → runLabels labels s1 = .next t → t.fault = none →
    labels.count .firePwm ≤ 255 →
    (t.mux.pwm[i]?).map (·.out) =
      some (decide (ch.tgt.toNat = 255 ∨ labels.count .firePwm < ch.tgt.toNat))

/-- R66, R163: away from a cycle start a PWM firing's outputs, latched duties and every other cell do not depend on the
duty targets: two states that differ in the targets alone leave states that differ in the targets alone. -/
def Obligations.DutyTargetsLatchOnlyAtCycleStart : Prop :=
  ∀ (s t : State) (duty : Nat → BitVec 8), s.mux.pwmCnt ≠ 0 →
    let retarget : State → State := fun u => { u with
      mux := { u.mux with pwm := u.mux.pwm.mapIdx fun k ch => { ch with tgt := duty k } } }
    exec .firePwm s = .next t → exec .firePwm (retarget s) = .next (retarget t)

/-- R166, R174: the analog law, under any interleaving. If the addressed channel has no samples yet and the converter's
next 2^k answers are ready with the constant value v in range, then after 2^k PWM firings, whatever other labels fall
between them, its published average is v scaled to the output width, and its accumulator and counter are 0. -/
def Obligations.AnalogAverageLaw : Prop :=
  ∀ (s t : State) (labels : List Instr) (v avg : Nat) (more : List Bool) (later : List Nat),
    s.params.nAnalog ≠ 0 → s.mux.analog[s.mux.adcPos.toNat]? = some ⟨0, 0, avg⟩ →
    s.env.readyIn = List.replicate (2 ^ s.params.oversampleK) true ++ more →
    s.env.valueIn = List.replicate (2 ^ s.params.oversampleK) v ++ later → v < 2 ^ s.params.adcBits →
    runLabels labels s = .next t → t.fault = none → labels.count .firePwm = 2 ^ s.params.oversampleK →
    t.mux.analog[s.mux.adcPos.toNat]? = some ⟨0, 0,
      if s.params.adcBits ≤ s.params.outBits then v * 2 ^ (s.params.outBits - s.params.adcBits)
      else v / 2 ^ (s.params.adcBits - s.params.outBits)⟩

/-- R167: the normalised average of 2^k samples of ADC_BITS bits fits OUT_BITS bits. -/
def Obligations.NormalizedAverageFits : Prop :=
  ∀ (p : Params) (a : Nat), 1 ≤ p.adcBits → 1 ≤ p.outBits → a ≤ (2 ^ p.adcBits - 1) * 2 ^ p.oversampleK →
    normalizeAvg p a < 2 ^ p.outBits

/-- R170, R67: READ_ANALOG in main context: OPERAND_RANGE for a channel not configured; else RES is the published
average, and nothing but RES and hpc changes. -/
def Obligations.ReadAnalogReturnsAverage : Prop :=
  ∀ (s : State) (j : Byte), MainReady s →
    (s.params.nAnalog ≤ j.toNat →
      exec (.readAnalog j) s = .next { s with
        fault := some .operandRange, faultInfo := 0x11#8 ++ j ++ 0#8 ++ 0#8 ++ 0#32 }) ∧
    (j.toNat < s.params.nAnalog → ∀ ch, s.mux.analog[j.toNat]? = some ch →
      exec (.readAnalog j) s = .next { s with res := BitVec.ofNat 64 ch.avg, hpc := s.hpc + 1 })

/-- R171, R172: READ_MAINT returns MAINT_DUE and keeps it; CLR_MAINT clears it. -/
def Obligations.MaintenanceFlagReadAndClear : Prop :=
  ∀ s : State, MainReady s →
    exec .readMaint s = .next { s with res := if s.mux.maintDue then 1 else 0, hpc := s.hpc + 1 } ∧
    exec .clrMaint s = .next { s with mux := { s.mux with maintDue := false }, hpc := s.hpc + 1 }

/-! ## The servo generator -/

/-- R202: SET_SERVO in main context: NOT_PRESENT, then OPERAND_RANGE for an absent channel, then for a width above 16
bits; else the width is stored unclamped. -/
def Obligations.SetServoStoresWidth : Prop :=
  ∀ (s : State) (c : Byte) (us : Imm), MainReady s →
    let w : Word := 0x20#8 ++ c ++ 0#8 ++ 0#8 ++ us
    (s.params.servoPresent = false →
      exec (.setServo c us) s = .next { s with fault := some .notPresent, faultInfo := w }) ∧
    (s.params.servoPresent = true → (s.params.nServo ≤ c.toNat ∨ 65535 < us.toNat) →
      exec (.setServo c us) s = .next { s with fault := some .operandRange, faultInfo := w }) ∧
    (s.params.servoPresent = true → c.toNat < s.params.nServo → us.toNat ≤ 65535 →
      ∀ ch, s.servo.chans[c.toNat]? = some ch →
      exec (.setServo c us) s = .next { s with
        servo := { s.servo with chans := s.servo.chans.set c.toNat { ch with width := BitVec.ofNat 16 us.toNat } }
        hpc := s.hpc + 1 })

/-- R200, R201, R203, R205: a high phase of servo channel c. A present channel of nonzero width is raised for its
clamped width; width 0, or an absent channel, keeps its output and takes half a frame. The length is recorded and
programmed (above RELOAD_MAX it raises OPERAND_RANGE, R103), and the phase advances. -/
def Obligations.ServoHighPhase : Prop :=
  ∀ (s : State) (rest : List CtxEntry) (c : Nat) (ch : ServoChan), HandlerReady ⟨.servo, .entered⟩ rest s →
    s.servo.phase.toNat = 2 * c → s.servo.chans[c]? = some ch → s.timers.servo.psc ≠ 0 →
    let ticks : Nat → Nat := fun us => us * s.params.baseClock.servo / (s.timers.servo.psc.toNat * 1000000)
    let w := if c < s.params.nServo then ch.width.toNat else 0
    let h := if w = 0 then ticks 2500 else ticks (min (max w 500) 2500)
    (2 ^ s.params.timerBits - 1 < h →
      exec .fireServo s = .next { s with fault := some .operandRange, faultInfo := 0x9302000000000000#64 }) ∧
    (h ≤ 2 ^ s.params.timerBits - 1 →
      exec .fireServo s = .next { s with
        servo := {
          chans := if w = 0 then s.servo.chans else s.servo.chans.set c { ch with out := true }
          phase := s.servo.phase + 1
          lastHigh := h }
        timers := s.timers.set .servo { s.timers.servo with rld := max 1 h }
        gie := true
        ctx := rest })

/-- R201, R204, R205: a low phase of servo channel c: its output goes low, and the timer is programmed for the rest of
the frame, at least one tick (one tick also for a negative rest: the model's reading, log entry 12); the phase advances
modulo 8. -/
def Obligations.ServoLowPhase : Prop :=
  ∀ (s : State) (rest : List CtxEntry) (c frame : Nat) (ch : ServoChan), HandlerReady ⟨.servo, .entered⟩ rest s →
    s.servo.phase.toNat = 2 * c + 1 → s.servo.chans[c]? = some ch → s.timers.servo.psc ≠ 0 →
    frame = 5000 * s.params.baseClock.servo / (s.timers.servo.psc.toNat * 1000000) →
    (2 ^ s.params.timerBits - 1 < frame - s.servo.lastHigh →
      exec .fireServo s = .next { s with fault := some .operandRange, faultInfo := 0x9302000000000000#64 }) ∧
    (frame - s.servo.lastHigh ≤ 2 ^ s.params.timerBits - 1 →
      exec .fireServo s = .next { s with
        servo := { s.servo with
          chans := s.servo.chans.set c { ch with out := false }
          phase := BitVec.ofNat 3 ((2 * c + 2) % 8) }
        timers := s.timers.set .servo { s.timers.servo with rld := max 1 (frame - s.servo.lastHigh) }
        gie := true
        ctx := rest })

/-- R206: the frame law, under any interleaving. With the boot constraints of R352 (c), the reload a high phase writes
and the reload the following servo firing writes sum to FRAME_TICKS, whatever labels other than a servo firing fall
between, as long as the servo timer keeps its prescaler. -/
def Obligations.ServoFrameLaw : Prop :=
  ∀ (s s1 s2 t : State) (labels : List Instr), ServoBoot s → s.servo.phase.toNat % 2 = 0 →
    exec .fireServo s = .next s1 → runLabels labels s1 = .next s2 → Instr.fireServo ∉ labels →
    s2.timers.servo.psc = s.timers.servo.psc → exec .fireServo s2 = .next t →
    s1.fault = none ∧ t.fault = none ∧ s1.timers.servo.rld + t.timers.servo.rld = frameTicks s

/-- R207: every step keeps the rule that a servo output is high only between its own high and low phase, so no two
servo channels are ever high at once. -/
def Obligations.StepKeepsOneServoHigh : Prop :=
  let own : State → Prop := fun s =>
    ∀ c ch, s.servo.chans[c]? = some ch → ch.out = true → s.servo.phase.toNat = 2 * c + 1
  ∀ s t : State, own s → step s = .next t → own t ∧
    ∀ (c d : Nat) (x y : ServoChan), t.servo.chans[c]? = some x → t.servo.chans[d]? = some y → x.out = true →
      y.out = true → c = d

/-! ## The advance pacer -/

/-- R230, R231: SET_ADV_ACTIVE in main context. -/
def Obligations.SetAdvActiveWritesFlag : Prop :=
  ∀ (s : State) (b : Imm), MainReady s →
    let w : Word := 0x30#8 ++ 0#8 ++ 0#8 ++ 0#8 ++ b
    (s.params.advancePresent = false →
      exec (.setAdvActive b) s = .next { s with fault := some .notPresent, faultInfo := w }) ∧
    (s.params.advancePresent = true → 1 < b.toNat →
      exec (.setAdvActive b) s = .next { s with fault := some .operandRange, faultInfo := w }) ∧
    (s.params.advancePresent = true → b.toNat ≤ 1 →
      exec (.setAdvActive b) s = .next { s with
        adv := { s.adv with active := decide (b.toNat = 1) }, hpc := s.hpc + 1 })

/-- R230, R232: ADV_ADD_OWED in main context: the operand is signed, the sum is exact, and a sum outside the signed
32-bit range raises OPERAND_RANGE. -/
def Obligations.AdvAddOwedAddsExactly : Prop :=
  ∀ (s : State) (n : Imm), MainReady s →
    let w : Word := 0x31#8 ++ 0#8 ++ 0#8 ++ 0#8 ++ n
    let v : Int := s.adv.owed.toInt + n.toInt
    (s.params.advancePresent = false →
      exec (.advAddOwed n) s = .next { s with fault := some .notPresent, faultInfo := w }) ∧
    (s.params.advancePresent = true → (v < -2 ^ 31 ∨ 2 ^ 31 - 1 < v) →
      exec (.advAddOwed n) s = .next { s with fault := some .operandRange, faultInfo := w }) ∧
    (s.params.advancePresent = true → -2 ^ 31 ≤ v → v ≤ 2 ^ 31 - 1 →
      ∃ owed : BitVec 32, owed.toInt = v ∧
        exec (.advAddOwed n) s = .next { s with adv := { s.adv with owed := owed }, hpc := s.hpc + 1 })

/-- R230, R233, R234: SET_ADV_COMP and SET_ADV_INTERVAL in main context; the interval above RELOAD_MAX raises
OPERAND_RANGE, and RLD[ADV] is not changed by either. -/
def Obligations.SetAdvCompAndInterval : Prop :=
  ∀ (s : State) (n : Imm), MainReady s →
    let w2 : Word := 0x32#8 ++ 0#8 ++ 0#8 ++ 0#8 ++ n
    let w3 : Word := 0x33#8 ++ 0#8 ++ 0#8 ++ 0#8 ++ n
    (s.params.advancePresent = false →
      exec (.setAdvComp n) s = .next { s with fault := some .notPresent, faultInfo := w2 } ∧
      exec (.setAdvInterval n) s = .next { s with fault := some .notPresent, faultInfo := w3 }) ∧
    (s.params.advancePresent = true →
      exec (.setAdvComp n) s = .next { s with adv := { s.adv with comp := n }, hpc := s.hpc + 1 }) ∧
    (s.params.advancePresent = true → 2 ^ s.params.timerBits - 1 < n.toNat →
      exec (.setAdvInterval n) s = .next { s with fault := some .operandRange, faultInfo := w3 }) ∧
    (s.params.advancePresent = true → n.toNat ≤ 2 ^ s.params.timerBits - 1 →
      exec (.setAdvInterval n) s = .next { s with adv := { s.adv with interval := n.toNat }, hpc := s.hpc + 1 })

/-- R235 to R238: FIRE_ADV. Inactive, it only returns. Active, with ADV_INTERVAL within RELOAD_MAX: with nothing owed
it re-arms; on a direction that differs from the owed one (Unknown included) it sets the direction, issues no step and
re-arms with the penalty, saturated; else it issues one step, moves ADV_OWED one unit toward 0 and re-arms. -/
def Obligations.FireAdvFourCases : Prop :=
  ∀ (s : State) (rest : List CtxEntry), HandlerReady ⟨.adv, .entered⟩ rest s →
    let max : Nat := 2 ^ s.params.timerBits - 1
    let rearm : Nat → PerTimer TimerChan := fun n =>
      s.timers.set .adv { s.timers.adv with rld := if n = 0 then 1 else n }
    let penal := min (s.adv.interval + s.params.advPenaltyTicks) max
    (s.adv.active = false → exec .fireAdv s = .next { s with gie := true, ctx := rest }) ∧
    (s.adv.active = true → s.adv.interval ≤ max → s.adv.owed = 0 →
      exec .fireAdv s = .next { s with timers := rearm s.adv.interval, gie := true, ctx := rest }) ∧
    (s.adv.active = true → 0 < s.adv.owed.toInt → s.adv.dir ≠ .forward →
      exec .fireAdv s = .next { s with
        adv := { s.adv with dir := .forward, dirOut := true }, trace := s.trace ++ [.advDirSet .plus]
        timers := rearm penal, gie := true, ctx := rest }) ∧
    (s.adv.active = true → s.adv.owed.toInt < 0 → s.adv.dir ≠ .reverse →
      exec .fireAdv s = .next { s with
        adv := { s.adv with dir := .reverse, dirOut := false }, trace := s.trace ++ [.advDirSet .minus]
        timers := rearm penal, gie := true, ctx := rest }) ∧
    (s.adv.active = true → s.adv.interval ≤ max → 0 < s.adv.owed.toInt → s.adv.dir = .forward →
      exec .fireAdv s = .next { s with
        adv := { s.adv with owed := s.adv.owed - 1 }, trace := s.trace ++ [.advStep .plus]
        timers := rearm s.adv.interval, gie := true, ctx := rest }) ∧
    (s.adv.active = true → s.adv.interval ≤ max → s.adv.owed.toInt < 0 → s.adv.dir = .reverse →
      exec .fireAdv s = .next { s with
        adv := { s.adv with owed := s.adv.owed + 1 }, trace := s.trace ++ [.advStep .minus]
        timers := rearm s.adv.interval, gie := true, ctx := rest })

/-- R239, R362: the hysteresis law, under any interleaving without a write of ADV_ACTIVE or ADV_OWED by the host and
without a stepper firing (whose fold writes ADV_OWED). From n steps owed in direction d, k advance firings issue one
ADV_DIRSET if the direction differed and k ≥ 1, then exactly one ADV_STEP each until n steps are issued; ADV_OWED is
what is left. -/
def Obligations.AdvHysteresisLaw : Prop :=
  ∀ (s t : State) (labels : List Instr) (d : Sign) (n : Nat),
    s.adv.active = true → s.adv.owed.toInt = (if d = .plus then 1 else -1) * (n : Int) → 0 < n →
    (∀ i ∈ labels, i ≠ .fireStep ∧ (∀ x, i ≠ .advAddOwed x) ∧ ∀ x, i ≠ .setAdvActive x) →
    runLabels labels s = .next t → t.fault = none →
    let k := labels.count .fireAdv
    let lead := if s.adv.dir = (if d = .plus then .forward else .reverse) then 0 else 1
    let steps := min (k - lead) n
    let isAdv : OutEvent → Bool := fun e =>
      match e with
      | .advStep _ => true
      | .advDirSet _ => true
      | _ => false
    t.adv.owed.toInt = (if d = .plus then 1 else -1) * ((n : Int) - steps) ∧
    t.trace.filter isAdv =
      s.trace.filter isAdv ++ List.replicate (min k lead) (.advDirSet d) ++ List.replicate steps (.advStep d)

/-! ## The microsecond clock -/

/-- R260: CLK_TICK in any block that is not halted, in any context. -/
def Obligations.ClkTickCountsModuloRange : Prop :=
  ∀ s : State, s.fault = none → s.usCnt < 2 ^ s.params.usBits →
    exec .clkTick s = .next { s with
      usCnt := if s.usCnt + 1 = 2 ^ s.params.usBits then 0 else s.usCnt + 1 }

/-- R261: US_READ returns the counter. -/
def Obligations.UsReadReturnsCounter : Prop :=
  ∀ s : State, MainReady s →
    exec .usRead s = .next { s with res := BitVec.ofNat 64 s.usCnt, hpc := s.hpc + 1 }

/-- R262, R267: WAIT_US in main context: WAIT_RANGE for a scaled duration that does not fit the counter; else the goal
is recorded, in phase 1 if it wraps and phase 2 if not, and hpc is not advanced. -/
def Obligations.WaitUsRecordsGoal : Prop :=
  ∀ (s : State) (us : Imm), MainReady s →
    let d := us.toNat * s.params.usTicksPerUs
    let range := 2 ^ s.params.usBits
    (range ≤ d →
      exec (.waitUs us) s = .next { s with
        fault := some .waitRange, faultInfo := 0x41#8 ++ 0#8 ++ 0#8 ++ 0#8 ++ us }) ∧
    (d < range → range ≤ s.usCnt + d →
      exec (.waitUs us) s = .next { s with waitf := some ⟨s.usCnt, s.usCnt + d - range, .one⟩ }) ∧
    (d < range → s.usCnt + d < range →
      exec (.waitUs us) s = .next { s with waitf := some ⟨s.usCnt, s.usCnt + d, .two⟩ })

/-- R263: WAIT_POLL: in phase 1 a counter below the start is the wrap, and the goal is tested in the same poll; in
phase 2 a counter at or past the goal ends the wait and completes the WAIT_US command. -/
def Obligations.WaitPollTwoPhase : Prop :=
  ∀ (s : State) (r : WaitRec), PollReady s → s.waitf = some r →
    let wrapped := r.phase = .two ∨ s.usCnt < r.start
    (wrapped → r.goal ≤ s.usCnt → exec .waitPoll s = .next { s with waitf := none, hpc := s.hpc + 1 }) ∧
    (wrapped → s.usCnt < r.goal → exec .waitPoll s = .next { s with waitf := some { r with phase := .two } }) ∧
    (r.phase = .one → r.start ≤ s.usCnt → exec .waitPoll s = .next s)

/-- R265: US_REACHED in main context: OPERAND_RANGE for a goal wider than US_BITS; else RES is 1 exactly for counter
values from the goal up to half the range past it, modulo the range. -/
def Obligations.UsReachedComparesModularly : Prop :=
  ∀ (s : State) (g : Imm), MainReady s → 2 ≤ s.params.usBits → s.usCnt < 2 ^ s.params.usBits →
    (2 ^ s.params.usBits ≤ g.toNat →
      exec (.usReached g) s = .next { s with
        fault := some .operandRange, faultInfo := 0x42#8 ++ 0#8 ++ 0#8 ++ 0#8 ++ g }) ∧
    (g.toNat < 2 ^ s.params.usBits → ∀ k, k < 2 ^ s.params.usBits →
      s.usCnt = (g.toNat + k) % 2 ^ s.params.usBits →
      exec (.usReached g) s = .next { s with
        res := if k < 2 ^ (s.params.usBits - 1) then 1 else 0, hpc := s.hpc + 1 })

/-- R266 (a): the wait law. After a WAIT_US of d ticks, 1 ≤ d, in any run of events in which every CLK_TICK is followed
by a poll before the next, with e CLK_TICKs: the wait is still recorded while e < d, it has ended and completed the
command when e = d, and no such run has e > d. With and without a wrap of the counter. -/
def Obligations.DensePollingWaitLaw : Prop :=
  ∀ (s s0 t : State) (us : Imm) (labels : List Instr),
    let d := us.toNat * s.params.usTicksPerUs
    s.usCnt < 2 ^ s.params.usBits → exec (.waitUs us) s = .next s0 → s0.fault = none → 1 ≤ d →
    (∀ i ∈ labels, i.isCommand = false) → DenselyPolled false labels →
    runLabels labels s0 = .next t → t.fault = none →
    let e := labels.count .clkTick
    e ≤ d ∧ (e < d → t.waitf.isSome = true ∧ t.hpc = s.hpc) ∧ (e = d → t.waitf = none ∧ t.hpc = s.hpc + 1)

/-! ## The whole block -/

/-- 10_state.md: every step, from any state that has it, keeps the invariant of the block: each cell within its width
and its legal values (R22 to R33), the context rule (R312), the servo rule (R207), absent units at reset (R7). -/
def Obligations.StepKeepsInvariant : Prop := ∀ s t : State, BlockInv s → step s = .next t → BlockInv t

/-- R350: the state after reset has the invariant, for every legal choice of the parameters (their legality is R8's, with
the model's two bounds of log entry 3). -/
def Obligations.ResetHasInvariant : Prop := ∀ p : Params, p.Legal → BlockInv (State.resetWith p)

/-- R350, R351: every cell after reset, for any parameters: the values of R21 to R35; no TICK, no dispatch and no
handler is enabled, and the CPU's first step is the host program's first word. US_CNT starts at the value a parameter
names (R33, log entry 15). -/
def Obligations.ResetLeavesEveryCellAtReset : Prop :=
  ∀ p : Params,
    let s := State.resetWith p
    s.params = p ∧ s.res = 0 ∧ s.hpc = 0 ∧ s.ctx = [] ∧ s.gie = false ∧
    (∀ t, s.timers.get t = ⟨0, 0, false, false, 0, 0, false⟩) ∧
    s.stepper = ⟨false, .idle, 0⟩ ∧
    s.mux.pwm = List.replicate p.nPwm ⟨0, 0, false⟩ ∧ s.mux.pwmCnt = 0 ∧
    s.mux.analog = List.replicate p.nAnalog ⟨0, 0, 0⟩ ∧ s.mux.adcPos = 0 ∧ s.mux.tickCnt = 0 ∧
    s.mux.maintDue = false ∧
    s.servo = ⟨[⟨0, false⟩, ⟨0, false⟩, ⟨0, false⟩, ⟨0, false⟩], 0, 0⟩ ∧
    s.adv = ⟨false, 0, 0, 0, .unknown, false⟩ ∧ s.usCnt = p.usCntReset ∧ s.waitf = none ∧ s.fault = none ∧
    s.faultInfo = 0 ∧ s.trace = [] ∧ MainReady s ∧ ∀ t, ∃ r, exec (.tick (timerNumber t)) s = .refused r

/-- R21: no step but a read command's writes RES. -/
def Obligations.OnlyReadsWriteRes : Prop :=
  ∀ (i : Instr) (s t : State), exec i s = .next t → t.res ≠ s.res →
    (∃ a b, i = .tmrRead a b) ∨ (∃ j, i = .readAnalog j) ∨ i = .readMaint ∨ i = .usRead ∨ ∃ g, i = .usReached g

/-- R22 to R33, R36, R38: the writers of the cells. Each clause says which instructions alone can change a cell; the
parameters and the host program have none, and EN and IE change only by being set. -/
def Obligations.CellsHaveOnlyTheirWriters : Prop :=
  ∀ (i : Instr) (s t : State), exec i s = .next t →
    let handler := i = .fireStep ∨ i = .stepTail ∨ i = .firePwm ∨ i = .fireServo ∨ i = .fireAdv
    (t.params = s.params ∧ t.env.prog = s.env.prog) ∧
    (t.hpc ≠ s.hpc → (i.isCommand = true ∨ i = .waitPoll) ∧ t.hpc = s.hpc + 1) ∧
    (t.ctx ≠ s.ctx → (∃ n, i = .dispatch n) ∨ handler) ∧
    (t.gie ≠ s.gie → (∃ n, i = .dispatch n) ∨ handler ∨ i = .irqDisable ∨ i = .irqEnable) ∧
    (∀ u, (t.timers.get u).psc ≠ (s.timers.get u).psc ∨ (t.timers.get u).prio ≠ (s.timers.get u).prio →
      ∃ c q f, i = .cfg c q f) ∧
    (∀ u, (t.timers.get u).en ≠ (s.timers.get u).en ∨ (t.timers.get u).ie ≠ (s.timers.get u).ie →
      (∃ c q f, i = .cfg c q f) ∧ (t.timers.get u).en = true ∧ (t.timers.get u).ie = true) ∧
    (∀ u, (t.timers.get u).rld ≠ (s.timers.get u).rld →
      (∃ c q f, i = .cfg c q f) ∨ (∃ c n, i = .rearm c n) ∨ (u = .step ∧ i = .fireStep) ∨
      (u = .servo ∧ i = .fireServo) ∨ (u = .adv ∧ i = .fireAdv)) ∧
    (∀ u, (t.timers.get u).count ≠ (s.timers.get u).count → (∃ c q f, i = .cfg c q f) ∨ i = .tick (timerNumber u)) ∧
    (∀ u, (t.timers.get u).pend ≠ (s.timers.get u).pend →
      (∃ c q f, i = .cfg c q f) ∨ i = .tick (timerNumber u) ∨ i = .dispatch (timerNumber u)) ∧
    (t.stepper ≠ s.stepper → i = .fireStep ∨ i = .stepTail) ∧
    ((t.mux.pwmCnt ≠ s.mux.pwmCnt ∨ t.mux.analog ≠ s.mux.analog ∨ t.mux.adcPos ≠ s.mux.adcPos ∨
      t.mux.tickCnt ≠ s.mux.tickCnt ∨ t.mux.pwm.map (·.lat) ≠ s.mux.pwm.map (·.lat) ∨
      t.mux.pwm.map (·.out) ≠ s.mux.pwm.map (·.out)) → i = .firePwm) ∧
    (t.mux.pwm.map (·.tgt) ≠ s.mux.pwm.map (·.tgt) → ∃ k d, i = .setDuty k d) ∧
    (t.mux.maintDue ≠ s.mux.maintDue → i = .firePwm ∨ i = .clrMaint) ∧
    ((t.servo.phase ≠ s.servo.phase ∨ t.servo.lastHigh ≠ s.servo.lastHigh ∨
      t.servo.chans.map (·.out) ≠ s.servo.chans.map (·.out)) → i = .fireServo) ∧
    (t.servo.chans.map (·.width) ≠ s.servo.chans.map (·.width) → ∃ c us, i = .setServo c us) ∧
    ((t.adv.dir ≠ s.adv.dir ∨ t.adv.dirOut ≠ s.adv.dirOut) → i = .fireAdv) ∧
    (t.adv.owed ≠ s.adv.owed → i = .fireAdv ∨ i = .fireStep ∨ ∃ n, i = .advAddOwed n) ∧
    (t.adv.comp ≠ s.adv.comp → i = .fireStep ∨ ∃ n, i = .setAdvComp n) ∧
    (t.adv.interval ≠ s.adv.interval → ∃ n, i = .setAdvInterval n) ∧
    (t.adv.active ≠ s.adv.active → ∃ b, i = .setAdvActive b) ∧
    (t.usCnt ≠ s.usCnt → i = .clkTick) ∧
    (t.waitf ≠ s.waitf → i = .waitPoll ∨ ∃ us, i = .waitUs us)

/-- R35: TRACE is append-only: every step keeps what it holds as a prefix, and a step that raises adds nothing. -/
def Obligations.TraceOnlyGrows : Prop :=
  ∀ s t : State, step s = .next t →
    (∃ events, t.trace = s.trace ++ events) ∧ (t.fault.isSome = true → t.trace = s.trace)
end

