-- ==== Sys2Proof/Laws/State.lean ====
section
/-! SUPPORT. Laws/State.lean: what each named update of the state leaves in each field, and the reads of an
indexed cell after a write of it. All are true by unfolding one record update, so later proofs never do. -/

namespace Sys2Proof

@[simp] theorem PerTimer.get_set {α : Type} (c : PerTimer α) (t u : Timer) (v : α) :
    (c.set t v).get u = if u = t then v else c.get u := by
  cases t <;> cases u <;> rfl

theorem PerTimer.get_set_self {α : Type} (c : PerTimer α) (t : Timer) (v : α) : (c.set t v).get t = v := by
  simp

theorem PerTimer.ext_get {α : Type} {c d : PerTimer α} (h : ∀ t, c.get t = d.get t) : c = d := by
  cases c; cases d
  have h1 := h .step
  have h2 := h .pwm
  have h3 := h .servo
  have h4 := h .adv
  simp only [PerTimer.get] at h1 h2 h3 h4
  simp [h1, h2, h3, h4]

@[simp] theorem PerTimer.get_servo {α : Type} (c : PerTimer α) : c.get .servo = c.servo := rfl

namespace Machine

variable (s : State)


@[simp] theorem setRes_params (v : Word) : (setRes v s).params = s.params := rfl
@[simp] theorem setRes_env (v : Word) : (setRes v s).env = s.env := rfl
@[simp] theorem setRes_res (v : Word) : (setRes v s).res = v := rfl
@[simp] theorem setRes_hpc (v : Word) : (setRes v s).hpc = s.hpc := rfl
@[simp] theorem setRes_ctx (v : Word) : (setRes v s).ctx = s.ctx := rfl
@[simp] theorem setRes_gie (v : Word) : (setRes v s).gie = s.gie := rfl
@[simp] theorem setRes_timers (v : Word) : (setRes v s).timers = s.timers := rfl
@[simp] theorem setRes_stepper (v : Word) : (setRes v s).stepper = s.stepper := rfl
@[simp] theorem setRes_mux (v : Word) : (setRes v s).mux = s.mux := rfl
@[simp] theorem setRes_servo (v : Word) : (setRes v s).servo = s.servo := rfl
@[simp] theorem setRes_adv (v : Word) : (setRes v s).adv = s.adv := rfl
@[simp] theorem setRes_usCnt (v : Word) : (setRes v s).usCnt = s.usCnt := rfl
@[simp] theorem setRes_waitf (v : Word) : (setRes v s).waitf = s.waitf := rfl
@[simp] theorem setRes_fault (v : Word) : (setRes v s).fault = s.fault := rfl
@[simp] theorem setRes_faultInfo (v : Word) : (setRes v s).faultInfo = s.faultInfo := rfl
@[simp] theorem setRes_trace (v : Word) : (setRes v s).trace = s.trace := rfl

@[simp] theorem advanceHost_params : (advanceHost s).params = s.params := rfl
@[simp] theorem advanceHost_env : (advanceHost s).env = s.env := rfl
@[simp] theorem advanceHost_res : (advanceHost s).res = s.res := rfl
@[simp] theorem advanceHost_hpc : (advanceHost s).hpc = s.hpc + 1 := rfl
@[simp] theorem advanceHost_ctx : (advanceHost s).ctx = s.ctx := rfl
@[simp] theorem advanceHost_gie : (advanceHost s).gie = s.gie := rfl
@[simp] theorem advanceHost_timers : (advanceHost s).timers = s.timers := rfl
@[simp] theorem advanceHost_stepper : (advanceHost s).stepper = s.stepper := rfl
@[simp] theorem advanceHost_mux : (advanceHost s).mux = s.mux := rfl
@[simp] theorem advanceHost_servo : (advanceHost s).servo = s.servo := rfl
@[simp] theorem advanceHost_adv : (advanceHost s).adv = s.adv := rfl
@[simp] theorem advanceHost_usCnt : (advanceHost s).usCnt = s.usCnt := rfl
@[simp] theorem advanceHost_waitf : (advanceHost s).waitf = s.waitf := rfl
@[simp] theorem advanceHost_fault : (advanceHost s).fault = s.fault := rfl
@[simp] theorem advanceHost_faultInfo : (advanceHost s).faultInfo = s.faultInfo := rfl
@[simp] theorem advanceHost_trace : (advanceHost s).trace = s.trace := rfl

@[simp] theorem setGie_params (b : Bool) : (setGie b s).params = s.params := rfl
@[simp] theorem setGie_env (b : Bool) : (setGie b s).env = s.env := rfl
@[simp] theorem setGie_res (b : Bool) : (setGie b s).res = s.res := rfl
@[simp] theorem setGie_hpc (b : Bool) : (setGie b s).hpc = s.hpc := rfl
@[simp] theorem setGie_ctx (b : Bool) : (setGie b s).ctx = s.ctx := rfl
@[simp] theorem setGie_gie (b : Bool) : (setGie b s).gie = b := rfl
@[simp] theorem setGie_timers (b : Bool) : (setGie b s).timers = s.timers := rfl
@[simp] theorem setGie_stepper (b : Bool) : (setGie b s).stepper = s.stepper := rfl
@[simp] theorem setGie_mux (b : Bool) : (setGie b s).mux = s.mux := rfl
@[simp] theorem setGie_servo (b : Bool) : (setGie b s).servo = s.servo := rfl
@[simp] theorem setGie_adv (b : Bool) : (setGie b s).adv = s.adv := rfl
@[simp] theorem setGie_usCnt (b : Bool) : (setGie b s).usCnt = s.usCnt := rfl
@[simp] theorem setGie_waitf (b : Bool) : (setGie b s).waitf = s.waitf := rfl
@[simp] theorem setGie_fault (b : Bool) : (setGie b s).fault = s.fault := rfl
@[simp] theorem setGie_faultInfo (b : Bool) : (setGie b s).faultInfo = s.faultInfo := rfl
@[simp] theorem setGie_trace (b : Bool) : (setGie b s).trace = s.trace := rfl

@[simp] theorem setTimer_params (t : Timer) (c : TimerChan) : (setTimer t c s).params = s.params := rfl
@[simp] theorem setTimer_env (t : Timer) (c : TimerChan) : (setTimer t c s).env = s.env := rfl
@[simp] theorem setTimer_res (t : Timer) (c : TimerChan) : (setTimer t c s).res = s.res := rfl
@[simp] theorem setTimer_hpc (t : Timer) (c : TimerChan) : (setTimer t c s).hpc = s.hpc := rfl
@[simp] theorem setTimer_ctx (t : Timer) (c : TimerChan) : (setTimer t c s).ctx = s.ctx := rfl
@[simp] theorem setTimer_gie (t : Timer) (c : TimerChan) : (setTimer t c s).gie = s.gie := rfl
@[simp] theorem setTimer_timers (t : Timer) (c : TimerChan) : (setTimer t c s).timers = s.timers.set t c := rfl
@[simp] theorem setTimer_stepper (t : Timer) (c : TimerChan) : (setTimer t c s).stepper = s.stepper := rfl
@[simp] theorem setTimer_mux (t : Timer) (c : TimerChan) : (setTimer t c s).mux = s.mux := rfl
@[simp] theorem setTimer_servo (t : Timer) (c : TimerChan) : (setTimer t c s).servo = s.servo := rfl
@[simp] theorem setTimer_adv (t : Timer) (c : TimerChan) : (setTimer t c s).adv = s.adv := rfl
@[simp] theorem setTimer_usCnt (t : Timer) (c : TimerChan) : (setTimer t c s).usCnt = s.usCnt := rfl
@[simp] theorem setTimer_waitf (t : Timer) (c : TimerChan) : (setTimer t c s).waitf = s.waitf := rfl
@[simp] theorem setTimer_fault (t : Timer) (c : TimerChan) : (setTimer t c s).fault = s.fault := rfl
@[simp] theorem setTimer_faultInfo (t : Timer) (c : TimerChan) : (setTimer t c s).faultInfo = s.faultInfo := rfl
@[simp] theorem setTimer_trace (t : Timer) (c : TimerChan) : (setTimer t c s).trace = s.trace := rfl

@[simp] theorem emit_params (e : OutEvent) : (emit e s).params = s.params := rfl
@[simp] theorem emit_env (e : OutEvent) : (emit e s).env = s.env := rfl
@[simp] theorem emit_res (e : OutEvent) : (emit e s).res = s.res := rfl
@[simp] theorem emit_hpc (e : OutEvent) : (emit e s).hpc = s.hpc := rfl
@[simp] theorem emit_ctx (e : OutEvent) : (emit e s).ctx = s.ctx := rfl
@[simp] theorem emit_gie (e : OutEvent) : (emit e s).gie = s.gie := rfl
@[simp] theorem emit_timers (e : OutEvent) : (emit e s).timers = s.timers := rfl
@[simp] theorem emit_stepper (e : OutEvent) : (emit e s).stepper = s.stepper := rfl
@[simp] theorem emit_mux (e : OutEvent) : (emit e s).mux = s.mux := rfl
@[simp] theorem emit_servo (e : OutEvent) : (emit e s).servo = s.servo := rfl
@[simp] theorem emit_adv (e : OutEvent) : (emit e s).adv = s.adv := rfl
@[simp] theorem emit_usCnt (e : OutEvent) : (emit e s).usCnt = s.usCnt := rfl
@[simp] theorem emit_waitf (e : OutEvent) : (emit e s).waitf = s.waitf := rfl
@[simp] theorem emit_fault (e : OutEvent) : (emit e s).fault = s.fault := rfl
@[simp] theorem emit_faultInfo (e : OutEvent) : (emit e s).faultInfo = s.faultInfo := rfl
@[simp] theorem emit_trace (e : OutEvent) : (emit e s).trace = s.trace ++ [e] := rfl

@[simp] theorem setWait_params (r : Option WaitRec) : (setWait r s).params = s.params := rfl
@[simp] theorem setWait_env (r : Option WaitRec) : (setWait r s).env = s.env := rfl
@[simp] theorem setWait_res (r : Option WaitRec) : (setWait r s).res = s.res := rfl
@[simp] theorem setWait_hpc (r : Option WaitRec) : (setWait r s).hpc = s.hpc := rfl
@[simp] theorem setWait_ctx (r : Option WaitRec) : (setWait r s).ctx = s.ctx := rfl
@[simp] theorem setWait_gie (r : Option WaitRec) : (setWait r s).gie = s.gie := rfl
@[simp] theorem setWait_timers (r : Option WaitRec) : (setWait r s).timers = s.timers := rfl
@[simp] theorem setWait_stepper (r : Option WaitRec) : (setWait r s).stepper = s.stepper := rfl
@[simp] theorem setWait_mux (r : Option WaitRec) : (setWait r s).mux = s.mux := rfl
@[simp] theorem setWait_servo (r : Option WaitRec) : (setWait r s).servo = s.servo := rfl
@[simp] theorem setWait_adv (r : Option WaitRec) : (setWait r s).adv = s.adv := rfl
@[simp] theorem setWait_usCnt (r : Option WaitRec) : (setWait r s).usCnt = s.usCnt := rfl
@[simp] theorem setWait_waitf (r : Option WaitRec) : (setWait r s).waitf = r := rfl
@[simp] theorem setWait_fault (r : Option WaitRec) : (setWait r s).fault = s.fault := rfl
@[simp] theorem setWait_faultInfo (r : Option WaitRec) : (setWait r s).faultInfo = s.faultInfo := rfl
@[simp] theorem setWait_trace (r : Option WaitRec) : (setWait r s).trace = s.trace := rfl

@[simp] theorem setStepper_params (c : Stepper) : (setStepper c s).params = s.params := rfl
@[simp] theorem setStepper_env (c : Stepper) : (setStepper c s).env = s.env := rfl
@[simp] theorem setStepper_res (c : Stepper) : (setStepper c s).res = s.res := rfl
@[simp] theorem setStepper_hpc (c : Stepper) : (setStepper c s).hpc = s.hpc := rfl
@[simp] theorem setStepper_ctx (c : Stepper) : (setStepper c s).ctx = s.ctx := rfl
@[simp] theorem setStepper_gie (c : Stepper) : (setStepper c s).gie = s.gie := rfl
@[simp] theorem setStepper_timers (c : Stepper) : (setStepper c s).timers = s.timers := rfl
@[simp] theorem setStepper_stepper (c : Stepper) : (setStepper c s).stepper = c := rfl
@[simp] theorem setStepper_mux (c : Stepper) : (setStepper c s).mux = s.mux := rfl
@[simp] theorem setStepper_servo (c : Stepper) : (setStepper c s).servo = s.servo := rfl
@[simp] theorem setStepper_adv (c : Stepper) : (setStepper c s).adv = s.adv := rfl
@[simp] theorem setStepper_usCnt (c : Stepper) : (setStepper c s).usCnt = s.usCnt := rfl
@[simp] theorem setStepper_waitf (c : Stepper) : (setStepper c s).waitf = s.waitf := rfl
@[simp] theorem setStepper_fault (c : Stepper) : (setStepper c s).fault = s.fault := rfl
@[simp] theorem setStepper_faultInfo (c : Stepper) : (setStepper c s).faultInfo = s.faultInfo := rfl
@[simp] theorem setStepper_trace (c : Stepper) : (setStepper c s).trace = s.trace := rfl

@[simp] theorem setMux_params (c : Mux) : (setMux c s).params = s.params := rfl
@[simp] theorem setMux_env (c : Mux) : (setMux c s).env = s.env := rfl
@[simp] theorem setMux_res (c : Mux) : (setMux c s).res = s.res := rfl
@[simp] theorem setMux_hpc (c : Mux) : (setMux c s).hpc = s.hpc := rfl
@[simp] theorem setMux_ctx (c : Mux) : (setMux c s).ctx = s.ctx := rfl
@[simp] theorem setMux_gie (c : Mux) : (setMux c s).gie = s.gie := rfl
@[simp] theorem setMux_timers (c : Mux) : (setMux c s).timers = s.timers := rfl
@[simp] theorem setMux_stepper (c : Mux) : (setMux c s).stepper = s.stepper := rfl
@[simp] theorem setMux_mux (c : Mux) : (setMux c s).mux = c := rfl
@[simp] theorem setMux_servo (c : Mux) : (setMux c s).servo = s.servo := rfl
@[simp] theorem setMux_adv (c : Mux) : (setMux c s).adv = s.adv := rfl
@[simp] theorem setMux_usCnt (c : Mux) : (setMux c s).usCnt = s.usCnt := rfl
@[simp] theorem setMux_waitf (c : Mux) : (setMux c s).waitf = s.waitf := rfl
@[simp] theorem setMux_fault (c : Mux) : (setMux c s).fault = s.fault := rfl
@[simp] theorem setMux_faultInfo (c : Mux) : (setMux c s).faultInfo = s.faultInfo := rfl
@[simp] theorem setMux_trace (c : Mux) : (setMux c s).trace = s.trace := rfl

@[simp] theorem setServo_params (c : Servo) : (setServo c s).params = s.params := rfl
@[simp] theorem setServo_env (c : Servo) : (setServo c s).env = s.env := rfl
@[simp] theorem setServo_res (c : Servo) : (setServo c s).res = s.res := rfl
@[simp] theorem setServo_hpc (c : Servo) : (setServo c s).hpc = s.hpc := rfl
@[simp] theorem setServo_ctx (c : Servo) : (setServo c s).ctx = s.ctx := rfl
@[simp] theorem setServo_gie (c : Servo) : (setServo c s).gie = s.gie := rfl
@[simp] theorem setServo_timers (c : Servo) : (setServo c s).timers = s.timers := rfl
@[simp] theorem setServo_stepper (c : Servo) : (setServo c s).stepper = s.stepper := rfl
@[simp] theorem setServo_mux (c : Servo) : (setServo c s).mux = s.mux := rfl
@[simp] theorem setServo_servo (c : Servo) : (setServo c s).servo = c := rfl
@[simp] theorem setServo_adv (c : Servo) : (setServo c s).adv = s.adv := rfl
@[simp] theorem setServo_usCnt (c : Servo) : (setServo c s).usCnt = s.usCnt := rfl
@[simp] theorem setServo_waitf (c : Servo) : (setServo c s).waitf = s.waitf := rfl
@[simp] theorem setServo_fault (c : Servo) : (setServo c s).fault = s.fault := rfl
@[simp] theorem setServo_faultInfo (c : Servo) : (setServo c s).faultInfo = s.faultInfo := rfl
@[simp] theorem setServo_trace (c : Servo) : (setServo c s).trace = s.trace := rfl

@[simp] theorem setAdv_params (c : Advance) : (setAdv c s).params = s.params := rfl
@[simp] theorem setAdv_env (c : Advance) : (setAdv c s).env = s.env := rfl
@[simp] theorem setAdv_res (c : Advance) : (setAdv c s).res = s.res := rfl
@[simp] theorem setAdv_hpc (c : Advance) : (setAdv c s).hpc = s.hpc := rfl
@[simp] theorem setAdv_ctx (c : Advance) : (setAdv c s).ctx = s.ctx := rfl
@[simp] theorem setAdv_gie (c : Advance) : (setAdv c s).gie = s.gie := rfl
@[simp] theorem setAdv_timers (c : Advance) : (setAdv c s).timers = s.timers := rfl
@[simp] theorem setAdv_stepper (c : Advance) : (setAdv c s).stepper = s.stepper := rfl
@[simp] theorem setAdv_mux (c : Advance) : (setAdv c s).mux = s.mux := rfl
@[simp] theorem setAdv_servo (c : Advance) : (setAdv c s).servo = s.servo := rfl
@[simp] theorem setAdv_adv (c : Advance) : (setAdv c s).adv = c := rfl
@[simp] theorem setAdv_usCnt (c : Advance) : (setAdv c s).usCnt = s.usCnt := rfl
@[simp] theorem setAdv_waitf (c : Advance) : (setAdv c s).waitf = s.waitf := rfl
@[simp] theorem setAdv_fault (c : Advance) : (setAdv c s).fault = s.fault := rfl
@[simp] theorem setAdv_faultInfo (c : Advance) : (setAdv c s).faultInfo = s.faultInfo := rfl
@[simp] theorem setAdv_trace (c : Advance) : (setAdv c s).trace = s.trace := rfl

@[simp] theorem setCtx_params (c : List CtxEntry) : (setCtx c s).params = s.params := rfl
@[simp] theorem setCtx_env (c : List CtxEntry) : (setCtx c s).env = s.env := rfl
@[simp] theorem setCtx_res (c : List CtxEntry) : (setCtx c s).res = s.res := rfl
@[simp] theorem setCtx_hpc (c : List CtxEntry) : (setCtx c s).hpc = s.hpc := rfl
@[simp] theorem setCtx_ctx (c : List CtxEntry) : (setCtx c s).ctx = c := rfl
@[simp] theorem setCtx_gie (c : List CtxEntry) : (setCtx c s).gie = s.gie := rfl
@[simp] theorem setCtx_timers (c : List CtxEntry) : (setCtx c s).timers = s.timers := rfl
@[simp] theorem setCtx_stepper (c : List CtxEntry) : (setCtx c s).stepper = s.stepper := rfl
@[simp] theorem setCtx_mux (c : List CtxEntry) : (setCtx c s).mux = s.mux := rfl
@[simp] theorem setCtx_servo (c : List CtxEntry) : (setCtx c s).servo = s.servo := rfl
@[simp] theorem setCtx_adv (c : List CtxEntry) : (setCtx c s).adv = s.adv := rfl
@[simp] theorem setCtx_usCnt (c : List CtxEntry) : (setCtx c s).usCnt = s.usCnt := rfl
@[simp] theorem setCtx_waitf (c : List CtxEntry) : (setCtx c s).waitf = s.waitf := rfl
@[simp] theorem setCtx_fault (c : List CtxEntry) : (setCtx c s).fault = s.fault := rfl
@[simp] theorem setCtx_faultInfo (c : List CtxEntry) : (setCtx c s).faultInfo = s.faultInfo := rfl
@[simp] theorem setCtx_trace (c : List CtxEntry) : (setCtx c s).trace = s.trace := rfl

@[simp] theorem setEnv_params (e : Env) : (setEnv e s).params = s.params := rfl
@[simp] theorem setEnv_env (e : Env) : (setEnv e s).env = e := rfl
@[simp] theorem setEnv_res (e : Env) : (setEnv e s).res = s.res := rfl
@[simp] theorem setEnv_hpc (e : Env) : (setEnv e s).hpc = s.hpc := rfl
@[simp] theorem setEnv_ctx (e : Env) : (setEnv e s).ctx = s.ctx := rfl
@[simp] theorem setEnv_gie (e : Env) : (setEnv e s).gie = s.gie := rfl
@[simp] theorem setEnv_timers (e : Env) : (setEnv e s).timers = s.timers := rfl
@[simp] theorem setEnv_stepper (e : Env) : (setEnv e s).stepper = s.stepper := rfl
@[simp] theorem setEnv_mux (e : Env) : (setEnv e s).mux = s.mux := rfl
@[simp] theorem setEnv_servo (e : Env) : (setEnv e s).servo = s.servo := rfl
@[simp] theorem setEnv_adv (e : Env) : (setEnv e s).adv = s.adv := rfl
@[simp] theorem setEnv_usCnt (e : Env) : (setEnv e s).usCnt = s.usCnt := rfl
@[simp] theorem setEnv_waitf (e : Env) : (setEnv e s).waitf = s.waitf := rfl
@[simp] theorem setEnv_fault (e : Env) : (setEnv e s).fault = s.fault := rfl
@[simp] theorem setEnv_faultInfo (e : Env) : (setEnv e s).faultInfo = s.faultInfo := rfl
@[simp] theorem setEnv_trace (e : Env) : (setEnv e s).trace = s.trace := rfl

@[simp] theorem raiseFault_params (f : FaultCode) (info : Word) : (raiseFault f info s).params = s.params := rfl
@[simp] theorem raiseFault_env (f : FaultCode) (info : Word) : (raiseFault f info s).env = s.env := rfl
@[simp] theorem raiseFault_res (f : FaultCode) (info : Word) : (raiseFault f info s).res = s.res := rfl
@[simp] theorem raiseFault_hpc (f : FaultCode) (info : Word) : (raiseFault f info s).hpc = s.hpc := rfl
@[simp] theorem raiseFault_ctx (f : FaultCode) (info : Word) : (raiseFault f info s).ctx = s.ctx := rfl
@[simp] theorem raiseFault_gie (f : FaultCode) (info : Word) : (raiseFault f info s).gie = s.gie := rfl
@[simp] theorem raiseFault_timers (f : FaultCode) (info : Word) : (raiseFault f info s).timers = s.timers := rfl
@[simp] theorem raiseFault_stepper (f : FaultCode) (info : Word) : (raiseFault f info s).stepper = s.stepper := rfl
@[simp] theorem raiseFault_mux (f : FaultCode) (info : Word) : (raiseFault f info s).mux = s.mux := rfl
@[simp] theorem raiseFault_servo (f : FaultCode) (info : Word) : (raiseFault f info s).servo = s.servo := rfl
@[simp] theorem raiseFault_adv (f : FaultCode) (info : Word) : (raiseFault f info s).adv = s.adv := rfl
@[simp] theorem raiseFault_usCnt (f : FaultCode) (info : Word) : (raiseFault f info s).usCnt = s.usCnt := rfl
@[simp] theorem raiseFault_waitf (f : FaultCode) (info : Word) : (raiseFault f info s).waitf = s.waitf := rfl
@[simp] theorem raiseFault_fault (f : FaultCode) (info : Word) : (raiseFault f info s).fault = some f := rfl
@[simp] theorem raiseFault_faultInfo (f : FaultCode) (info : Word) : (raiseFault f info s).faultInfo = info := rfl
@[simp] theorem raiseFault_trace (f : FaultCode) (info : Word) : (raiseFault f info s).trace = s.trace := rfl

@[simp] theorem takeInterrupt_params (t : Timer) : (takeInterrupt t s).params = s.params := rfl
@[simp] theorem takeInterrupt_env (t : Timer) : (takeInterrupt t s).env = s.env := rfl
@[simp] theorem takeInterrupt_res (t : Timer) : (takeInterrupt t s).res = s.res := rfl
@[simp] theorem takeInterrupt_hpc (t : Timer) : (takeInterrupt t s).hpc = s.hpc := rfl
@[simp] theorem takeInterrupt_ctx (t : Timer) : (takeInterrupt t s).ctx = ⟨t, .entered⟩ :: s.ctx := rfl
@[simp] theorem takeInterrupt_gie (t : Timer) : (takeInterrupt t s).gie = false := rfl
@[simp] theorem takeInterrupt_timers (t : Timer) : (takeInterrupt t s).timers = s.timers.set t { s.timers.get t with pend := false } := rfl
@[simp] theorem takeInterrupt_stepper (t : Timer) : (takeInterrupt t s).stepper = s.stepper := rfl
@[simp] theorem takeInterrupt_mux (t : Timer) : (takeInterrupt t s).mux = s.mux := rfl
@[simp] theorem takeInterrupt_servo (t : Timer) : (takeInterrupt t s).servo = s.servo := rfl
@[simp] theorem takeInterrupt_adv (t : Timer) : (takeInterrupt t s).adv = s.adv := rfl
@[simp] theorem takeInterrupt_usCnt (t : Timer) : (takeInterrupt t s).usCnt = s.usCnt := rfl
@[simp] theorem takeInterrupt_waitf (t : Timer) : (takeInterrupt t s).waitf = s.waitf := rfl
@[simp] theorem takeInterrupt_fault (t : Timer) : (takeInterrupt t s).fault = s.fault := rfl
@[simp] theorem takeInterrupt_faultInfo (t : Timer) : (takeInterrupt t s).faultInfo = s.faultInfo := rfl
@[simp] theorem takeInterrupt_trace (t : Timer) : (takeInterrupt t s).trace = s.trace := rfl

@[simp] theorem returnFromHandler_params : (returnFromHandler s).params = s.params := rfl
@[simp] theorem returnFromHandler_env : (returnFromHandler s).env = s.env := rfl
@[simp] theorem returnFromHandler_res : (returnFromHandler s).res = s.res := rfl
@[simp] theorem returnFromHandler_hpc : (returnFromHandler s).hpc = s.hpc := rfl
@[simp] theorem returnFromHandler_ctx : (returnFromHandler s).ctx = s.ctx.tail := rfl
@[simp] theorem returnFromHandler_gie : (returnFromHandler s).gie = true := rfl
@[simp] theorem returnFromHandler_timers : (returnFromHandler s).timers = s.timers := rfl
@[simp] theorem returnFromHandler_stepper : (returnFromHandler s).stepper = s.stepper := rfl
@[simp] theorem returnFromHandler_mux : (returnFromHandler s).mux = s.mux := rfl
@[simp] theorem returnFromHandler_servo : (returnFromHandler s).servo = s.servo := rfl
@[simp] theorem returnFromHandler_adv : (returnFromHandler s).adv = s.adv := rfl
@[simp] theorem returnFromHandler_usCnt : (returnFromHandler s).usCnt = s.usCnt := rfl
@[simp] theorem returnFromHandler_waitf : (returnFromHandler s).waitf = s.waitf := rfl
@[simp] theorem returnFromHandler_fault : (returnFromHandler s).fault = s.fault := rfl
@[simp] theorem returnFromHandler_faultInfo : (returnFromHandler s).faultInfo = s.faultInfo := rfl
@[simp] theorem returnFromHandler_trace : (returnFromHandler s).trace = s.trace := rfl

@[simp] theorem enterTail_params : (enterTail s).params = s.params := rfl
@[simp] theorem enterTail_env : (enterTail s).env = s.env := rfl
@[simp] theorem enterTail_res : (enterTail s).res = s.res := rfl
@[simp] theorem enterTail_hpc : (enterTail s).hpc = s.hpc := rfl
@[simp] theorem enterTail_ctx : (enterTail s).ctx = tailTop s.ctx := rfl
@[simp] theorem enterTail_gie : (enterTail s).gie = s.gie := rfl
@[simp] theorem enterTail_timers : (enterTail s).timers = s.timers := rfl
@[simp] theorem enterTail_stepper : (enterTail s).stepper = s.stepper := rfl
@[simp] theorem enterTail_mux : (enterTail s).mux = s.mux := rfl
@[simp] theorem enterTail_servo : (enterTail s).servo = s.servo := rfl
@[simp] theorem enterTail_adv : (enterTail s).adv = s.adv := rfl
@[simp] theorem enterTail_usCnt : (enterTail s).usCnt = s.usCnt := rfl
@[simp] theorem enterTail_waitf : (enterTail s).waitf = s.waitf := rfl
@[simp] theorem enterTail_fault : (enterTail s).fault = s.fault := rfl
@[simp] theorem enterTail_faultInfo : (enterTail s).faultInfo = s.faultInfo := rfl
@[simp] theorem enterTail_trace : (enterTail s).trace = s.trace := rfl

@[simp] theorem countUp_params : (countUp s).params = s.params := rfl
@[simp] theorem countUp_env : (countUp s).env = s.env := rfl
@[simp] theorem countUp_res : (countUp s).res = s.res := rfl
@[simp] theorem countUp_hpc : (countUp s).hpc = s.hpc := rfl
@[simp] theorem countUp_ctx : (countUp s).ctx = s.ctx := rfl
@[simp] theorem countUp_gie : (countUp s).gie = s.gie := rfl
@[simp] theorem countUp_timers : (countUp s).timers = s.timers := rfl
@[simp] theorem countUp_stepper : (countUp s).stepper = s.stepper := rfl
@[simp] theorem countUp_mux : (countUp s).mux = s.mux := rfl
@[simp] theorem countUp_servo : (countUp s).servo = s.servo := rfl
@[simp] theorem countUp_adv : (countUp s).adv = s.adv := rfl
@[simp] theorem countUp_usCnt : (countUp s).usCnt = (s.usCnt + 1) % 2 ^ s.params.usBits := rfl
@[simp] theorem countUp_waitf : (countUp s).waitf = s.waitf := rfl
@[simp] theorem countUp_fault : (countUp s).fault = s.fault := rfl
@[simp] theorem countUp_faultInfo : (countUp s).faultInfo = s.faultInfo := rfl
@[simp] theorem countUp_trace : (countUp s).trace = s.trace := rfl

end Machine

end Sys2Proof
end

