-- ==== Sys2Proof/Laws/Ops.lean ====
section
/-! SUPPORT. Laws/Ops.lean: what each shared operation can do, said once: the two forms of a step, REARM_INT, the
channel operands, interrupt selection, and the CPU's choice. Later proofs cite these and do not unfold them. -/

namespace Sys2Proof.Machine

variable {s t : State}

/-! The two forms of a step. -/

theorem whenEnabled_next {b : Bool} {r : State} :
    whenEnabled b s r = .next t ↔ s.fault = none ∧ b = true ∧ t = r := by
  unfold whenEnabled
  cases s.fault <;> cases b <;> simp [eq_comm]

theorem whenEnabled_halted {b : Bool} {r : State} {f : FaultCode} (h : s.fault = some f) :
    whenEnabled b s r = .fault (.halted f) := by
  simp [whenEnabled, h]

theorem cpuChoice_running (h : cpuChoice s ≠ .noStep) : s.fault = none := by
  unfold cpuChoice at h
  split at h
  · exact absurd rfl h
  · assumption

theorem runCommand_next {i : Instr} {b : Except FaultCode State} :
    runCommand i s b = .next t ↔ cpuChoice s = .main ∧ t = settle s (encode i) b := by
  rw [runCommand, whenEnabled_next]
  constructor
  · rintro ⟨-, h, rfl⟩
    exact ⟨by simpa using h, rfl⟩
  · rintro ⟨h, rfl⟩
    exact ⟨cpuChoice_running (by simp [h]), by simp [h], rfl⟩

theorem runEvent_next {i : Instr} {info : Word} {b : Except FaultCode State} :
    runEvent i info s b = .next t ↔ cpuChoice s = .event i ∧ t = settle s info b := by
  rw [runEvent, whenEnabled_next]
  constructor
  · rintro ⟨-, h, rfl⟩
    exact ⟨by simpa using h, rfl⟩
  · rintro ⟨h, rfl⟩
    exact ⟨cpuChoice_running (by simp [h]), by simp [h], rfl⟩

@[simp] theorem settle_ok {info : Word} {u : State} : settle s info (.ok u) = u := rfl

@[simp] theorem settle_error {info : Word} {f : FaultCode} :
    settle s info (.error f) = raiseFault f info s := rfl

/-- A settled step either is its body's state or is the raise (R301). -/
theorem settle_cases {info : Word} {b : Except FaultCode State} (h : t = settle s info b) :
    b = .ok t ∨ ∃ f, b = .error f ∧ t = raiseFault f info s := by
  subst h
  cases b with
  | ok u => exact .inl rfl
  | error f => exact .inr ⟨f, rfl, rfl⟩

/-! REARM_INT (R103). -/

theorem rearmInt_ok {tm : Timer} {n : Nat} :
    rearmInt tm n s = .ok t ↔
      n ≤ reloadMax s.params ∧ t = setTimer tm { s.timers.get tm with rld := max 1 n } s := by
  unfold rearmInt
  split
  · simp; omega
  · simp [eq_comm]; omega

theorem rearmInt_error {tm : Timer} {n : Nat} {f : FaultCode} :
    rearmInt tm n s = .error f ↔ reloadMax s.params < n ∧ f = .operandRange := by
  unfold rearmInt
  split <;> simp_all [eq_comm]

/-! Channel operands (R9, R100). -/

@[simp] theorem timerOf_timerNumber (tm : Timer) : timerOf (timerNumber tm) = some tm := by
  cases tm <;> rfl

theorem timerOf_eq_some {ch : Byte} {tm : Timer} : timerOf ch = some tm ↔ ch = timerNumber tm := by
  constructor
  · intro h
    unfold timerOf at h
    split at h <;> simp_all [timerNumber] <;> subst h <;> rfl
  · rintro rfl
    exact timerOf_timerNumber tm

theorem timerOf_eq_none {ch : Byte} : timerOf ch = none ↔ ∀ tm, ch ≠ timerNumber tm := by
  constructor
  · rintro h tm rfl
    simp at h
  · intro h
    cases hc : timerOf ch with
    | none => rfl
    | some tm => exact absurd (timerOf_eq_some.mp hc) (h tm)

theorem timerNumber_injective {a b : Timer} (h : timerNumber a = timerNumber b) : a = b := by
  cases a <;> cases b <;> first | rfl | exact absurd h (by decide)

theorem presentTimer_eq_some {p : Params} {ch : Byte} {tm : Timer} :
    presentTimer p ch = some tm ↔ ch = timerNumber tm ∧ present p tm = true := by
  unfold presentTimer
  cases h : timerOf ch with
  | none =>
    have := timerOf_eq_none.mp h tm
    simp [this]
  | some u =>
    have hu := timerOf_eq_some.mp h
    subst hu
    by_cases hp : present p u = true
    · simp only [hp, if_true, Option.some.injEq]
      constructor
      · rintro rfl
        exact ⟨rfl, hp⟩
      · rintro ⟨e, -⟩
        exact timerNumber_injective e
    · simp only [hp]
      constructor
      · simp
      · rintro ⟨e, h2⟩
        rw [timerNumber_injective e] at hp
        exact absurd h2 hp

/-! Interrupt selection (R304, R305) and the CPU's choice (R322). -/

theorem moreUrgent_ready {best : Option Timer} {u tm : Timer} (h : moreUrgent s best u = some tm) :
    best = some tm ∨ (tm = u ∧ sourceReady s u = true) := by
  unfold moreUrgent at h
  split at h
  · split at h
    · exact .inr ⟨by simpa using h.symm, ‹_›⟩
    · split at h
      · exact .inr ⟨by simpa using h.symm, ‹_›⟩
      · exact .inl h
  · exact .inl h

theorem moreUrgent_none {best : Option Timer} {u : Timer} :
    moreUrgent s best u = none ↔ best = none ∧ sourceReady s u = false := by
  unfold moreUrgent
  split
  · split
    · simp_all
    · split <;> simp_all
  · simp_all

/-- The selected source can be taken (R304). -/
theorem selectSource_ready {tm : Timer} (h : selectSource s = some tm) : sourceReady s tm = true := by
  unfold selectSource at h
  rcases moreUrgent_ready h with h | ⟨rfl, h'⟩
  · rcases moreUrgent_ready h with h | ⟨rfl, h'⟩
    · rcases moreUrgent_ready h with h | ⟨rfl, h'⟩
      · rcases moreUrgent_ready h with h | ⟨rfl, h'⟩
        · cases h
        · exact h'
      · exact h'
    · exact h'
  · exact h'

theorem selectSource_none : selectSource s = none ↔ ∀ tm, sourceReady s tm = false := by
  unfold selectSource
  simp only [moreUrgent_none, true_and]
  constructor
  · rintro ⟨⟨⟨h1, h2⟩, h3⟩, h4⟩ tm
    cases tm <;> assumption
  · intro h
    exact ⟨⟨⟨h _, h _⟩, h _⟩, h _⟩

theorem dispatchable_none : dispatchable s = none ↔ (s.gie = true → ∀ tm, sourceReady s tm = false) := by
  unfold dispatchable
  cases s.gie <;> simp [selectSource_none]

theorem dispatchable_some {tm : Timer} :
    dispatchable s = some tm ↔ s.gie = true ∧ selectSource s = some tm := by
  unfold dispatchable
  cases s.gie <;> simp

theorem cpuChoice_main : cpuChoice s = .main ↔
    s.fault = none ∧ dispatchable s = none ∧ s.ctx = [] ∧ s.waitf = none := by
  unfold cpuChoice
  split
  · simp_all
  · split
    · simp_all
    · split
      · rename_i e _ h
        obtain ⟨tm, sg⟩ := e
        cases tm <;> cases sg <;> simp_all [handlerSegment]
      · cases hw : s.waitf <;> simp_all

theorem cpuChoice_dispatch {n : Byte} : cpuChoice s = .event (.dispatch n) ↔
    s.fault = none ∧ ∃ tm, dispatchable s = some tm ∧ n = timerNumber tm := by
  unfold cpuChoice
  split
  · simp_all
  · split
    · rename_i tm h
      simp only [CpuChoice.event.injEq, Instr.dispatch.injEq, true_and, *]
      constructor
      · rintro rfl
        exact ⟨tm, rfl, rfl⟩
      · rintro ⟨u, h', rfl⟩
        cases h'
        rfl
    · split
      · rename_i e _ h
        obtain ⟨tm, sg⟩ := e
        cases tm <;> cases sg <;> simp_all [handlerSegment]
      · split <;> simp_all

theorem cpuChoice_waitPoll : cpuChoice s = .event .waitPoll ↔
    s.fault = none ∧ dispatchable s = none ∧ s.ctx = [] ∧ s.waitf.isSome = true := by
  unfold cpuChoice
  split
  · simp_all
  · split
    · simp_all
    · split
      · rename_i e _ h
        obtain ⟨tm, sg⟩ := e
        cases tm <;> cases sg <;> simp_all [handlerSegment]
      · split <;> simp_all

/-- A handler segment is the CPU's step exactly when its entry is on top of CTX and no dispatch comes first. -/
theorem cpuChoice_handler {i : Instr} {e : CtxEntry} (hi : handlerSegment e = .event i)
    (hinj : ∀ e', handlerSegment e' = .event i → e' = e) (hd : ∀ n, i ≠ .dispatch n) (hw : i ≠ .waitPoll) :
    cpuChoice s = .event i ↔ s.fault = none ∧ dispatchable s = none ∧ ∃ rest, s.ctx = e :: rest := by
  unfold cpuChoice
  split
  · simp_all
  · split
    · rename_i tm h
      have := hd (timerNumber tm)
      simp [h, Ne.symm this]
    · split
      · rename_i e' rest h
        constructor
        · intro h'
          exact ⟨‹_›, ‹_›, rest, by rw [hinj e' h'] at h; exact h⟩
        · rintro ⟨-, -, rest', h'⟩
          rw [h] at h'
          cases h'
          exact hi
      · rename_i h
        split <;> simp [h, Ne.symm hw]

/-- Two entries that stand for the same segment are the same entry. -/
theorem handlerSegment_injective {e e' : CtxEntry} {i : Instr} (h : handlerSegment e = .event i)
    (h' : handlerSegment e' = .event i) : e' = e := by
  obtain ⟨tm, sg⟩ := e
  obtain ⟨tm', sg'⟩ := e'
  cases tm <;> cases sg <;> cases h <;> cases tm' <;> cases sg' <;> cases h' <;> rfl

theorem cpuChoice_fireStep : cpuChoice s = .event .fireStep ↔
    s.fault = none ∧ dispatchable s = none ∧ ∃ rest, s.ctx = ⟨.step, .entered⟩ :: rest :=
  cpuChoice_handler rfl (fun _ h => handlerSegment_injective rfl h) (fun _ h => nomatch h) (fun h => nomatch h)

theorem cpuChoice_stepTail : cpuChoice s = .event .stepTail ↔
    s.fault = none ∧ dispatchable s = none ∧ ∃ rest, s.ctx = ⟨.step, .tail⟩ :: rest :=
  cpuChoice_handler rfl (fun _ h => handlerSegment_injective rfl h) (fun _ h => nomatch h) (fun h => nomatch h)

theorem cpuChoice_firePwm : cpuChoice s = .event .firePwm ↔
    s.fault = none ∧ dispatchable s = none ∧ ∃ rest, s.ctx = ⟨.pwm, .entered⟩ :: rest :=
  cpuChoice_handler rfl (fun _ h => handlerSegment_injective rfl h) (fun _ h => nomatch h) (fun h => nomatch h)

theorem cpuChoice_fireServo : cpuChoice s = .event .fireServo ↔
    s.fault = none ∧ dispatchable s = none ∧ ∃ rest, s.ctx = ⟨.servo, .entered⟩ :: rest :=
  cpuChoice_handler rfl (fun _ h => handlerSegment_injective rfl h) (fun _ h => nomatch h) (fun h => nomatch h)

theorem cpuChoice_fireAdv : cpuChoice s = .event .fireAdv ↔
    s.fault = none ∧ dispatchable s = none ∧ ∃ rest, s.ctx = ⟨.adv, .entered⟩ :: rest :=
  cpuChoice_handler rfl (fun _ h => handlerSegment_injective rfl h) (fun _ h => nomatch h) (fun h => nomatch h)

/-- The outside world does not decide the CPU's choice. -/
@[simp] theorem cpuChoice_setEnv (e : Env) : cpuChoice (setEnv e s) = cpuChoice s := rfl

end Sys2Proof.Machine
end

