-- ==== Sys2Proof/Laws/Enabled.lean ====
section
/-! SUPPORT. Laws/Enabled.lean: the enabling conditions of Safety.lean, which are read off the cells, against the
CPU's choice (R322); what exec answers where they hold; and, once, what a step of the machine can do. -/

namespace Sys2Proof.Machine

variable {s t : State} {e : CtxEntry} {rest : List CtxEntry}

theorem noDispatch_iff : NoDispatch s ↔ dispatchable s = none := by
  rw [dispatchable_none]
  simp only [NoDispatch, sourceReady]
  refine forall_congr' fun _ => forall_congr' fun u => ?_
  cases present s.params u <;> cases (s.timers.get u).en <;> cases (s.timers.get u).ie <;>
    cases (s.timers.get u).pend <;> simp

theorem mainReady_iff : MainReady s ↔ cpuChoice s = .main := by
  rw [cpuChoice_main, MainReady, noDispatch_iff]

theorem pollReady_iff : PollReady s ↔ cpuChoice s = .event .waitPoll := by
  rw [cpuChoice_waitPoll, PollReady, noDispatch_iff]

theorem handlerReady_ctx (h : HandlerReady e rest s) : s.ctx = e :: rest := h.2.2

theorem handlerReady_step (h : HandlerReady ⟨.step, .entered⟩ rest s) : cpuChoice s = .event .fireStep :=
  cpuChoice_fireStep.mpr ⟨h.1, noDispatch_iff.mp h.2.1, rest, h.2.2⟩

theorem handlerReady_tail (h : HandlerReady ⟨.step, .tail⟩ rest s) : cpuChoice s = .event .stepTail :=
  cpuChoice_stepTail.mpr ⟨h.1, noDispatch_iff.mp h.2.1, rest, h.2.2⟩

theorem handlerReady_pwm (h : HandlerReady ⟨.pwm, .entered⟩ rest s) : cpuChoice s = .event .firePwm :=
  cpuChoice_firePwm.mpr ⟨h.1, noDispatch_iff.mp h.2.1, rest, h.2.2⟩

theorem handlerReady_servo (h : HandlerReady ⟨.servo, .entered⟩ rest s) : cpuChoice s = .event .fireServo :=
  cpuChoice_fireServo.mpr ⟨h.1, noDispatch_iff.mp h.2.1, rest, h.2.2⟩

theorem handlerReady_adv (h : HandlerReady ⟨.adv, .entered⟩ rest s) : cpuChoice s = .event .fireAdv :=
  cpuChoice_fireAdv.mpr ⟨h.1, noDispatch_iff.mp h.2.1, rest, h.2.2⟩

/-! What exec answers where an instruction is enabled. -/

theorem runCommand_ready (h : MainReady s) (i : Instr) (b : Except FaultCode State) :
    runCommand i s b = .next (settle s (encode i) b) :=
  runCommand_next.mpr ⟨mainReady_iff.mp h, rfl⟩

theorem runEvent_ready {i : Instr} (h : cpuChoice s = .event i) (info : Word) (b : Except FaultCode State) :
    runEvent i info s b = .next (settle s info b) :=
  runEvent_next.mpr ⟨h, rfl⟩

theorem exec_tick (u : Timer) : exec (.tick (timerNumber u)) s =
    whenEnabled (tickEnabled s u) s (setTimer u (tickChan (s.timers.get u)) s) := by
  simp [exec, execTick]

theorem exec_dispatch (u : Timer) : exec (.dispatch (timerNumber u)) s =
    runEvent (.dispatch (timerNumber u)) (eventInfo 0x82#8 (timerNumber u)) s (.ok (takeInterrupt u s)) := by
  simp [exec, execDispatch]

/-- A next state of an event on a channel: the channel operand names a timer. -/
theorem exec_tick_next {n : Byte} (h : exec (.tick n) s = .next t) :
    ∃ u, n = timerNumber u ∧ s.fault = none ∧ tickEnabled s u = true ∧
      t = setTimer u (tickChan (s.timers.get u)) s := by
  simp only [exec, execTick] at h
  split at h
  · simp [whenEnabled_next] at h
  · rename_i u hu
    rw [whenEnabled_next] at h
    exact ⟨u, timerOf_eq_some.mp hu, h⟩

theorem exec_dispatch_next {n : Byte} (h : exec (.dispatch n) s = .next t) :
    ∃ u, n = timerNumber u ∧ s.fault = none ∧ dispatchable s = some u ∧ t = takeInterrupt u s := by
  simp only [exec, execDispatch] at h
  split at h
  · simp [whenEnabled_next] at h
  · rename_i u hu
    rw [timerOf_eq_some] at hu
    subst hu
    rw [runEvent_next, cpuChoice_dispatch] at h
    obtain ⟨⟨hf, v, hv, hn⟩, ht⟩ := h
    obtain rfl := timerNumber_injective hn
    exact ⟨u, rfl, hf, hv, ht⟩

/-- What exec can do (R11, R301, R322): where it answers a next state, the block is not halted, and the instruction
was a command in main context, the CPU's event, or a tick. -/
theorem exec_enabled {i : Instr} (h : exec i s = .next t) :
    s.fault = none ∧ (cpuChoice s = .main ∨ cpuChoice s = .event i ∨ (∃ n, i = .tick n) ∨ i = .clkTick) := by
  cases i with
  | tick n =>
    obtain ⟨u, -, hf, -⟩ := exec_tick_next h
    exact ⟨hf, .inr (.inr (.inl ⟨n, rfl⟩))⟩
  | clkTick =>
    simp only [exec, execClkTick, whenEnabled_next] at h
    exact ⟨h.1, .inr (.inr (.inr rfl))⟩
  | dispatch n =>
    obtain ⟨u, rfl, hf, hd, -⟩ := exec_dispatch_next h
    exact ⟨hf, .inr (.inl (cpuChoice_dispatch.mpr ⟨hf, u, hd, rfl⟩))⟩
  | _ =>
    first
    | (have hc := (runCommand_next.mp h).1
       exact ⟨cpuChoice_running (by simp [hc]), .inl hc⟩)
    | (have hc := (runEvent_next.mp h).1
       exact ⟨cpuChoice_running (by simp [hc]), .inr (.inl hc)⟩)

/-- A host command that is the agent's turn is the word at hpc, in main context (R22, R322). -/
theorem agentTurn_command {a : Agent} {i : Instr} (h : agentTurn s a = .run i) (hi : i.isCommand = true) :
    cpuChoice s = .main ∧ ∃ w, s.env.prog[s.hpc]? = some w ∧ decodeCommand w = .ok i := by
  cases a with
  | timer u =>
    simp only [agentTurn] at h
    split at h <;> cases h
    cases hi
  | clock =>
    cases h
    cases hi
  | cpu =>
    simp only [agentTurn, cpuTurn] at h
    split at h
    · rename_i j hj
      cases h
      unfold cpuChoice at hj
      split at hj
      · cases hj
      · split at hj
        · cases hj
          cases hi
        · split at hj
          · rename_i e rest he
            obtain ⟨tm, sg⟩ := e
            cases tm <;> cases sg <;> cases hj <;> cases hi
          · split at hj <;> cases hj
            cases hi
    · rename_i hc
      simp only [hostTurn] at h
      split at h
      · cases h
      · rename_i w hw
        split at h <;> cases h
        exact ⟨hc, w, hw, ‹_›⟩
    · cases h

/-- A word that decodes to no command is taken only as the word at hpc, in main context (R84, R322). -/
theorem agentTurn_illegal {a : Agent} {w : Word} (h : agentTurn s a = .illegal w) :
    cpuChoice s = .main ∧ s.env.prog[s.hpc]? = some w := by
  cases a with
  | timer u =>
    simp only [agentTurn] at h
    split at h <;> cases h
  | clock => cases h
  | cpu =>
    simp only [agentTurn, cpuTurn] at h
    split at h
    · cases h
    · rename_i hc
      simp only [hostTurn] at h
      split at h
      · cases h
      · split at h <;> cases h
        exact ⟨hc, ‹_›⟩
    · cases h

/-- What a step can do (R3, R301, R322): the block is not halted, and with the turn taken it is the meaning of an
instruction (a host command only as the word at hpc), the raise of ILLEGAL_COMMAND for the word at hpc, or nothing
more. -/
theorem step_cases (h : step s = .next t) :
    s.fault = none ∧
    ((∃ i, exec i (setEnv (nextTurn s.env) s) = .next t ∧
        (i.isCommand = true → ∃ w, s.env.prog[s.hpc]? = some w ∧ decodeCommand w = .ok i)) ∨
     (∃ w, cpuChoice s = .main ∧ s.env.prog[s.hpc]? = some w ∧
       t = raiseFault .illegalCommand w (setEnv (nextTurn s.env) s)) ∨
     t = setEnv (nextTurn s.env) s) := by
  unfold step at h
  split at h
  · cases h
  · refine ⟨‹_›, ?_⟩
    split at h
    · rename_i i hi
      exact .inl ⟨i, h, fun hc => (agentTurn_command hi hc).2⟩
    · rename_i w hw
      cases h
      exact .inr (.inl ⟨w, (agentTurn_illegal hw).1, (agentTurn_illegal hw).2, rfl⟩)
    · cases h
      exact .inr (.inr rfl)

end Sys2Proof.Machine
end

