-- ==== Sys2Proof/Laws/Bodies.lean ====
section
/-! SUPPORT. Laws/Bodies.lean: what the body of each instruction can do, said once: if it does not raise, the checks
it passed and the state it leaves. -/

namespace Sys2Proof.Machine

variable {s u : State}

theorem presentTimer_eq_none {p : Params} {ch : Byte} (h : ∀ t, present p t = true → ch ≠ timerNumber t) :
    presentTimer p ch = none := by
  cases hc : presentTimer p ch with
  | none => rfl
  | some t =>
    rw [presentTimer_eq_some] at hc
    exact absurd hc.1 (h t hc.2)

/-! The timer manager. -/

theorem cfgSearch_none {base f m : Nat} {l : List (BitVec 32)} : cfgSearch base f m l = none ↔
    ∀ p ∈ l, ¬ (1 ≤ base / (p.toNat * f) ∧ base / (p.toNat * f) ≤ m) := by
  induction l with
  | nil => simp [cfgSearch]
  | cons a l ih =>
    unfold cfgSearch
    split
    · simp_all
    · simp only [ih, List.mem_cons, forall_eq_or_imp]
      tauto

theorem cfgSearch_first {base f m : Nat} {before after : List (BitVec 32)} {p : BitVec 32}
    (hb : ∀ q ∈ before, ¬ (1 ≤ base / (q.toNat * f) ∧ base / (q.toNat * f) ≤ m))
    (hp : 1 ≤ base / (p.toNat * f) ∧ base / (p.toNat * f) ≤ m) :
    cfgSearch base f m (before ++ p :: after) = some (p, base / (p.toNat * f)) := by
  induction before with
  | nil => simp [cfgSearch, hp]
  | cons a l ih =>
    simp only [List.cons_append, cfgSearch]
    rw [if_neg (hb a (by simp))]
    exact ih fun q hq => hb q (by simp [hq])

theorem cfgSearch_some {base f m r : Nat} {l : List (BitVec 32)} {p : BitVec 32}
    (h : cfgSearch base f m l = some (p, r)) : p ∈ l ∧ r = base / (p.toNat * f) ∧ 1 ≤ r ∧ r ≤ m := by
  induction l with
  | nil => simp [cfgSearch] at h
  | cons a l ih =>
    unfold cfgSearch at h
    split at h
    · simp at h
      obtain ⟨rfl, rfl⟩ := h
      simp
      omega
    · have := ih h
      simp [this]
      omega

theorem cfgBody_ok {t prio : Byte} {f : Imm} (h : cfgBody t prio f s = .ok u) :
    ∃ tm p r, t = timerNumber tm ∧ present s.params tm = true ∧ p ∈ s.params.prescalers ∧
      r = s.params.baseClock.get tm / (p.toNat * f.toNat) ∧ 1 ≤ r ∧ r ≤ reloadMax s.params ∧
      u = advanceHost (setTimer tm (configured p r (prio.setWidth 4)) s) := by
  unfold cfgBody at h
  split at h
  · cases h
  · rename_i tm htm
    split at h
    · cases h
    · split at h
      · cases h
      · split at h
        · cases h
        · rename_i p r hpr
          have hs := cfgSearch_some hpr
          rw [presentTimer_eq_some] at htm
          cases h
          exact ⟨tm, p, r, htm.1, htm.2, hs.1, hs.2.1, hs.2.2.1, hs.2.2.2, rfl⟩

theorem rearmBody_ok {t : Byte} {ticks : Imm} (h : rearmBody t ticks s = .ok u) :
    ∃ tm, t = timerNumber tm ∧ present s.params tm = true ∧ (s.timers.get tm).en = true ∧
      immNat ticks ≤ reloadMax s.params ∧
      u = advanceHost (setTimer tm { s.timers.get tm with rld := max 1 (immNat ticks) } s) := by
  unfold rearmBody at h
  split at h
  · cases h
  · rename_i tm htm
    rw [presentTimer_eq_some] at htm
    split at h
    · cases h
    · rename_i hen
      cases hr : rearmInt tm (immNat ticks) s with
      | error f => simp [hr, Except.map] at h
      | ok v =>
        simp only [hr, Except.map, Except.ok.injEq] at h
        rw [rearmInt_ok] at hr
        exact ⟨tm, htm.1, htm.2, by simpa using hen, hr.1, by rw [← h, hr.2]⟩

theorem tmrReadBody_ok {t sel : Byte} (h : tmrReadBody t sel s = .ok u) :
    ∃ tm v, t = timerNumber tm ∧ present s.params tm = true ∧ timerField (s.timers.get tm) sel = some v ∧
      u = advanceHost (setRes (fieldResult v) s) := by
  unfold tmrReadBody at h
  split at h
  · cases h
  · rename_i tm htm
    rw [presentTimer_eq_some] at htm
    split at h
    · cases h
    · rename_i v hv
      cases h
      exact ⟨tm, v, htm.1, htm.2, hv, rfl⟩

/-- One count of a channel that is below its reload stays below it (R106). -/
theorem tickChan_count {c : TimerChan} (h : 1 ≤ c.rld) : (tickChan c).count < c.rld := by
  unfold tickChan compareMatch
  by_cases hm : c.rld ≤ c.count + 1 <;> simp [hm] <;> omega

@[simp] theorem tickChan_psc (c : TimerChan) : (tickChan c).psc = c.psc := by unfold tickChan; split <;> rfl
@[simp] theorem tickChan_rld (c : TimerChan) : (tickChan c).rld = c.rld := by unfold tickChan; split <;> rfl
@[simp] theorem tickChan_en (c : TimerChan) : (tickChan c).en = c.en := by unfold tickChan; split <;> rfl
@[simp] theorem tickChan_ie (c : TimerChan) : (tickChan c).ie = c.ie := by unfold tickChan; split <;> rfl
@[simp] theorem tickChan_prio (c : TimerChan) : (tickChan c).prio = c.prio := by unfold tickChan; split <;> rfl

/-! The stepper pacer. -/

/-- FIRE_STEP's three ways (R131): the nested firing, the stepping branch, the empty branch. -/
theorem fireStepBody_ok (h : fireStepBody s = .ok u) :
    (s.stepper.guard = true ∧ u = returnFromHandler s) ∨
    (s.stepper.guard = false ∧ pendingAnswer s.env = true ∧
      steppingBranch (setEnv (drewPending s.env) (setStepper { s.stepper with guard := true } s)) = .ok u) ∨
    (s.stepper.guard = false ∧ pendingAnswer s.env = false ∧
      emptyBranch (setEnv (drewPending s.env) (setStepper { s.stepper with guard := true } s)) = .ok u) := by
  unfold fireStepBody at h
  by_cases hg : s.stepper.guard = true
  · rw [if_pos hg] at h
    cases h
    exact .inl ⟨hg, rfl⟩
  · rw [if_neg hg] at h
    by_cases hp : pendingAnswer s.env = true
    · exact .inr (.inl ⟨by simpa using hg, hp, by simpa [hp] using h⟩)
    · exact .inr (.inr ⟨by simpa using hg, by simpa using hp, by simpa [hp] using h⟩)

/-- The stepping branch (R133). -/
theorem steppingBranch_ok (h : steppingBranch s = .ok u) :
    stepAnswer s.env ≤ reloadMax s.params ∧
      u = { s with
        env := drewStep s.env
        trace := s.trace ++ [.stepExec]
        timers := s.timers.set .step { s.timers.step with rld := max 1 (stepAnswer s.env) }
        stepper := { s.stepper with spState := .stepping }
        gie := true
        ctx := tailTop s.ctx } := by
  unfold steppingBranch at h
  dsimp only at h
  split at h
  · cases h
  · rename_i hr
    simp only [setEnv_params, not_lt] at hr
    refine ⟨hr, ?_⟩
    rw [rearmInt, if_neg (by simpa using hr)] at h
    cases h
    rfl

/-- Idle housekeeping (R135): the fold, if the advance pacer is present, and the disable signal. -/
theorem idleHousekeeping_ok (h : idleHousekeeping s = .ok u) :
    (s.params.advancePresent = false ∧ u = emit .driverDisable s) ∨
    (s.params.advancePresent = true ∧ ∃ v : Int,
      v = s.adv.owed.toInt + signInt s.params.advFoldSign * s.adv.comp.toInt ∧ fitsSigned32 v = true ∧
      u = disableWhenIdle (setAdv { s.adv with owed := BitVec.ofInt 32 v, comp := 0 } s)) := by
  unfold idleHousekeeping at h
  split at h
  · rename_i hp
    dsimp only at h
    split at h
    · cases h
      exact .inr ⟨hp, _, rfl, ‹_›, rfl⟩
    · cases h
  · rename_i hp
    cases h
    exact .inl ⟨by simpa using hp, by simp [disableWhenIdle, hp]⟩

/-- The empty branch (R134): the relax countdown, the housekeeping of an idle pacer, the re-arm, the return. -/
theorem emptyBranch_ok (h : emptyBranch s = .ok u) :
    s.params.stepIdleTicks ≤ reloadMax s.params ∧
      ∃ v : State,
        (if (relaxStep s.params.relaxTicks s.stepper).spState = .idle
          then idleHousekeeping (setStepper (relaxStep s.params.relaxTicks s.stepper) s) = .ok v
          else v = setStepper (relaxStep s.params.relaxTicks s.stepper) s) ∧
        u = { v with
          timers := v.timers.set .step { v.timers.step with rld := max 1 v.params.stepIdleTicks }
          stepper := { v.stepper with guard := false }
          gie := true
          ctx := v.ctx.tail } := by
  have key (v : State) (hp : v.params = s.params)
      (hv : (rearmInt .step v.params.stepIdleTicks v).map (fun s3 =>
        returnFromHandler (setStepper { s3.stepper with guard := false } s3)) = .ok u) :
      s.params.stepIdleTicks ≤ reloadMax s.params ∧ u = { v with
          timers := v.timers.set .step { v.timers.step with rld := max 1 v.params.stepIdleTicks }
          stepper := { v.stepper with guard := false }
          gie := true
          ctx := v.ctx.tail } := by
    cases hr : rearmInt .step v.params.stepIdleTicks v with
    | error f => simp [hr, Except.map] at hv
    | ok w =>
      simp only [hr, Except.map, Except.ok.injEq] at hv
      rw [rearmInt_ok] at hr
      refine ⟨by rw [← hp]; exact hr.1, ?_⟩
      rw [← hv, hr.2]
      rfl
  unfold emptyBranch at h
  dsimp only at h
  by_cases hi : (relaxStep s.params.relaxTicks s.stepper).spState = .idle
  · simp only [setStepper_stepper, hi, if_true] at h ⊢
    cases hk : idleHousekeeping (setStepper (relaxStep s.params.relaxTicks s.stepper) s) with
    | error f => simp [hk] at h
    | ok v =>
      simp only [hk] at h
      have hp : v.params = s.params := by
        rcases idleHousekeeping_ok hk with ⟨-, rfl⟩ | ⟨-, v, -, -, rfl⟩
        · rfl
        · unfold disableWhenIdle
          split <;> rfl
      have := key v hp h
      exact ⟨this.1, v, rfl, this.2⟩
  · simp only [setStepper_stepper, hi, if_false] at h ⊢
    have := key (setStepper (relaxStep s.params.relaxTicks s.stepper) s) rfl h
    exact ⟨this.1, _, rfl, this.2⟩

/-! The multiplexer. -/

theorem setDutyBody_ok {i : Byte} {d : Imm} (h : setDutyBody i d s = .ok u) :
    i.toNat < s.params.nPwm ∧ d.toNat ≤ 255 ∧
      u = advanceHost (setMux
        { s.mux with pwm := s.mux.pwm.modify i.toNat fun ch => { ch with tgt := d.setWidth 8 } } s) := by
  unfold setDutyBody at h
  split at h
  · cases h
  · split at h
    · cases h
    · cases h
      exact ⟨by omega, Nat.le_of_not_lt ‹¬ 255 < immNat d›, rfl⟩

theorem readAnalogBody_ok {j : Byte} (h : readAnalogBody j s = .ok u) :
    j.toNat < s.params.nAnalog ∧
      u = advanceHost (setRes (resultOf ((s.mux.analog[j.toNat]?.map (·.avg)).getD 0)) s) := by
  unfold readAnalogBody at h
  split at h
  · cases h
  · cases h
    exact ⟨by omega, rfl⟩

/-- One conversion step's four ways (R166): no analog channel, not ready, a sample of a channel, or a sample where
the addressed channel is missing. -/
theorem analogStep_ok (h : analogStep s = .ok u) :
    (s.params.nAnalog = 0 ∧ u = s) ∨
    (s.params.nAnalog ≠ 0 ∧ readyAnswer s.env s.mux.adcPos = false ∧ u = setEnv (drewReady s.env) s) ∨
    (s.params.nAnalog ≠ 0 ∧ readyAnswer s.env s.mux.adcPos = true ∧
      valueAnswer (drewReady s.env) s.mux.adcPos ≤ 2 ^ s.params.adcBits - 1 ∧
      ((∃ ch, s.mux.analog[s.mux.adcPos.toNat]? = some ch ∧
        u = acceptSample s.mux.adcPos ch (valueAnswer (drewReady s.env) s.mux.adcPos)
          (setEnv (drewValue (drewReady s.env)) s)) ∨
       (s.mux.analog[s.mux.adcPos.toNat]? = none ∧ u = setEnv (drewValue (drewReady s.env)) s))) := by
  unfold analogStep at h
  split at h
  · cases h
    exact .inl ⟨‹_›, rfl⟩
  · dsimp only at h
    split at h
    · split at h
      · cases h
      · rename_i h1 h2 h3
        simp only [setEnv_env] at h3
        have h3' : valueAnswer (drewReady s.env) s.mux.adcPos ≤ 2 ^ s.params.adcBits - 1 := by simpa using h3
        cases hc : s.mux.analog[s.mux.adcPos.toNat]? with
        | some ch =>
          simp only [setEnv_mux, hc] at h
          cases h
          exact .inr (.inr ⟨h1, h2, h3', .inl ⟨ch, rfl, rfl⟩⟩)
        | none =>
          simp only [setEnv_mux, hc] at h
          cases h
          exact .inr (.inr ⟨h1, h2, h3', .inr ⟨rfl, rfl⟩⟩)
    · rename_i h1 h2
      cases h
      exact .inr (.inl ⟨h1, by simpa using h2, rfl⟩)

theorem firePwmBody_ok (h : firePwmBody s = .ok u) :
    ∃ v, analogStep (pwmLatchAndCompare s.mux.pwmCnt s) = .ok v ∧
      u = returnFromHandler (advancePwmCnt s.mux.pwmCnt (uiHook (maintenanceTick v))) := by
  unfold firePwmBody at h
  dsimp only at h
  cases ha : analogStep (pwmLatchAndCompare s.mux.pwmCnt s) with
  | error f => simp [ha, Except.map] at h
  | ok v =>
    simp only [ha, Except.map, Except.ok.injEq] at h
    exact ⟨v, rfl, h.symm⟩

/-! The servo generator. -/

theorem setServoBody_ok {c : Byte} {us : Imm} (h : setServoBody c us s = .ok u) :
    s.params.servoPresent = true ∧ c.toNat < s.params.nServo ∧ us.toNat ≤ 65535 ∧
      u = advanceHost (setServo
        { s.servo with chans := s.servo.chans.modify c.toNat fun ch => { ch with width := us.setWidth 16 } } s) := by
  unfold setServoBody at h
  split at h
  · cases h
  · split at h
    · cases h
    · split at h
      · cases h
      · cases h
        exact ⟨by simpa using ‹¬ s.params.servoPresent = false›, by omega,
          Nat.le_of_not_lt ‹¬ 65535 < immNat us›, rfl⟩

/-- One servo phase (R203 to R205). -/
theorem fireServoBody_ok (h : fireServoBody s = .ok u) :
    (highPhase s.servo.phase = true ∧
      highTicks s (servoWidth s (phaseChan s.servo.phase)) ≤ reloadMax s.params ∧
      u = { s with
        servo := {
          chans := if servoWidth s (phaseChan s.servo.phase) = 0 then s.servo.chans
            else s.servo.chans.modify (phaseChan s.servo.phase) fun ch => { ch with out := true }
          phase := s.servo.phase + 1
          lastHigh := highTicks s (servoWidth s (phaseChan s.servo.phase)) }
        timers := s.timers.set .servo
          { s.timers.servo with rld := max 1 (highTicks s (servoWidth s (phaseChan s.servo.phase))) }
        gie := true
        ctx := s.ctx.tail }) ∨
    (highPhase s.servo.phase = false ∧ frameTicks s - s.servo.lastHigh ≤ reloadMax s.params ∧
      u = { s with
        servo := { s.servo with
          chans := s.servo.chans.modify (phaseChan s.servo.phase) fun ch => { ch with out := false }
          phase := s.servo.phase + 1 }
        timers := s.timers.set .servo { s.timers.servo with rld := max 1 (frameTicks s - s.servo.lastHigh) }
        gie := true
        ctx := s.ctx.tail }) := by
  unfold fireServoBody at h
  dsimp only at h
  by_cases hp : highPhase s.servo.phase = true
  · rw [if_pos hp, servoHighPhase] at h
    dsimp only at h
    by_cases hw : servoWidth s (phaseChan s.servo.phase) = 0
    · rw [if_pos hw] at h
      cases hr : rearmInt .servo (highTicks s (servoWidth s (phaseChan s.servo.phase)))
          (setServo { s.servo with lastHigh := highTicks s (servoWidth s (phaseChan s.servo.phase)) } s) with
      | error f => simp [hr, Except.map] at h
      | ok v =>
        simp only [hr, Except.map, Except.ok.injEq] at h
        rw [rearmInt_ok] at hr
        refine .inl ⟨hp, hr.1, ?_⟩
        rw [← h, hr.2, if_pos hw]
        simp only [returnFromHandler, setServo, setTimer, setGie, setCtx, PerTimer.get]
    · rw [if_neg hw] at h
      cases hr : rearmInt .servo (highTicks s (servoWidth s (phaseChan s.servo.phase)))
          (setServo { (driveServo (phaseChan s.servo.phase) true s).servo with
            lastHigh := highTicks s (servoWidth s (phaseChan s.servo.phase)) }
            (driveServo (phaseChan s.servo.phase) true s)) with
      | error f => simp [hr, Except.map] at h
      | ok v =>
        simp only [hr, Except.map, Except.ok.injEq] at h
        rw [rearmInt_ok] at hr
        refine .inl ⟨hp, hr.1, ?_⟩
        rw [← h, hr.2, if_neg hw]
        simp only [returnFromHandler, setServo, setTimer, setGie, setCtx, driveServo, PerTimer.get]
  · rw [if_neg hp, servoLowPhase] at h
    cases hr : rearmInt .servo (frameTicks s - s.servo.lastHigh) (driveServo (phaseChan s.servo.phase) false s) with
    | error f => simp [hr, Except.map] at h
    | ok v =>
      simp only [hr, Except.map, Except.ok.injEq] at h
      rw [rearmInt_ok] at hr
      refine .inr ⟨by simpa using hp, hr.1, ?_⟩
      rw [← h, hr.2]
      simp only [returnFromHandler, setServo, setTimer, setGie, setCtx, driveServo, PerTimer.get]

/-! The advance pacer. -/

theorem setAdvActiveBody_ok {b : Imm} (h : setAdvActiveBody b s = .ok u) :
    s.params.advancePresent = true ∧ b.toNat ≤ 1 ∧
      u = advanceHost (setAdv { s.adv with active := immNat b == 1 } s) := by
  unfold setAdvActiveBody at h
  split at h
  · cases h
  · split at h
    · cases h
    · cases h
      exact ⟨by simpa using ‹¬ s.params.advancePresent = false›, Nat.le_of_not_lt ‹¬ 1 < immNat b›, rfl⟩

theorem advAddOwedBody_ok {n : Imm} (h : advAddOwedBody n s = .ok u) :
    s.params.advancePresent = true ∧ fitsSigned32 (s.adv.owed.toInt + immInt n) = true ∧
      u = advanceHost (setAdv { s.adv with owed := BitVec.ofInt 32 (s.adv.owed.toInt + immInt n) } s) := by
  unfold advAddOwedBody at h
  split at h
  · cases h
  · dsimp only at h
    split at h
    · cases h
      exact ⟨by simpa using ‹¬ s.params.advancePresent = false›, ‹_›, rfl⟩
    · cases h

theorem setAdvCompBody_ok {n : Imm} (h : setAdvCompBody n s = .ok u) :
    s.params.advancePresent = true ∧
      u = advanceHost (setAdv { s.adv with comp := BitVec.ofInt 32 (immInt n) } s) := by
  unfold setAdvCompBody at h
  split at h
  · cases h
  · cases h
    exact ⟨by simpa using ‹¬ s.params.advancePresent = false›, rfl⟩

theorem setAdvIntervalBody_ok {n : Imm} (h : setAdvIntervalBody n s = .ok u) :
    s.params.advancePresent = true ∧ immNat n ≤ reloadMax s.params ∧
      u = advanceHost (setAdv { s.adv with interval := immNat n } s) := by
  unfold setAdvIntervalBody at h
  split at h
  · cases h
  · split at h
    · cases h
    · cases h
      exact ⟨by simpa using ‹¬ s.params.advancePresent = false›, by omega, rfl⟩

theorem penalisedInterval_le : penalisedInterval s ≤ reloadMax s.params := Nat.min_le_right _ _

theorem signOf_none {v : Int} : signOf v = none ↔ v = 0 := by
  unfold signOf
  split
  · simp_all
  · split <;> simp_all

theorem signOf_some {v : Int} {d : Sign} : signOf v = some d ↔ v ≠ 0 ∧ (d = .plus ↔ 0 < v) := by
  unfold signOf
  split
  · simp_all
  · split <;> cases d <;> simp_all

/-- FIRE_ADV's four ways (R235 to R238). -/
theorem fireAdvBody_ok (h : fireAdvBody s = .ok u) :
    (s.adv.active = false ∧ u = returnFromHandler s) ∨
    (s.adv.active = true ∧ s.adv.owed.toInt = 0 ∧ s.adv.interval ≤ reloadMax s.params ∧
      u = returnFromHandler (setTimer .adv { s.timers.adv with rld := max 1 s.adv.interval } s)) ∨
    (s.adv.active = true ∧ ∃ d, signOf s.adv.owed.toInt = some d ∧ s.adv.dir = dirOf d ∧
      s.adv.interval ≤ reloadMax s.params ∧
      u = returnFromHandler (setTimer .adv { s.timers.adv with rld := max 1 s.adv.interval }
        (setAdv { s.adv with owed := BitVec.ofInt 32 (s.adv.owed.toInt - signInt d) } (emit (.advStep d) s)))) ∨
    (s.adv.active = true ∧ ∃ d, signOf s.adv.owed.toInt = some d ∧ s.adv.dir ≠ dirOf d ∧
      u = returnFromHandler (setTimer .adv { s.timers.adv with rld := max 1 (penalisedInterval s) }
        (emit (.advDirSet d) (setAdv { s.adv with dir := dirOf d, dirOut := d == .plus } s)))) := by
  unfold fireAdvBody at h
  split at h
  · cases h
    exact .inl ⟨‹_›, rfl⟩
  · rename_i ha
    have ha' : s.adv.active = true := by simpa using ha
    refine .inr ?_
    cases hs : signOf s.adv.owed.toInt with
    | none =>
      refine .inl ⟨ha', signOf_none.mp hs, ?_⟩
      simp only [hs, advNoStep] at h
      cases hr : rearmInt .adv s.adv.interval s with
      | error f => simp [hr, Except.map] at h
      | ok v =>
        simp only [hr, Except.map, Except.ok.injEq] at h
        rw [rearmInt_ok] at hr
        exact ⟨hr.1, by rw [← h, hr.2]; rfl⟩
    | some d =>
      by_cases hd : s.adv.dir = dirOf d
      · refine .inr (.inl ⟨ha', d, rfl, hd, ?_⟩)
        simp only [hs, if_pos hd, advOneStep] at h
        cases hr : rearmInt .adv s.adv.interval
            (setAdv { s.adv with owed := BitVec.ofInt 32 (s.adv.owed.toInt - signInt d) } (emit (.advStep d) s)) with
        | error f => simp [hr, Except.map] at h
        | ok v =>
          simp only [hr, Except.map, Except.ok.injEq] at h
          rw [rearmInt_ok] at hr
          exact ⟨hr.1, by rw [← h, hr.2]; rfl⟩
      · refine .inr (.inr ⟨ha', d, rfl, hd, ?_⟩)
        simp only [hs, if_neg hd, advDirectionChange] at h
        cases hr : rearmInt .adv (penalisedInterval s)
            (emit (.advDirSet d) (setAdv { s.adv with dir := dirOf d, dirOut := d == .plus } s)) with
        | error f => simp [hr, Except.map] at h
        | ok v =>
          simp only [hr, Except.map, Except.ok.injEq] at h
          rw [rearmInt_ok] at hr
          rw [← h, hr.2]
          rfl

/-! The clock. -/

theorem waitUsBody_ok {us : Imm} (h : waitUsBody us s = .ok u) :
    scaled s.params us < 2 ^ s.params.usBits ∧
      u = setWait (some (waitRecord (2 ^ s.params.usBits) s.usCnt (scaled s.params us))) s := by
  unfold waitUsBody at h
  split at h
  · cases h
  · cases h
    exact ⟨by omega, rfl⟩

theorem usReachedBody_ok {g : Imm} (h : usReachedBody g s = .ok u) :
    immNat g < 2 ^ s.params.usBits ∧
      u = advanceHost (setRes (resultOf (bitNat (usReachedFlag s.params s.usCnt (immNat g)))) s) := by
  unfold usReachedBody at h
  split at h
  · cases h
  · cases h
    exact ⟨by omega, rfl⟩

end Sys2Proof.Machine
end

