-- ==== Sys2Proof/Laws/Encode.lean ====
section
/-! SUPPORT. Laws/Encode.lean: the fields of an assembled word, and the word its fields assemble (R80). -/

namespace Sys2Proof

variable (op ch aux : Byte) (imm : Imm) (w : Word)

/-- Every bit of an assembled word, by the layout of R80. -/
theorem assemble_getLsbD (i : Nat) :
    (assemble op ch aux imm).getLsbD i =
      if i < 32 then imm.getLsbD i
      else if i < 40 then false
      else if i < 48 then aux.getLsbD (i - 40)
      else if i < 56 then ch.getLsbD (i - 48)
      else op.getLsbD (i - 56) := by
  have h1 (x : BitVec 32) (y : BitVec 32) : (x ++ y : BitVec 64).getLsbD i =
      if i < 32 then y.getLsbD i else x.getLsbD (i - 32) := BitVec.getLsbD_append
  have h2 (x : BitVec 24) (y : BitVec 8) (k : Nat) : (x ++ y : BitVec 32).getLsbD k =
      if k < 8 then y.getLsbD k else x.getLsbD (k - 8) := BitVec.getLsbD_append
  have h3 (x : BitVec 16) (y : BitVec 8) (k : Nat) : (x ++ y : BitVec 24).getLsbD k =
      if k < 8 then y.getLsbD k else x.getLsbD (k - 8) := BitVec.getLsbD_append
  have h4 (x : BitVec 8) (y : BitVec 8) (k : Nat) : (x ++ y : BitVec 16).getLsbD k =
      if k < 8 then y.getLsbD k else x.getLsbD (k - 8) := BitVec.getLsbD_append
  unfold assemble
  rw [h1, h2, h3, h4]
  simp only [Nat.sub_sub]
  by_cases a : i < 32
  · simp [a]
  by_cases b : i < 40
  · simp [a, b, show i - 32 < 8 by omega]
  by_cases c : i < 48
  · simp [a, b, c, show ¬ i - 32 < 8 by omega, show i - 40 < 8 by omega]
  by_cases d : i < 56
  · simp [a, b, c, d, show ¬ i - 32 < 8 by omega, show ¬ i - 40 < 8 by omega, show i - 48 < 8 by omega]
  · simp [a, b, c, d, show ¬ i - 32 < 8 by omega, show ¬ i - 40 < 8 by omega, show ¬ i - 48 < 8 by omega]

@[simp] theorem opField_assemble : opField (assemble op ch aux imm) = op := by
  ext i hi
  simp only [opField, BitVec.getElem_extractLsb', assemble_getLsbD]
  simp [show ¬ 56 + i < 32 by omega, show ¬ 56 + i < 40 by omega, show ¬ 56 + i < 48 by omega, hi]

@[simp] theorem chField_assemble : chField (assemble op ch aux imm) = ch := by
  ext i hi
  simp only [chField, BitVec.getElem_extractLsb', assemble_getLsbD]
  simp [show ¬ 48 + i < 32 by omega, show ¬ 48 + i < 40 by omega, show 48 + i < 56 by omega, hi]

@[simp] theorem auxField_assemble : auxField (assemble op ch aux imm) = aux := by
  ext i hi
  simp only [auxField, BitVec.getElem_extractLsb', assemble_getLsbD]
  simp [show ¬ 40 + i < 32 by omega, show 40 + i < 48 by omega, hi]

@[simp] theorem rsvField_assemble : rsvField (assemble op ch aux imm) = 0 := by
  ext i hi
  simp only [rsvField, BitVec.getElem_extractLsb', assemble_getLsbD]
  simp [show 32 + i < 40 by omega]

@[simp] theorem immField_assemble : immField (assemble op ch aux imm) = imm := by
  ext i hi
  simp only [immField, BitVec.getElem_extractLsb', assemble_getLsbD]
  simp [hi]

@[simp] theorem isEventWord_assemble : isEventWord (assemble op ch aux imm) = op.getLsbD 7 := by
  rw [isEventWord, assemble_getLsbD]
  simp only [show ¬ 63 < 32 by omega, show ¬ 63 < 40 by omega, show ¬ 63 < 48 by omega, show ¬ 63 < 56 by omega, if_false]

/-- A word whose reserved field is zero is the word its other fields assemble. -/
theorem assemble_fields (h : rsvField w = 0) : assemble (opField w) (chField w) (auxField w) (immField w) = w := by
  apply BitVec.eq_of_getLsbD_eq
  intro i hi
  rw [assemble_getLsbD]
  split
  · simp [immField, *]
  split
  · have := congrArg (BitVec.getLsbD · (i - 32)) h
    simp only [rsvField, BitVec.getLsbD_extractLsb'] at this
    rw [show 32 + (i - 32) = i by omega] at this
    simpa [show i - 32 < 8 by omega] using this.symm
  split
  · simp [auxField, show i - 40 < 8 by omega, show 40 + (i - 40) = i by omega]
  split
  · simp [chField, show i - 48 < 8 by omega, show 48 + (i - 48) = i by omega]
  · simp [opField, show i - 56 < 8 by omega, show 56 + (i - 56) = i by omega]

end Sys2Proof
end

