-- ==== Sys2Proof/Laws/Exec.lean ====
section
/-! SUPPORT. Laws/Exec.lean: what exec can do, over all instructions: a next state is the raise of a fault or the
instruction's own effect (R11, R301). A proof about every instruction cites this and goes on by cases. -/

namespace Sys2Proof.Machine

variable {s t : State}

/-- The instruction's own effect, when it does not raise: its body, or its one update. -/
def Effect (i : Instr) (s t : State) : Prop :=
  match i with
  | .cfg c prio f => cfgBody c prio f s = .ok t
  | .rearm c n => rearmBody c n s = .ok t
  | .tmrRead c sel => tmrReadBody c sel s = .ok t
  | .setDuty k d => setDutyBody k d s = .ok t
  | .readAnalog j => readAnalogBody j s = .ok t
  | .readMaint => t = advanceHost (setRes (resultOf (bitNat s.mux.maintDue)) s)
  | .clrMaint => t = advanceHost (setMux { s.mux with maintDue := false } s)
  | .setServo c us => setServoBody c us s = .ok t
  | .setAdvActive b => setAdvActiveBody b s = .ok t
  | .advAddOwed n => advAddOwedBody n s = .ok t
  | .setAdvComp n => setAdvCompBody n s = .ok t
  | .setAdvInterval n => setAdvIntervalBody n s = .ok t
  | .usRead => t = advanceHost (setRes (resultOf s.usCnt) s)
  | .waitUs us => waitUsBody us s = .ok t
  | .usReached g => usReachedBody g s = .ok t
  | .irqDisable => t = advanceHost (setGie false s)
  | .irqEnable => t = advanceHost (setGie true s)
  | .tick n => ∃ u, n = timerNumber u ∧ tickEnabled s u = true ∧ t = setTimer u (tickChan (s.timers.get u)) s
  | .clkTick => t = countUp s
  | .dispatch n => ∃ u, n = timerNumber u ∧ dispatchable s = some u ∧ t = takeInterrupt u s
  | .waitPoll => t = pollBody s
  | .fireStep => fireStepBody s = .ok t
  | .stepTail => t = returnFromHandler (setStepper { s.stepper with guard := false } s)
  | .firePwm => firePwmBody s = .ok t
  | .fireServo => fireServoBody s = .ok t
  | .fireAdv => fireAdvBody s = .ok t

/-- FAULT_INFO of a fault that an instruction raises: a command's word, an event's opcode and channel (R34). -/
def InfoOf (i : Instr) (info : Word) : Prop :=
  match i with
  | .fireStep => info = 0x9000000000000000#64
  | .firePwm => info = 0x9201000000000000#64
  | .fireServo => info = 0x9302000000000000#64
  | .fireAdv => info = 0x9403000000000000#64
  | i => i.isCommand = true ∧ info = encode i

theorem settle_effect {i : Instr} {info : Word} {b : Except FaultCode State} (h : t = settle s info b)
    (hi : InfoOf i info) (he : b = .ok t → Effect i s t) :
    (∃ f w, t = raiseFault f w s ∧ InfoOf i w) ∨ Effect i s t := by
  rcases settle_cases h with h | ⟨f, -, h⟩
  · exact .inr (he h)
  · exact .inl ⟨f, info, h, hi⟩

/-- What exec can do. -/
theorem exec_next {i : Instr} (h : exec i s = .next t) :
    (∃ f w, t = raiseFault f w s ∧ InfoOf i w) ∨ Effect i s t := by
  cases i with
  | tick n =>
    obtain ⟨u, hn, -, he, ht⟩ := exec_tick_next h
    exact .inr ⟨u, hn, he, ht⟩
  | clkTick =>
    simp only [exec, execClkTick, whenEnabled_next] at h
    exact .inr h.2.2
  | dispatch n =>
    obtain ⟨u, hn, -, hd, ht⟩ := exec_dispatch_next h
    exact .inr ⟨u, hn, hd, ht⟩
  | waitPoll => exact .inr (runEvent_next.mp h).2
  | stepTail => exact .inr (runEvent_next.mp h).2
  | readMaint => exact .inr (runCommand_next.mp h).2
  | clrMaint => exact .inr (runCommand_next.mp h).2
  | usRead => exact .inr (runCommand_next.mp h).2
  | irqDisable => exact .inr (runCommand_next.mp h).2
  | irqEnable => exact .inr (runCommand_next.mp h).2
  | _ =>
    first
    | exact settle_effect (runCommand_next.mp h).2 ⟨rfl, rfl⟩ (fun h => h)
    | exact settle_effect (runEvent_next.mp h).2 rfl (fun h => h)

end Sys2Proof.Machine
end

