-- ==== Sys2Proof/Laws/PerInstr.lean ====
section
/-! SUPPORT. Laws/PerInstr.lean: what holds of the word of every instruction, one lemma per constructor. -/

namespace Sys2Proof.Laws

/-- The word of an instruction has RSV zero (R80, R84), and an opcode whose top bit says that it is an event's label
and no host command (R81, R83), whatever its operands. -/
def WordShape.Statement (i : Instr) : Prop :=
  rsvField (encode i) = 0 ∧ isEventWord (encode i) = !i.isCommand

/-- The word's fields give its shape. -/
theorem wordShape_of_fields {i : Instr} {op ch aux : Byte} {imm : Imm} (h : encode i = assemble op ch aux imm)
    (hop : op.getLsbD 7 = !i.isCommand) : WordShape.Statement i :=
  ⟨by rw [h, rsvField_assemble], by rw [h, isEventWord_assemble, hop]⟩

theorem WordShape.cfg (t prio : Byte) (f : Imm) : WordShape.Statement (.cfg t prio f) :=
  wordShape_of_fields rfl rfl

theorem WordShape.rearm (t : Byte) (ticks : Imm) : WordShape.Statement (.rearm t ticks) :=
  wordShape_of_fields rfl rfl

theorem WordShape.tmrRead (t sel : Byte) : WordShape.Statement (.tmrRead t sel) :=
  wordShape_of_fields rfl rfl

theorem WordShape.setDuty (i : Byte) (d : Imm) : WordShape.Statement (.setDuty i d) :=
  wordShape_of_fields rfl rfl

theorem WordShape.readAnalog (j : Byte) : WordShape.Statement (.readAnalog j) :=
  wordShape_of_fields rfl rfl

theorem WordShape.readMaint : WordShape.Statement (.readMaint) :=
  wordShape_of_fields rfl rfl

theorem WordShape.clrMaint : WordShape.Statement (.clrMaint) :=
  wordShape_of_fields rfl rfl

theorem WordShape.setServo (c : Byte) (us : Imm) : WordShape.Statement (.setServo c us) :=
  wordShape_of_fields rfl rfl

theorem WordShape.setAdvActive (b : Imm) : WordShape.Statement (.setAdvActive b) :=
  wordShape_of_fields rfl rfl

theorem WordShape.advAddOwed (n : Imm) : WordShape.Statement (.advAddOwed n) :=
  wordShape_of_fields rfl rfl

theorem WordShape.setAdvComp (n : Imm) : WordShape.Statement (.setAdvComp n) :=
  wordShape_of_fields rfl rfl

theorem WordShape.setAdvInterval (t : Imm) : WordShape.Statement (.setAdvInterval t) :=
  wordShape_of_fields rfl rfl

theorem WordShape.usRead : WordShape.Statement (.usRead) :=
  wordShape_of_fields rfl rfl

theorem WordShape.waitUs (us : Imm) : WordShape.Statement (.waitUs us) :=
  wordShape_of_fields rfl rfl

theorem WordShape.usReached (g : Imm) : WordShape.Statement (.usReached g) :=
  wordShape_of_fields rfl rfl

theorem WordShape.irqDisable : WordShape.Statement (.irqDisable) :=
  wordShape_of_fields rfl rfl

theorem WordShape.irqEnable : WordShape.Statement (.irqEnable) :=
  wordShape_of_fields rfl rfl

theorem WordShape.tick (t : Byte) : WordShape.Statement (.tick t) :=
  wordShape_of_fields rfl rfl

theorem WordShape.clkTick : WordShape.Statement (.clkTick) :=
  wordShape_of_fields rfl rfl

theorem WordShape.dispatch (t : Byte) : WordShape.Statement (.dispatch t) :=
  wordShape_of_fields rfl rfl

theorem WordShape.waitPoll : WordShape.Statement (.waitPoll) :=
  wordShape_of_fields rfl rfl

theorem WordShape.fireStep : WordShape.Statement (.fireStep) :=
  wordShape_of_fields rfl rfl

theorem WordShape.stepTail : WordShape.Statement (.stepTail) :=
  wordShape_of_fields rfl rfl

theorem WordShape.firePwm : WordShape.Statement (.firePwm) :=
  wordShape_of_fields rfl rfl

theorem WordShape.fireServo : WordShape.Statement (.fireServo) :=
  wordShape_of_fields rfl rfl

theorem WordShape.fireAdv : WordShape.Statement (.fireAdv) :=
  wordShape_of_fields rfl rfl

end Sys2Proof.Laws
end

