-- ==== Sys2Proof/Machine/Asm.lean ====
section
/-! DEFINITION. Machine/Asm.lean: the assembler syntax of host commands (R86, R87): one line of text to at most one
command, and a text to the host program PROG. The block itself never sees text. What R86 does not say of the
spelling (case, blanks, a number that is too wide for its field) is log entry 17. -/

namespace Sys2Proof.Machine

/-- Why a line is no command. -/
inductive AsmError where
  /-- The mnemonic is none of R86. -/
  | mnemonic
  /-- An operand is missing, left over, or not a spelling of a value its field holds. -/
  | operands
deriving DecidableEq, Repr

/-- A blank between the parts of a line. -/
def isBlank (c : Char) : Bool := c = ' ' || c = '\t' || c = '\r'

/-- The text of a line before its comment: `;` starts one (R86). -/
def beforeComment (l : List Char) : List Char := l.takeWhile (· ≠ ';')

/-- A piece of text without the blanks around it. -/
def trimBlanks (l : List Char) : List Char := ((l.dropWhile isBlank).reverse.dropWhile isBlank).reverse

/-- The pieces of a text between separators. -/
def splitText (sep : Char) : List Char → List (List Char)
  | [] => [[]]
  | c :: rest =>
    if c = sep then [] :: splitText sep rest
    else
      match splitText sep rest with
      | [] => [[c]]
      | piece :: more => (c :: piece) :: more

/-- The value of a digit of the given base, 10 or 16. -/
def digitValue (base : Nat) (c : Char) : Option Nat :=
  let v :=
    if '0' ≤ c ∧ c ≤ '9' then c.toNat - '0'.toNat
    else if 'a' ≤ c ∧ c ≤ 'f' then c.toNat - 'a'.toNat + 10
    else if 'A' ≤ c ∧ c ≤ 'F' then c.toNat - 'A'.toNat + 10
    else 16
  if v < base then some v else none

/-- The value of a string of digits, after the value read so far. -/
def digitsValue (base : Nat) : Nat → List Char → Option Nat
  | acc, [] => some acc
  | acc, c :: rest => (digitValue base c).bind fun v => digitsValue base (acc * base + v) rest

/-- A number: decimal, or hexadecimal with 0x (R86). -/
def numberValue : List Char → Option Nat
  | [] => none
  | '0' :: 'x' :: [] => none
  | '0' :: 'x' :: ds => digitsValue 16 0 ds
  | ds => digitsValue 10 0 ds

/-- An unsigned operand of an n-bit field. -/
def unsignedOperand (n : Nat) (l : List Char) : Option (BitVec n) :=
  (numberValue l).bind fun v => if v < 2 ^ n then some (BitVec.ofNat n v) else none

/-- A signed immediate, which may carry a leading minus (R86, R82). -/
def signedOperand : List Char → Option Imm
  | '-' :: l => (numberValue l).bind fun v => if v ≤ 2147483648 then some (BitVec.ofInt 32 (-v)) else none
  | l => (numberValue l).bind fun v => if v ≤ 2147483647 then some (BitVec.ofNat 32 v) else none

/-- A timer channel: its name or a number (R86, R9). -/
def timerOperand (l : List Char) : Option Byte :=
  if l = "STEP".toList then some (timerNumber .step)
  else if l = "PWM".toList then some (timerNumber .pwm)
  else if l = "SERVO".toList then some (timerNumber .servo)
  else if l = "ADV".toList then some (timerNumber .adv)
  else unsignedOperand 8 l

/-- A TMR_READ selector: its name or a number (R86, R83). -/
def selectorOperand (l : List Char) : Option Byte :=
  if l = "PSC".toList then some 0
  else if l = "RLD".toList then some 1
  else if l = "EN".toList then some 2
  else if l = "IE".toList then some 3
  else if l = "PRIO".toList then some 4
  else if l = "PEND".toList then some 5
  else if l = "COUNT".toList then some 6
  else unsignedOperand 8 l

/-- A command without operands. -/
def noOperands (i : Instr) : List (List Char) → Option Instr
  | [] => some i
  | _ => none

/-- A command with one operand. -/
def oneOperand {α : Type} (a : List Char → Option α) (i : α → Instr) : List (List Char) → Option Instr
  | [x] => (a x).map i
  | _ => none

/-- A command with two operands. -/
def twoOperands {α β : Type} (a : List Char → Option α) (b : List Char → Option β) (i : α → β → Instr) :
    List (List Char) → Option Instr
  | [x, y] => (a x).bind fun u => (b y).map (i u)
  | _ => none

/-- A command with three operands. -/
def threeOperands {α β γ : Type} (a : List Char → Option α) (b : List Char → Option β) (c : List Char → Option γ)
    (i : α → β → γ → Instr) : List (List Char) → Option Instr
  | [x, y, z] => (a x).bind fun u => (b y).bind fun v => (c z).map (i u v)
  | _ => none

/-- The command of a mnemonic, read from its operands in the order CH, AUX, IMM (R86, R83). -/
def mnemonicCommand : List (String × (List (List Char) → Option Instr)) :=
  [("CFG", threeOperands timerOperand (unsignedOperand 8) (unsignedOperand 32) .cfg),
   ("REARM", twoOperands timerOperand (unsignedOperand 32) .rearm),
   ("TMR_READ", twoOperands timerOperand selectorOperand .tmrRead),
   ("SET_DUTY", twoOperands (unsignedOperand 8) (unsignedOperand 32) .setDuty),
   ("READ_ANALOG", oneOperand (unsignedOperand 8) .readAnalog),
   ("READ_MAINT", noOperands .readMaint),
   ("CLR_MAINT", noOperands .clrMaint),
   ("SET_SERVO", twoOperands (unsignedOperand 8) (unsignedOperand 32) .setServo),
   ("SET_ADV_ACTIVE", oneOperand (unsignedOperand 32) .setAdvActive),
   ("ADV_ADD_OWED", oneOperand signedOperand .advAddOwed),
   ("SET_ADV_COMP", oneOperand signedOperand .setAdvComp),
   ("SET_ADV_INTERVAL", oneOperand (unsignedOperand 32) .setAdvInterval),
   ("US_READ", noOperands .usRead),
   ("WAIT_US", oneOperand (unsignedOperand 32) .waitUs),
   ("US_REACHED", oneOperand (unsignedOperand 32) .usReached),
   ("IRQ_DISABLE", noOperands .irqDisable),
   ("IRQ_ENABLE", noOperands .irqEnable)]

/-- The operands of a line after its mnemonic, separated by commas. -/
def operandTexts (l : List Char) : List (List Char) :=
  if l.isEmpty then [] else (splitText ',' l).map trimBlanks

/-- One line: no command if it is blank or only a comment, else one command (R86: one command per line). -/
def assembleLine (line : List Char) : Except AsmError (Option Instr) :=
  let l := trimBlanks (beforeComment line)
  if l.isEmpty then .ok none
  else
    let name := l.takeWhile (!isBlank ·)
    match mnemonicCommand.find? (fun row => decide (row.1.toList = name)) with
    | none => .error .mnemonic
    | some row =>
      match row.2 (operandTexts (trimBlanks (l.drop name.length))) with
      | none => .error .operands
      | some i => .ok (some i)

/-- The host program of the lines of a text: every mnemonic is one command word (R87). -/
def assembleLines : List (List Char) → Except AsmError (List Word)
  | [] => .ok []
  | line :: rest =>
    (assembleLine line).bind fun c =>
      (assembleLines rest).map fun ws =>
        match c with
        | none => ws
        | some i => encode i :: ws

/-- The host program PROG that a text stands for (R22, R86). -/
def assembleText (text : String) : Except AsmError (List Word) := assembleLines (splitText '\n' text.toList)

end Sys2Proof.Machine
end

