-- ==== Sys2Proof/Tests/Slice0.lean ====
section
/-! SUPPORT. Tests/Slice0.lean: the model's own tests, each result taken from 95_test_vectors.md or worked out by hand
from the rule it cites, and for every statement of the certificates a state and operands that meet its hypotheses. -/

namespace Sys2Proof.Tests

open Sys2Proof.Machine

/-! Helpers: what one step or a run leaves. -/

/-- A view of the next state of an instruction. -/
def after {α : Type} (i : Instr) (s : State) (view : State → α) : Option α :=
  match exec i s with
  | .next t => some (view t)
  | _ => none

/-- A view of the state a run of labels leaves. -/
def afterRun {α : Type} (labels : List Instr) (s : State) (view : State → α) : Option α :=
  match runLabels labels s with
  | .next t => some (view t)
  | _ => none

/-- A view of the next state of the machine's step. -/
def afterStep {α : Type} (s : State) (view : State → α) : Option α :=
  match step s with
  | .next t => some (view t)
  | _ => none

/-- The instruction changes what the view shows. -/
def changes {α : Type} [DecidableEq α] (i : Instr) (s : State) (view : State → α) : Bool :=
  after i s (fun t => decide (view t ≠ view s)) == some true

theorem after_some {α : Type} {i : Instr} {s : State} {view : State → α} {a : α} (h : after i s view = some a) :
    ∃ t, exec i s = .next t ∧ view t = a := by
  unfold after at h
  split at h
  · exact ⟨_, ‹_›, Option.some.inj h⟩
  · cases h

theorem afterRun_some {α : Type} {l : List Instr} {s : State} {view : State → α} {a : α}
    (h : afterRun l s view = some a) : ∃ t, runLabels l s = .next t ∧ view t = a := by
  unfold afterRun at h
  split at h
  · exact ⟨_, ‹_›, Option.some.inj h⟩
  · cases h

theorem afterStep_some {α : Type} {s : State} {view : State → α} {a : α} (h : afterStep s view = some a) :
    ∃ t, step s = .next t ∧ view t = a := by
  unfold afterStep at h
  split at h
  · exact ⟨_, ‹_›, Option.some.inj h⟩
  · cases h

theorem main_of {s : State} (h : cpuChoice s = .main) : MainReady s := mainReady_iff.mpr h

theorem poll_of {s : State} (h : cpuChoice s = .event .waitPoll) : PollReady s := pollReady_iff.mpr h

theorem handler_of {s : State} {e : CtxEntry} {rest : List CtxEntry} (hf : s.fault = none)
    (hd : dispatchable s = none) (hc : s.ctx = e :: rest) : HandlerReady e rest s :=
  ⟨hf, noDispatch_iff.mpr hd, hc⟩

/-! The states tests start from. -/

/-- A channel configured with prescaler 2. -/
def chan (rld : Nat) (prio : BitVec 4) : TimerChan := ⟨2, rld, true, true, prio, 0, false⟩

/-- The block after the boot of 95_test_vectors.md P1, with other parameters if wanted: all channels configured. -/
def bootedWith (p : Params) : State :=
  { State.resetWith p with
      timers := ⟨chan 1000 0, chan 10500 2, chan 210000 3, chan 4200 1⟩
      gie := true }

def booted : State := bootedWith .reference

/-- The same with a handler's context on top: its segment is the CPU's step. -/
def inside (t : Timer) (s : State) : State := { s with ctx := [⟨t, .entered⟩], gie := false }

/-- The same with the next turn given to an agent. -/
def turnOf (a : Agent) (s : State) : State := { s with env := { s.env with sched := [a] } }

/-- The overrides [TB=16] and [US_BITS=8]. -/
def narrow : Params := { Params.reference with timerBits := 16, usBits := 8 }

/-- Without the optional units, analog channels or hook. -/
def bare : Params :=
  { Params.reference with servoPresent := false, advancePresent := false, nAnalog := 0, uiHookPresent := false }

/-- A block whose motion engine answers `pending`, with these delays. -/
def motion (pending : Bool) (delays : List Nat) (s : State) : State :=
  { s with env := { s.env with pendingIn := [pending], stepIn := delays } }

/-- A block whose converter answers `ready` and these samples. -/
def adc (ready : List Bool) (samples : List Nat) (s : State) : State :=
  { s with env := { s.env with readyIn := ready, valueIn := samples } }

/-- A block with [US_BITS=8] at a counter value, with a wait recorded or not. -/
def clockAt (cnt : Nat) (w : Option WaitRec) : State := { State.resetWith narrow with usCnt := cnt, waitf := w }

/-- The advance pacer active, with this debt and direction, its handler entered. -/
def advancing (owed : BitVec 32) (dir : AdvDir) (interval : Nat) : State :=
  inside .adv { booted with adv := ⟨true, owed, 0, interval, dir, dir == .forward⟩ }

/-! Well-formedness: the check of R81 refuses a channel number that is none (R9). -/

theorem test_tick_200_ill_formed : Instr.wellFormed (.tick 200) = false := by decide
theorem test_dispatch_4_ill_formed : Instr.wellFormed (.dispatch 4) = false := by decide
theorem test_dispatch_3_well_formed : Instr.wellFormed (.dispatch 3) = true := by decide

/-! Decoding: words written out from R80, R81 and R83; the commands are those of V-ENC-1. -/

theorem test_decode_timer :
    decodeTableWord 64 0x010000000000A410 = some (.cfg 0 0 42000) ∧
    decodeTableWord 64 0x0103010000002710 = some (.cfg 3 1 10000) ∧
    decodeTableWord 64 0x0200000000000064 = some (.rearm 0 100) ∧
    decodeTableWord 64 0x0301010000000000 = some (.tmrRead 1 1) := by decide

theorem test_decode_mux :
    decodeTableWord 64 0x1001000000000080 = some (.setDuty 1 128) ∧
    decodeTableWord 64 0x1101000000000000 = some (.readAnalog 1) ∧
    decodeTableWord 64 0x1200000000000000 = some .readMaint ∧
    decodeTableWord 64 0x1300000000000000 = some .clrMaint := by decide

theorem test_decode_servo_advance :
    decodeTableWord 64 0x20030000000005DC = some (.setServo 3 1500) ∧
    decodeTableWord 64 0x3000000000000001 = some (.setAdvActive 1) ∧
    decodeTableWord 64 0x31000000FFFFFFFD = some (.advAddOwed (-3)) ∧
    decodeTableWord 64 0x3200000000000005 = some (.setAdvComp 5) ∧
    decodeTableWord 64 0x33000000000000C8 = some (.setAdvInterval 200) := by decide

theorem test_decode_clock_irq :
    decodeTableWord 64 0x4000000000000000 = some .usRead ∧
    decodeTableWord 64 0x410000000000000A = some (.waitUs 10) ∧
    decodeTableWord 64 0x4200000000000010 = some (.usReached 16) ∧
    decodeTableWord 64 0x5000000000000000 = some .irqDisable ∧
    decodeTableWord 64 0x5100000000000000 = some .irqEnable := by decide

theorem test_decode_events :
    decodeTableWord 64 0x8002000000000000 = some (.tick 2) ∧
    decodeTableWord 64 0x8100000000000000 = some .clkTick ∧
    decodeTableWord 64 0x8203000000000000 = some (.dispatch 3) ∧
    decodeTableWord 64 0x8300000000000000 = some .waitPoll ∧
    decodeTableWord 64 0x9000000000000000 = some .fireStep ∧
    decodeTableWord 64 0x9100000000000000 = some .stepTail ∧
    decodeTableWord 64 0x9200000000000000 = some .firePwm ∧
    decodeTableWord 64 0x9300000000000000 = some .fireServo ∧
    decodeTableWord 64 0x9400000000000000 = some .fireAdv := by decide

/-- V-ENC-2: the illegal words, and why each is one (R84). -/
theorem test_decode_illegal :
    decodeCommand 0x0000000000000000#64 = .error .opcode ∧
    decodeCommand 0x8000000000000000#64 = .error .opcode ∧
    decodeCommand 0x6000000000000000#64 = .error .opcode ∧
    decodeCommand 0x0200000100000064#64 = .error .reserved ∧
    decodeCommand 0x0200010000000064#64 = .error .unusedField ∧
    decodeCommand 0x1200000000000001#64 = .error .unusedField ∧
    decodeCommand 0x5001000000000000#64 = .error .unusedField ∧
    decodeCommand 0x03000100000000FF#64 = .error .unusedField := by decide

/-- R61: byte 0 of a serialised word is its bits 7:0; R62: seven bytes are no word. -/
theorem test_bytes :
    decodeBytes [0x10, 0xA4, 0, 0, 0, 0, 0, 0x01, 0xFF] = .ok (.cfg 0 0 42000, [0xFF]) ∧
    decodeBytes [0x10, 0xA4, 0, 0, 0, 0, 0] = .error .short := by decide

/-! The assembler (R86): the examples of V-ENC-1 and spellings that are none. -/

theorem test_assemble_names :
    assembleText "CFG STEP, 0, 42000\nTMR_READ PWM, RLD ; a comment\n\nIRQ_ENABLE" =
      .ok [0x010000000000A410#64, 0x0301010000000000#64, 0x5100000000000000#64] := by decide

theorem test_assemble_numbers :
    assembleText "ADV_ADD_OWED -3\nUS_REACHED 0x10\nCFG 4, 16, 0" =
      .ok [0x31000000FFFFFFFD#64, 0x4200000000000010#64, 0x0104100000000000#64] := by decide

theorem test_assemble_refusals :
    assembleText "NOP" = .error .mnemonic ∧ assembleText "REARM STEP" = .error .operands ∧
    assembleText "WAIT_US 4294967296" = .error .operands ∧ assembleText "WAIT_US -1" = .error .operands := by decide

/-! Placing a word for the next step. -/

theorem test_fetch_command :
    afterStep (State.reset.withFetchWord 64 0x0101020000000FA0) (fun t => (t.timers.pwm.rld, t.hpc)) =
      some (10500, 1) := by decide

theorem test_fetch_illegal :
    afterStep (State.reset.withFetchWord 64 0x6000000000000000) (fun t => (t.fault, t.faultInfo, t.hpc)) =
      some (some .illegalCommand, 0x6000000000000000#64, 0) := by decide

theorem test_fetch_tick :
    afterStep (State.reset.withFetchWord 64 0x8001000000000000) (fun t => t.timers.pwm.pend) = some true := by decide

theorem test_fetch_dispatch :
    afterStep (State.reset.withFetchWord 64 0x8202000000000000) (fun t => t.ctx) =
      some [⟨.servo, .entered⟩] := by decide

theorem test_fetch_handlers :
    afterStep (State.reset.withFetchWord 64 0x9100000000000000) (fun t => (t.ctx, t.gie)) = some ([], true) ∧
    afterStep (State.reset.withFetchWord 64 0x9400000000000000) (fun t => (t.ctx, t.gie)) = some ([], true) ∧
    afterStep (State.reset.withFetchWord 64 0x8300000000000000) (fun t => (t.waitf, t.hpc)) = some (none, 1) := by
  decide

/-! One step of each instruction. -/

/-- V-TMR-1 (R101). -/
theorem test_cfg :
    after (.cfg 1 2 4000) .reset (fun t => (t.timers.pwm, t.hpc)) = some (⟨2, 10500, true, true, 2, 0, false⟩, 1) := by
  decide

/-- T0b under [TB=16] (R101): divisor 2 needs 65,625 > 65,535. -/
theorem test_cfg_second_prescaler :
    after (.cfg 0 0 640) (.resetWith narrow) (fun t => (t.timers.step.psc, t.timers.step.rld)) = some (8, 16406) := by
  decide

/-- V-TMR-12 (R103, R104). -/
theorem test_rearm_minimum : after (.rearm 0 0) booted (fun t => (t.timers.step.rld, t.hpc)) = some (1, 1) := by decide

/-- V-TMR-13 (R104). -/
theorem test_rearm_unconfigured :
    after (.rearm 0 100) .reset (fun t => (t.fault, t.faultInfo, t.hpc)) =
      some (some .notConfigured, 0x0200000000000064#64, 0) := by decide

/-- V-TMR-15 (R105). -/
theorem test_tmr_read : after (.tmrRead 0 1) booted (fun t => (t.res, t.hpc)) = some (1000, 1) := by decide

/-- V-TMR-17 (R105). -/
theorem test_tmr_read_selector :
    after (.tmrRead 0 7) booted (fun t => (t.fault, t.faultInfo)) =
      some (some .operandRange, 0x0300070000000000#64) := by decide

/-- R161: the target of channel 1 alone changes. -/
theorem test_set_duty :
    after (.setDuty 1 128) booted (fun t => (t.mux.pwm, t.hpc)) =
      some ([⟨0, 0, false⟩, ⟨128, 0, false⟩, ⟨0, 0, false⟩], 1) := by decide

/-- V-PWM-6 (R161). -/
theorem test_set_duty_range :
    after (.setDuty 0 256) booted (fun t => (t.fault, t.faultInfo)) =
      some (some .operandRange, 0x1000000000000100#64) := by decide

/-- The end of P2 (R170). -/
theorem test_read_analog :
    after (.readAnalog 1) { booted with mux := { booted.mux with analog := [⟨0, 0, 12⟩, ⟨0, 0, 400⟩] } } (fun t => t.res) =
      some 400 := by decide

/-- P5: READ_MAINT keeps the flag, CLR_MAINT clears it (R171, R172). -/
theorem test_read_maint :
    after .readMaint { booted with mux := { booted.mux with maintDue := true } } (fun t => (t.res, t.mux.maintDue)) =
      some (1, true) := by decide

theorem test_clr_maint :
    after .clrMaint { booted with mux := { booted.mux with maintDue := true } } (fun t => (t.mux.maintDue, t.hpc)) =
      some (false, 1) := by decide

/-- V-SRV-1: a width of 3000 is stored unclamped (R202). -/
theorem test_set_servo : after (.setServo 2 3000) booted (fun t => t.servo.chans.map (·.width)) = some [0, 0, 3000, 0] := by
  decide

/-- V-SRV-2 (R202). -/
theorem test_set_servo_range :
    after (.setServo 4 1000) booted (fun t => (t.fault, t.faultInfo)) =
      some (some .operandRange, 0x20040000000003E8#64) := by decide

theorem test_set_adv_active : after (.setAdvActive 1) booted (fun t => (t.adv.active, t.hpc)) = some (true, 1) := by decide

/-- V-ADV-4 (R231). -/
theorem test_set_adv_active_range : after (.setAdvActive 2) booted (fun t => t.fault) = some (some .operandRange) := by
  decide

/-- V-ADV-1's ADV_ADD_OWED -2 (R82, R232). -/
theorem test_adv_add_owed : after (.advAddOwed 0xFFFFFFFE) booted (fun t => t.adv.owed.toInt) = some (-2) := by decide

/-- V-ADV-4 (R232). -/
theorem test_adv_add_owed_range :
    after (.advAddOwed 1) { booted with adv := { booted.adv with owed := 2147483647 } }
      (fun t => (t.fault, t.faultInfo, t.adv.owed)) =
      some (some .operandRange, 0x3100000000000001#64, 2147483647) := by decide

/-- S5's SET_ADV_COMP -2 (R82, R233). -/
theorem test_set_adv_comp : after (.setAdvComp 0xFFFFFFFE) booted (fun t => t.adv.comp.toInt) = some (-2) := by decide

theorem test_set_adv_interval :
    after (.setAdvInterval 200) booted (fun t => (t.adv.interval, t.timers.adv.rld)) = some (200, 4200) := by decide

/-- V-ADV-4 under [TB=16] (R234). -/
theorem test_set_adv_interval_range :
    after (.setAdvInterval 70000) (bootedWith narrow) (fun t => t.fault) = some (some .operandRange) := by decide

/-- P3's first row (R261). -/
theorem test_us_read : after .usRead { booted with usCnt := 0xFFFFFFF8 } (fun t => t.res) = some 0xFFFFFFF8#64 := by decide

/-- U4 (R262). -/
theorem test_wait_us : after (.waitUs 255) (clockAt 3 none) (fun t => (t.waitf, t.hpc)) = some (some ⟨3, 2, .one⟩, 0) := by
  decide

/-- U3 (R262). -/
theorem test_wait_us_range :
    after (.waitUs 256) (clockAt 0 none) (fun t => (t.fault, t.faultInfo)) =
      some (some .waitRange, 0x4100000000000100#64) := by decide

/-- V-US-9 (R265): 2 past 250, and 130 not past 2. -/
theorem test_us_reached :
    after (.usReached 250) (clockAt 2 none) (fun t => t.res) = some 1 ∧
    after (.usReached 2) (clockAt 130 none) (fun t => t.res) = some 0 := by decide

theorem test_irq_disable : after .irqDisable booted (fun t => (t.gie, t.hpc)) = some (false, 1) := by decide
theorem test_irq_enable : after .irqEnable .reset (fun t => (t.gie, t.hpc)) = some (true, 1) := by decide

/-- V-TMR-22 (R106): COUNT 5 with RLD 3. -/
theorem test_tick_late :
    after (.tick 0) { booted with timers := { booted.timers with step := { chan 3 0 with count := 5 } } }
      (fun t => (t.timers.step.count, t.timers.step.pend)) = some (0, true) := by decide

theorem test_tick_counts :
    after (.tick 0) booted (fun t => (t.timers.step.count, t.timers.step.pend)) = some (1, false) := by decide

/-- The overflow case of T5 (R260). -/
theorem test_clk_tick_wraps : after .clkTick (clockAt 255 none) (fun t => t.usCnt) = some 0 := by decide

/-- PWM and SERVO pending. -/
def bothPending (prio : BitVec 4) : State :=
  { booted with timers := { booted.timers with
      pwm := { chan 10500 2 with pend := true }, servo := { chan 210000 prio with pend := true } } }

/-- X2 (R305, R308): equal PRIO, so PWM is taken first, and SERVO cannot be. -/
theorem test_dispatch_tie :
    after (.dispatch 1) (bothPending 2) (fun t => (t.ctx, t.gie, t.timers.pwm.pend, t.timers.servo.pend)) =
      some ([⟨.pwm, .entered⟩], false, false, true) ∧
    after (.dispatch 2) (bothPending 2) (fun t => t.ctx) = none := by decide

/-- U5 and U7 (R263). -/
theorem test_wait_poll :
    after .waitPoll (clockAt 14 (some ⟨250, 4, .one⟩)) (fun t => (t.waitf, t.hpc)) = some (none, 1) ∧
    after .waitPoll (clockAt 100 (some ⟨100, 110, .two⟩)) (fun t => (t.waitf, t.hpc)) =
      some (some ⟨100, 110, .two⟩, 0) := by decide

/-- T1's first firing (R133). -/
theorem test_fire_step_stepping :
    after .fireStep (motion true [100] (inside .step booted))
      (fun t => (t.timers.step.rld, t.stepper, t.gie, t.ctx, t.trace)) =
      some (100, ⟨true, .stepping, 0⟩, true, [⟨.step, .tail⟩], [.stepExec]) := by decide

/-- S5 (R135): ADV_OWED = 0 + (-1)(-2) = 2, so no DRIVER_DISABLE. -/
theorem test_fire_step_folds :
    after .fireStep (motion false [] (inside .step { booted with adv := { booted.adv with comp := -2 } }))
      (fun t => (t.adv.owed.toInt, t.adv.comp, t.trace, t.stepper.guard, t.ctx)) = some (2, 0, [], false, []) := by decide

/-- T6, step 9 (R136). -/
theorem test_step_tail :
    after .stepTail { booted with ctx := [⟨.step, .tail⟩], stepper := ⟨true, .stepping, 0⟩ }
      (fun t => (t.stepper.guard, t.ctx, t.gie)) = some (false, [], true) := by decide

/-- T2's first firing (R163): duties 0, 128 and 255 at counter value 0. -/
theorem test_fire_pwm_latch :
    after .firePwm (inside .pwm { bootedWith bare with mux := { (bootedWith bare).mux with
        pwm := [⟨0, 9, true⟩, ⟨128, 9, false⟩, ⟨255, 9, false⟩] } })
      (fun t => (t.mux.pwm, t.mux.pwmCnt, t.mux.tickCnt, t.trace)) =
      some ([⟨0, 0, false⟩, ⟨128, 128, true⟩, ⟨255, 255, true⟩], 1, 1, []) := by decide

/-- V-ANA-8 (R166): a raw sample of 1024 is out of range; the whole firing is discarded. -/
theorem test_fire_pwm_range :
    after .firePwm (adc [true] [1024] (inside .pwm booted))
      (fun t => (t.fault, t.faultInfo, t.mux.pwmCnt, t.ctx, t.gie)) =
      some (some .oracleRange, 0x9201000000000000#64, 0, [⟨.pwm, .entered⟩], false) := by decide

/-- The servo generator with V-SRV-1's widths, at a phase. -/
def servoAt (phase : BitVec 3) (high : Bool) (last : Nat) : State :=
  inside .servo { booted with servo := ⟨[⟨1500, high⟩, ⟨0, false⟩, ⟨3000, false⟩, ⟨100, false⟩], phase, last⟩ }

/-- V-SRV-1, firings 1 and 2 (R203, R204). -/
theorem test_fire_servo :
    after .fireServo (servoAt 0 false 0) (fun t => (t.timers.servo.rld, t.servo.phase, t.servo.chans.map (·.out))) =
      some (63000, 1, [true, false, false, false]) ∧
    after .fireServo (servoAt 1 true 63000) (fun t => (t.timers.servo.rld, t.servo.phase, t.servo.chans.map (·.out))) =
      some (147000, 2, [false, false, false, false]) := by decide

/-- V-SRV-1, firings 5 and 7: the clamp at both ends (R203). -/
theorem test_fire_servo_clamp :
    after .fireServo (servoAt 4 false 0) (fun t => t.timers.servo.rld) = some 105000 ∧
    after .fireServo (servoAt 6 false 0) (fun t => t.timers.servo.rld) = some 21000 := by decide

/-- V-ADV-1, firing 1 (R237). -/
theorem test_fire_adv_direction :
    after .fireAdv (advancing (-2) .forward 200)
      (fun t => (t.adv.owed.toInt, t.adv.dir, t.adv.dirOut, t.timers.adv.rld, t.trace)) =
      some (-2, .reverse, false, 210, [.advDirSet .minus]) := by decide

/-- V-ADV-1, firing 2 (R238). -/
theorem test_fire_adv_step :
    after .fireAdv (advancing (-2) .reverse 200)
      (fun t => (t.adv.owed.toInt, t.adv.dir, t.timers.adv.rld, t.trace)) =
      some (-1, .reverse, 200, [.advStep .minus]) := by decide

/-! Witnesses: for every statement of the certificates that has hypotheses, a state and operands that meet them all
together, clause by clause where it has clauses. -/

/-! Encoding. -/

theorem witness_DecodeEncodeRoundTrip :
    Instr.wellFormed (.dispatch 3) = true ∧ Instr.wellFormed (.cfg 255 255 (-1)) = true := by decide

theorem witness_EncodeDecodeUnique :
    decodeWord 0x8003000000000000#64 = .ok (.tick 3) ∧ decodeWord 0x32000000FFFFFFFF#64 = .ok (.setAdvComp (-1)) := by
  decide

theorem witness_IllegalWordRaises :
    let s : State := turnOf .cpu { booted with env := { booted.env with prog := [0x8000000000000000#64] } }
    agentAt s.env = .cpu ∧ MainReady s ∧ s.env.prog[s.hpc]? = some 0x8000000000000000#64 ∧
      ∀ i : Instr, i.isCommand = true → 0x8000000000000000#64 ≠ encode i := by
  refine ⟨by decide, main_of (by decide), by decide, fun i hi h => ?_⟩
  have := congrArg opField h
  cases i <;> first
    | exact Bool.noConfusion hi
    | (simp only [encode, opField_assemble] at this; exact absurd this (by decide))

theorem witness_WordBytesLittleEndian : (0 : Nat) < 8 ∧ (7 : Nat) < 8 := by decide

/-! The step of an agent. -/

/-- A program of one word, with the CPU's turn. -/
def programmed (w : Word) : State := turnOf .cpu { booted with env := { booted.env with prog := [w] } }

theorem witness_StepRunsDecodedCommand :
    let s := programmed 0x5000000000000000#64
    agentAt s.env = .cpu ∧ MainReady s ∧ s.env.prog[s.hpc]? = some 0x5000000000000000#64 ∧
      decodeCommand 0x5000000000000000#64 = .ok .irqDisable :=
  ⟨by decide, main_of (by decide), by decide, by decide⟩

/-- The source that R305 selects when PWM and SERVO are pending with equal PRIO. -/
theorem selected_tie : Selected (bothPending 2) .pwm := by
  refine ⟨by unfold CanTake; decide, fun u hu => ?_⟩
  cases u
  · exact absurd hu (by unfold CanTake; decide)
  · exact .inl rfl
  · exact .inr (by unfold Before; decide)
  · exact absurd hu (by unfold CanTake; decide)

theorem selected_turn : Selected (turnOf .cpu (bothPending 2)) .pwm := selected_tie

theorem witness_StepRunsEnabledEvent :
    booted.fault = none ∧
    (agentAt (turnOf (.timer .adv) booted).env = .timer .adv ∧ present booted.params .adv = true ∧
      (booted.timers.get .adv).en = true) ∧
    agentAt (turnOf .clock booted).env = .clock ∧
    agentAt (turnOf .cpu booted).env = .cpu ∧
    Selected (turnOf .cpu (bothPending 2)) .pwm ∧
    HandlerReady ⟨.step, .entered⟩ [] (turnOf .cpu (inside .step booted)) ∧
    HandlerReady ⟨.step, .tail⟩ [] (turnOf .cpu { booted with ctx := [⟨.step, .tail⟩] }) ∧
    HandlerReady ⟨.pwm, .entered⟩ [] (turnOf .cpu (inside .pwm booted)) ∧
    HandlerReady ⟨.servo, .entered⟩ [] (turnOf .cpu (inside .servo booted)) ∧
    HandlerReady ⟨.adv, .entered⟩ [] (turnOf .cpu (inside .adv booted)) ∧
    PollReady (turnOf .cpu (clockAt 4 (some ⟨250, 4, .one⟩))) :=
  ⟨by decide, by decide, by decide, by decide, selected_turn, handler_of rfl (by decide) rfl,
    handler_of rfl (by decide) rfl, handler_of rfl (by decide) rfl, handler_of rfl (by decide) rfl,
    handler_of rfl (by decide) rfl, poll_of (by decide)⟩

theorem witness_IdleTurnPasses :
    ((turnOf (.timer .adv) (.resetWith bare)).fault = none ∧
      agentAt (turnOf (.timer .adv) (.resetWith bare)).env = .timer .adv ∧ present bare .adv = false) ∧
    ((turnOf (.timer .step) .reset).fault = none ∧ agentAt (turnOf (.timer .step) .reset).env = .timer .step ∧
      (State.reset.timers.get .step).en = false) ∧
    ((turnOf .cpu .reset).fault = none ∧ agentAt (turnOf .cpu .reset).env = .cpu ∧ MainReady (turnOf .cpu .reset) ∧
      (turnOf .cpu .reset).env.prog.length ≤ (turnOf .cpu .reset).hpc) :=
  ⟨by decide, by decide, by decide, by decide, main_of (by decide), by decide⟩

theorem witness_HaltedBlockHasNoStep : { booted with fault := some .waitRange }.fault = some .waitRange := by decide

theorem witness_RaiseDiscardsEveryOtherEffect :
    (∃ t, exec (.setDuty 3 10) booted = .next t ∧ t.fault = some .operandRange) ∧
    (Instr.setDuty 3 10).isCommand = true ∧
    ∃ t, exec .fireStep (motion true [2 ^ 32] (inside .step booted)) = .next t ∧ t.fault = some .oracleRange :=
  ⟨after_some (view := fun t => t.fault) (by decide), by decide, after_some (view := fun t => t.fault) (by decide)⟩

theorem witness_SelectionPicksMostUrgent : (bothPending 2).fault = none ∧ Selected (bothPending 2) .pwm :=
  ⟨by decide, selected_tie⟩

/-! Interrupts and contexts. -/

theorem witness_DispatchTakesInterrupt : (bothPending 2).fault = none ∧ Selected (bothPending 2) .pwm :=
  ⟨by decide, selected_tie⟩

theorem witness_IrqDisableClearsGie : MainReady booted := main_of (by decide)

theorem witness_IrqEnableSetsGie : MainReady .reset := main_of (by decide)

/-- A step firing nested in its own tail (T6, step 6). -/
def nested : State :=
  { booted with ctx := [⟨.step, .entered⟩, ⟨.step, .tail⟩], gie := false, stepper := ⟨true, .stepping, 0⟩ }

theorem witness_NestedFireStepReturns :
    HandlerReady ⟨.step, .entered⟩ [⟨.step, .tail⟩] nested ∧ nested.stepper.guard = true :=
  ⟨handler_of rfl (by decide) rfl, by decide⟩

theorem witness_StepTailCompletesFiring :
    HandlerReady ⟨.step, .tail⟩ [] { booted with ctx := [⟨.step, .tail⟩], stepper := ⟨true, .stepping, 0⟩ } :=
  handler_of rfl (by decide) rfl

theorem witness_StepKeepsContextRule : CtxOk (turnOf .cpu nested) ∧ ∃ t, step (turnOf .cpu nested) = .next t ∧
    t.ctx = [⟨.step, .tail⟩] := by
  refine ⟨⟨?_, ?_, ?_, by decide, ?_⟩, afterStep_some (view := fun t => t.ctx) (by decide)⟩
  all_goals simp [turnOf, nested, booted, bootedWith, chan, PerTimer.get]

/-! The timer manager. -/

/-- Each clause of CFG: absent channel, priority 16, frequency 0 and one above every prescaler, and at priority 15 the
last of the prescalers that is tried. -/
theorem witness_CfgConfiguresOrRaises :
    MainReady (.resetWith bare) ∧ MainReady (.resetWith narrow) ∧
    (∀ t, present bare t = true → (2 : Byte) ≠ timerNumber t) ∧
    (∀ t, present narrow t = true → (4 : Byte) ≠ timerNumber t) ∧
    present narrow .adv = true ∧ 15 < (16 : Byte).toNat ∧ (15 : Byte).toNat ≤ 15 ∧
    (∀ q ∈ narrow.prescalers, narrow.baseClock.step / (q.toNat * (42000001 : Imm).toNat) = 0 ∨
      2 ^ narrow.timerBits - 1 < narrow.baseClock.step / (q.toNat * (42000001 : Imm).toNat)) ∧
    (640 : Imm) ≠ 0 ∧ narrow.prescalers = [2] ++ 8 :: [32, 128] ∧
    2 ^ narrow.timerBits - 1 < narrow.baseClock.step / ((2 : BitVec 32).toNat * (640 : Imm).toNat) ∧
    1 ≤ narrow.baseClock.step / ((8 : BitVec 32).toNat * (640 : Imm).toNat) ∧
    narrow.baseClock.step / ((8 : BitVec 32).toNat * (640 : Imm).toNat) ≤ 2 ^ narrow.timerBits - 1 := by
  refine ⟨main_of (by decide), main_of (by decide), ?_, ?_, by decide, by decide, by decide, ?_, by decide⟩
  · intro t; cases t <;> decide
  · intro t; cases t <;> decide
  · simp [narrow, Params.reference]

theorem witness_CfgWithinOneCount :
    ∃ u, exec (.cfg (timerNumber .step) 15 640) (.resetWith narrow) = .next u ∧ u.fault = none :=
  after_some (view := fun t => t.fault) (by decide)

theorem witness_RearmRewritesReload :
    MainReady (bootedWith narrow) ∧ MainReady (.resetWith narrow) ∧
    (∀ t, present narrow t = true → (4 : Byte) ≠ timerNumber t) ∧
    present narrow .step = true ∧ ((State.resetWith narrow).timers.get .step).en = false ∧
    ((bootedWith narrow).timers.get .step).en = true ∧ 2 ^ narrow.timerBits - 1 < (65536 : Imm).toNat ∧
    (65535 : Imm).toNat ≤ 2 ^ narrow.timerBits - 1 ∧ (0 : Imm).toNat ≤ 2 ^ narrow.timerBits - 1 := by
  refine ⟨main_of (by decide), main_of (by decide), ?_, by decide⟩
  intro t; cases t <;> decide

theorem witness_TmrReadReturnsField :
    MainReady booted ∧ (∀ t, present booted.params t = true → (4 : Byte) ≠ timerNumber t) ∧
    present booted.params .adv = true ∧ 6 < (7 : Byte).toNat ∧
    [2, 1000, 1, 1, 0, 0, 0][(6 : Byte).toNat]? = some 0 ∧ [2, 1000, 1, 1, 0, 0, 0][(0 : Byte).toNat]? = some 2 := by
  refine ⟨main_of (by decide), ?_, by decide⟩
  intro t; cases t <;> decide

theorem witness_TickCountsOrMatches :
    booted.fault = none ∧ present booted.params .adv = true ∧ (booted.timers.get .adv).en = true := by decide

theorem witness_MatchEveryReloadTicks :
    booted.fault = none ∧ present booted.params .step = true ∧ (booted.timers.get .step).en = true ∧
      (booted.timers.get .step).count = 0 ∧ 1 ≤ (booted.timers.get .step).rld := by decide

/-! The stepper pacer. -/

theorem witness_SteppingBranchTakesOneStep :
    (HandlerReady ⟨.step, .entered⟩ [] (motion true [2 ^ 32] (inside .step booted)) ∧
      (inside .step booted).stepper.guard = false ∧
      pendingAnswer (motion true [2 ^ 32] (inside .step booted)).env = true ∧
      2 ^ booted.params.timerBits - 1 < stepAnswer (drewPending (motion true [2 ^ 32] (inside .step booted)).env)) ∧
    HandlerReady ⟨.step, .entered⟩ [] (motion true [2 ^ 32 - 1] (inside .step booted)) ∧
      pendingAnswer (motion true [2 ^ 32 - 1] (inside .step booted)).env = true ∧
      stepAnswer (drewPending (motion true [2 ^ 32 - 1] (inside .step booted)).env) ≤
        2 ^ booted.params.timerBits - 1 :=
  ⟨⟨handler_of rfl (by decide) rfl, by decide⟩, handler_of rfl (by decide) rfl, by decide⟩

/-- The stepper handler entered with the motion queue empty, in a state of the pacer. -/
def emptied (p : Params) (c : Stepper) (a : Advance) : State :=
  motion false [] (inside .step { bootedWith p with stepper := c, adv := a })

theorem witness_EmptyFiringCountsRelaxDown :
    HandlerReady ⟨.step, .entered⟩ [] (emptied .reference ⟨false, .stepping, 0⟩ .reset) ∧
    HandlerReady ⟨.step, .entered⟩ [] (emptied .reference ⟨false, .relaxing, 2⟩ .reset) ∧
    pendingAnswer (emptied .reference ⟨false, .stepping, 0⟩ .reset).env = false ∧
    1 ≤ Params.reference.stepIdleTicks ∧ Params.reference.stepIdleTicks ≤ 2 ^ Params.reference.timerBits - 1 ∧
    Params.reference.relaxTicks.toNat = (1 : BitVec 16).toNat + 1 ∧
    (2 : BitVec 16).toNat = (1 : BitVec 16).toNat + 1 ∧ (1 : BitVec 16) ≠ 0 :=
  ⟨handler_of rfl (by decide) rfl, handler_of rfl (by decide) rfl, by decide⟩

/-- Each way to Idle, and each outcome of the fold: absent pacer, a sum at the top of the range, one past it. -/
theorem witness_IdleFiringFoldsAndDisables :
    HandlerReady ⟨.step, .entered⟩ [] (emptied bare ⟨false, .idle, 0⟩ .reset) ∧
    HandlerReady ⟨.step, .entered⟩ [] (emptied .reference ⟨false, .relaxing, 1⟩ ⟨false, 2147483646, -1, 0, .unknown, false⟩) ∧
    HandlerReady ⟨.step, .entered⟩ []
      (emptied { Params.reference with relaxTicks := 1 } ⟨false, .stepping, 0⟩
        ⟨false, 2147483647, -1, 0, .unknown, false⟩) ∧
    pendingAnswer (emptied bare ⟨false, .idle, 0⟩ .reset).env = false ∧
    bare.advancePresent = false ∧ Params.reference.advancePresent = true ∧ Params.reference.advFoldSign = .minus ∧
    (2147483646 : BitVec 32).toInt + -1 * (-1 : BitVec 32).toInt = 2 ^ 31 - 1 ∧
    2 ^ 31 - 1 < (2147483647 : BitVec 32).toInt + -1 * (-1 : BitVec 32).toInt ∧
    1 ≤ bare.stepIdleTicks ∧ bare.stepIdleTicks ≤ 2 ^ bare.timerBits - 1 ∧ (1 : BitVec 16).toNat ≤ 1 :=
  ⟨handler_of rfl (by decide) rfl, handler_of rfl (by decide) rfl, handler_of rfl (by decide) rfl, by decide⟩

/-! The PWM and sampling multiplexer. -/

theorem witness_SetDutyWritesTarget :
    MainReady booted ∧ booted.params.nPwm ≤ (3 : Byte).toNat ∧ 255 < (256 : Imm).toNat ∧
    (2 : Byte).toNat < booted.params.nPwm ∧ (255 : Imm).toNat ≤ 255 ∧
    booted.mux.pwm[(2 : Byte).toNat]? = some ⟨0, 0, false⟩ :=
  ⟨main_of (by decide), by decide⟩

theorem witness_FirePwmWithoutSample :
    (HandlerReady ⟨.pwm, .entered⟩ [] (inside .pwm (bootedWith bare)) ∧ (bootedWith bare).params.nAnalog = 0) ∧
    HandlerReady ⟨.pwm, .entered⟩ [] (adc [false] [] (inside .pwm booted)) ∧
    readyAnswer (adc [false] [] (inside .pwm booted)).env booted.mux.adcPos = false :=
  ⟨⟨handler_of rfl (by decide) rfl, by decide⟩, handler_of rfl (by decide) rfl, by decide⟩

/-- The PWM handler entered at an analog channel with this many samples, the next one ready. -/
def sampling (scnt v : Nat) : State :=
  adc [true] [v] (inside .pwm { booted with mux := { booted.mux with analog := [⟨0, scnt, 0⟩, ⟨0, 0, 0⟩] } })

/-- Each clause: a sample of 1024, a third sample of 1023, the fourth of 1023. -/
theorem witness_FirePwmAcceptsSample :
    HandlerReady ⟨.pwm, .entered⟩ [] (sampling 0 1024) ∧ HandlerReady ⟨.pwm, .entered⟩ [] (sampling 2 1023) ∧
    HandlerReady ⟨.pwm, .entered⟩ [] (sampling 3 1023) ∧ booted.params.nAnalog ≠ 0 ∧
    readyAnswer (sampling 0 1024).env 0 = true ∧ (sampling 3 1023).mux.analog[(0 : Byte).toNat]? = some ⟨0, 3, 0⟩ ∧
    2 ^ booted.params.adcBits ≤ valueAnswer (drewReady (sampling 0 1024).env) 0 ∧
    valueAnswer (drewReady (sampling 3 1023).env) 0 < 2 ^ booted.params.adcBits ∧
    2 + 1 ≠ 2 ^ booted.params.oversampleK ∧ 3 + 1 = 2 ^ booted.params.oversampleK :=
  ⟨handler_of rfl (by decide) rfl, handler_of rfl (by decide) rfl, handler_of rfl (by decide) rfl, by decide⟩

/-- The PWM handler entered at counter value c, duty target 1 on channel 0, a match at every tick. -/
def pwmAt (c : BitVec 8) : State :=
  inside .pwm { bootedWith bare with
    timers := { (bootedWith bare).timers with pwm := chan 1 2 }
    mux := { (bootedWith bare).mux with pwm := [⟨1, 0, false⟩], pwmCnt := c } }

theorem witness_PwmWaveformLaw :
    (pwmAt 0).mux.pwmCnt = 0 ∧ (pwmAt 0).mux.pwm[0]? = some ⟨1, 0, false⟩ ∧
    (∃ s1 t, exec .firePwm (pwmAt 0) = .next s1 ∧
      runLabels [.tick 1, .dispatch 1, .firePwm] s1 = .next t ∧ t.fault = none) ∧
    [Instr.tick 1, .dispatch 1, .firePwm].count .firePwm ≤ 255 := by
  refine ⟨by decide, by decide, ?_, by decide⟩
  obtain ⟨t, h, hf⟩ := afterRun_some (view := fun t => t.fault) (a := none)
    (l := [.firePwm, .tick 1, .dispatch 1, .firePwm]) (s := pwmAt 0) (by decide)
  simp only [runLabels] at h
  split at h
  · exact ⟨_, t, ‹_›, h, hf⟩
  · cases h
  · cases h

theorem witness_DutyTargetsLatchOnlyAtCycleStart :
    (pwmAt 1).mux.pwmCnt ≠ 0 ∧ ∃ t, exec .firePwm (pwmAt 1) = .next t ∧ t.mux.pwmCnt = 2 :=
  ⟨by decide, after_some (view := fun t => t.mux.pwmCnt) (by decide)⟩

/-- Two samples per average (K = 1), the converter ready with 1023 twice, a PWM match at every tick. -/
def averaging : State :=
  adc (List.replicate (2 ^ 1) true ++ [false]) (List.replicate (2 ^ 1) 1023 ++ [])
    { bootedWith { Params.reference with oversampleK := 1 } with
        timers := { booted.timers with pwm := chan 1 2 } }

theorem witness_AnalogAverageLaw :
    averaging.params.nAnalog ≠ 0 ∧ averaging.mux.analog[averaging.mux.adcPos.toNat]? = some ⟨0, 0, 0⟩ ∧
    averaging.env.readyIn = List.replicate (2 ^ averaging.params.oversampleK) true ++ [false] ∧
    averaging.env.valueIn = List.replicate (2 ^ averaging.params.oversampleK) 1023 ++ [] ∧
    1023 < 2 ^ averaging.params.adcBits ∧
    (∃ t, runLabels [.tick 1, .dispatch 1, .firePwm, .tick 1, .dispatch 1, .firePwm] averaging = .next t ∧
      t.fault = none) ∧
    [Instr.tick 1, .dispatch 1, .firePwm, .tick 1, .dispatch 1, .firePwm].count .firePwm =
      2 ^ averaging.params.oversampleK :=
  ⟨by decide, by decide, by decide, by decide, by decide, afterRun_some (view := fun t => t.fault) (by decide),
    by decide⟩

theorem witness_NormalizedAverageFits :
    1 ≤ Params.reference.adcBits ∧ 1 ≤ Params.reference.outBits ∧
      4092 ≤ (2 ^ Params.reference.adcBits - 1) * 2 ^ Params.reference.oversampleK := by decide

theorem witness_ReadAnalogReturnsAverage :
    MainReady booted ∧ booted.params.nAnalog ≤ (2 : Byte).toNat ∧ (1 : Byte).toNat < booted.params.nAnalog ∧
      booted.mux.analog[(1 : Byte).toNat]? = some ⟨0, 0, 0⟩ :=
  ⟨main_of (by decide), by decide⟩

theorem witness_MaintenanceFlagReadAndClear : MainReady { booted with mux := { booted.mux with maintDue := true } } :=
  main_of (by decide)

/-! The servo generator. -/

theorem witness_SetServoStoresWidth :
    MainReady (.resetWith bare) ∧ MainReady booted ∧ bare.servoPresent = false ∧ booted.params.servoPresent = true ∧
    booted.params.nServo ≤ (4 : Byte).toNat ∧ 65535 < (65536 : Imm).toNat ∧
    (3 : Byte).toNat < booted.params.nServo ∧ (65535 : Imm).toNat ≤ 65535 ∧
    booted.servo.chans[(3 : Byte).toNat]? = some ⟨0, false⟩ :=
  ⟨main_of (by decide), main_of (by decide), by decide⟩

/-- A servo handler entered under [TB=16] with prescaler 2, where 2500 us is 105000 ticks. -/
def shortServo (phase : BitVec 3) : State :=
  inside .servo { bootedWith narrow with servo := ⟨[⟨0, false⟩, ⟨0, false⟩, ⟨0, false⟩, ⟨500, false⟩], phase, 0⟩ }

/-- Each clause: 105000 ticks above the 16-bit RELOAD_MAX, and 63000 within the 32-bit one. -/
theorem witness_ServoHighPhase :
    HandlerReady ⟨.servo, .entered⟩ [] (shortServo 0) ∧ (shortServo 0).servo.phase.toNat = 2 * 0 ∧
    (shortServo 0).servo.chans[0]? = some ⟨0, false⟩ ∧ (shortServo 0).timers.servo.psc ≠ 0 ∧
    2 ^ narrow.timerBits - 1 < 2500 * narrow.baseClock.servo / (2 * 1000000) ∧
    HandlerReady ⟨.servo, .entered⟩ [] (shortServo 6) ∧ (shortServo 6).servo.phase.toNat = 2 * 3 ∧
    (shortServo 6).servo.chans[3]? = some ⟨500, false⟩ ∧ 3 < narrow.nServo ∧
    500 * narrow.baseClock.servo / (2 * 1000000) ≤ 2 ^ narrow.timerBits - 1 :=
  ⟨handler_of rfl (by decide) rfl, by decide, by decide, by decide, by decide, handler_of rfl (by decide) rfl,
    by decide⟩

theorem witness_ServoLowPhase :
    HandlerReady ⟨.servo, .entered⟩ [] (shortServo 7) ∧ (shortServo 7).servo.phase.toNat = 2 * 3 + 1 ∧
    (shortServo 7).servo.chans[3]? = some ⟨500, false⟩ ∧ (shortServo 7).timers.servo.psc ≠ 0 ∧
    210000 = 5000 * narrow.baseClock.servo / ((2 : BitVec 32).toNat * 1000000) ∧
    2 ^ narrow.timerBits - 1 < 210000 - (shortServo 7).servo.lastHigh ∧
    HandlerReady ⟨.servo, .entered⟩ [] (servoAt 1 true 63000) ∧ (servoAt 1 true 63000).servo.phase.toNat = 2 * 0 + 1 ∧
    (servoAt 1 true 63000).servo.chans[0]? = some ⟨1500, true⟩ ∧
    210000 - (servoAt 1 true 63000).servo.lastHigh ≤ 2 ^ booted.params.timerBits - 1 :=
  ⟨handler_of rfl (by decide) rfl, by decide, by decide, by decide, by decide, by decide,
    handler_of rfl (by decide) rfl, by decide⟩

/-- The first high phase of V-SRV-1, at the last tick before the match that follows it. -/
def frameStart : State :=
  let s := servoAt 0 false 0
  { s with timers := { s.timers with servo := { s.timers.servo with count := 62999 } } }

theorem witness_ServoFrameLaw :
    ServoBoot frameStart ∧ frameStart.servo.phase.toNat % 2 = 0 ∧
    ∃ s1 s2 t, exec .fireServo frameStart = .next s1 ∧ runLabels [.tick 2, .dispatch 2] s1 = .next s2 ∧
      Instr.fireServo ∉ [Instr.tick 2, .dispatch 2] ∧ s2.timers.servo.psc = frameStart.timers.servo.psc ∧
      exec .fireServo s2 = .next t := by
  refine ⟨by unfold ServoBoot; decide, by decide, ?_⟩
  obtain ⟨s1, h1, e1⟩ := after_some (i := .fireServo) (s := frameStart) (a := some (2, some 147000))
    (view := fun s1 => afterRun [.tick 2, .dispatch 2] s1
      fun s2 => (s2.timers.servo.psc, after .fireServo s2 fun t => t.timers.servo.rld)) (by decide)
  obtain ⟨s2, h2, e2⟩ := afterRun_some e1
  obtain ⟨t, h3, -⟩ := after_some (Prod.ext_iff.mp e2).2
  exact ⟨s1, s2, t, h1, h2, by decide, (Prod.ext_iff.mp e2).1, h3⟩

theorem witness_StepKeepsOneServoHigh :
    (∀ c ch, (turnOf .clock (servoAt 1 true 63000)).servo.chans[c]? = some ch → ch.out = true →
      (turnOf .clock (servoAt 1 true 63000)).servo.phase.toNat = 2 * c + 1) ∧
    ∃ t, step (turnOf .clock (servoAt 1 true 63000)) = .next t ∧ t.usCnt = 1 := by
  refine ⟨fun c ch hc ho => ?_, afterStep_some (view := fun t => t.usCnt) (by decide)⟩
  rcases c with _ | _ | _ | _ | c
  · rfl
  all_goals
    simp [turnOf, servoAt, inside] at hc
  all_goals
    subst hc
    cases ho

/-! The advance pacer. -/

theorem witness_SetAdvActiveWritesFlag :
    MainReady (.resetWith bare) ∧ MainReady booted ∧ bare.advancePresent = false ∧
    booted.params.advancePresent = true ∧ 1 < (2 : Imm).toNat ∧ (1 : Imm).toNat ≤ 1 :=
  ⟨main_of (by decide), main_of (by decide), by decide⟩

theorem witness_AdvAddOwedAddsExactly :
    MainReady (.resetWith bare) ∧ bare.advancePresent = false ∧
    MainReady { booted with adv := { booted.adv with owed := 2147483646 } } ∧
    2 ^ 31 - 1 < (2147483646 : BitVec 32).toInt + (2 : Imm).toInt ∧
    (2147483646 : BitVec 32).toInt + (1 : Imm).toInt ≤ 2 ^ 31 - 1 ∧
    -2 ^ 31 ≤ (2147483646 : BitVec 32).toInt + (1 : Imm).toInt ∧
    MainReady { booted with adv := { booted.adv with owed := -2147483648 } } ∧
    (-2147483648 : BitVec 32).toInt + (-1 : Imm).toInt < -2 ^ 31 :=
  ⟨main_of (by decide), by decide, main_of (by decide), by decide, by decide, by decide, main_of (by decide),
    by decide⟩

theorem witness_SetAdvCompAndInterval :
    MainReady (.resetWith bare) ∧ bare.advancePresent = false ∧ MainReady (bootedWith narrow) ∧
    narrow.advancePresent = true ∧ 2 ^ narrow.timerBits - 1 < (65536 : Imm).toNat ∧
    (65535 : Imm).toNat ≤ 2 ^ narrow.timerBits - 1 :=
  ⟨main_of (by decide), by decide, main_of (by decide), by decide⟩

/-- Each of the six clauses, with one step or none owed. -/
theorem witness_FireAdvFourCases :
    (HandlerReady ⟨.adv, .entered⟩ [] (inside .adv booted) ∧ booted.adv.active = false) ∧
    (HandlerReady ⟨.adv, .entered⟩ [] (advancing 0 .unknown 200) ∧ (advancing 0 .unknown 200).adv.active = true ∧
      (advancing 0 .unknown 200).adv.interval ≤ 2 ^ booted.params.timerBits - 1) ∧
    (HandlerReady ⟨.adv, .entered⟩ [] (advancing 1 .unknown 200) ∧ 0 < (1 : BitVec 32).toInt ∧
      (advancing 1 .unknown 200).adv.dir ≠ .forward) ∧
    (HandlerReady ⟨.adv, .entered⟩ [] (advancing (-1) .forward 200) ∧ (-1 : BitVec 32).toInt < 0 ∧
      (advancing (-1) .forward 200).adv.dir ≠ .reverse) ∧
    (HandlerReady ⟨.adv, .entered⟩ [] (advancing 1 .forward (2 ^ 32 - 1)) ∧
      (advancing 1 .forward (2 ^ 32 - 1)).adv.interval ≤ 2 ^ booted.params.timerBits - 1) ∧
    HandlerReady ⟨.adv, .entered⟩ [] (advancing (-1) .reverse 0) :=
  ⟨⟨handler_of rfl (by decide) rfl, by decide⟩, ⟨handler_of rfl (by decide) rfl, by decide⟩,
    ⟨handler_of rfl (by decide) rfl, by decide⟩, ⟨handler_of rfl (by decide) rfl, by decide⟩,
    ⟨handler_of rfl (by decide) rfl, by decide⟩, handler_of rfl (by decide) rfl⟩

/-- One step owed forward from Unknown, with the match after the direction change one tick away. -/
def owingOne : State :=
  let s := advancing 1 .unknown 0
  { s with timers := { s.timers with adv := { s.timers.adv with count := 9 } } }

theorem witness_AdvHysteresisLaw :
    owingOne.adv.active = true ∧ owingOne.adv.owed.toInt = 1 * ((1 : Nat) : Int) ∧
    (∀ i ∈ [Instr.fireAdv, .tick 3, .dispatch 3, .fireAdv],
      i ≠ .fireStep ∧ (∀ x, i ≠ .advAddOwed x) ∧ ∀ x, i ≠ .setAdvActive x) ∧
    ∃ t, runLabels [.fireAdv, .tick 3, .dispatch 3, .fireAdv] owingOne = .next t ∧ t.fault = none := by
  refine ⟨by decide, by decide, ?_, afterRun_some (view := fun t => t.fault) (by decide)⟩
  simp

/-! The microsecond clock. -/

theorem witness_ClkTickCountsModuloRange :
    (clockAt 255 none).fault = none ∧ (clockAt 255 none).usCnt < 2 ^ narrow.usBits := by decide

theorem witness_UsReadReturnsCounter : MainReady (clockAt 255 none) := main_of (by decide)

/-- Each clause at [US_BITS=8]: 256 does not fit; from 3, 253 wraps and 252 does not. -/
theorem witness_WaitUsRecordsGoal :
    MainReady (clockAt 3 none) ∧ 2 ^ narrow.usBits ≤ (256 : Imm).toNat * narrow.usTicksPerUs ∧
    (253 : Imm).toNat * narrow.usTicksPerUs < 2 ^ narrow.usBits ∧
    2 ^ narrow.usBits ≤ (clockAt 3 none).usCnt + (253 : Imm).toNat * narrow.usTicksPerUs ∧
    (clockAt 3 none).usCnt + (252 : Imm).toNat * narrow.usTicksPerUs < 2 ^ narrow.usBits :=
  ⟨main_of (by decide), by decide⟩

/-- Each clause, for the wait of T5's overflow case: at the goal, one before it, and before the wrap. -/
theorem witness_WaitPollTwoPhase :
    (PollReady (clockAt 4 (some ⟨250, 4, .one⟩)) ∧ (clockAt 4 none).usCnt < 250 ∧ 4 ≤ (clockAt 4 none).usCnt) ∧
    (PollReady (clockAt 3 (some ⟨250, 4, .two⟩)) ∧ (clockAt 3 none).usCnt < 4) ∧
    PollReady (clockAt 250 (some ⟨250, 4, .one⟩)) ∧ 250 ≤ (clockAt 250 none).usCnt :=
  ⟨⟨poll_of (by decide), by decide⟩, ⟨poll_of (by decide), by decide⟩, poll_of (by decide), by decide⟩

/-- The two sides of the comparison, 127 and 128 past the goal 200, both across the wrap. -/
theorem witness_UsReachedComparesModularly :
    MainReady (clockAt 71 none) ∧ MainReady (clockAt 72 none) ∧ 2 ≤ narrow.usBits ∧
    (clockAt 72 none).usCnt < 2 ^ narrow.usBits ∧ 2 ^ narrow.usBits ≤ (256 : Imm).toNat ∧
    (200 : Imm).toNat < 2 ^ narrow.usBits ∧
    (clockAt 71 none).usCnt = ((200 : Imm).toNat + 127) % 2 ^ narrow.usBits ∧
    (clockAt 72 none).usCnt = ((200 : Imm).toNat + 128) % 2 ^ narrow.usBits ∧ 128 < 2 ^ narrow.usBits ∧
    127 < 2 ^ (narrow.usBits - 1) :=
  ⟨main_of (by decide), main_of (by decide), by decide⟩

/-- A wait of one tick that begins at 255: the goal wraps. -/
theorem witness_DensePollingWaitLaw :
    (clockAt 255 none).usCnt < 2 ^ narrow.usBits ∧ 1 ≤ (1 : Imm).toNat * narrow.usTicksPerUs ∧
    (∀ i ∈ [Instr.waitPoll, .clkTick, .waitPoll], i.isCommand = false) ∧
    DenselyPolled false [Instr.waitPoll, .clkTick, .waitPoll] ∧
    ∃ s0 t, exec (.waitUs 1) (clockAt 255 none) = .next s0 ∧ s0.fault = none ∧
      runLabels [.waitPoll, .clkTick, .waitPoll] s0 = .next t ∧ t.fault = none := by
  refine ⟨by decide, by decide, by decide, by simp [DenselyPolled], ?_⟩
  obtain ⟨s0, h0, e0⟩ := after_some (i := .waitUs 1) (s := clockAt 255 none) (a := (none, some none))
    (view := fun s0 => (s0.fault, afterRun [.waitPoll, .clkTick, .waitPoll] s0 fun t => t.fault)) (by decide)
  obtain ⟨t, ht, hf⟩ := afterRun_some (Prod.ext_iff.mp e0).2
  exact ⟨s0, t, h0, (Prod.ext_iff.mp e0).1, ht, hf⟩

/-! The whole block. -/

theorem witness_ResetHasInvariant : Params.reference.Legal := by
  refine ⟨by decide, ⟨by decide, ?_, by decide⟩, by decide⟩
  simp [Params.reference]

theorem witness_StepKeepsInvariant :
    BlockInv (turnOf .clock .reset) ∧ ∃ t, step (turnOf .clock .reset) = .next t ∧ t.usCnt = 1 := by
  refine ⟨?_, afterStep_some (view := fun t => t.usCnt) (by decide)⟩
  constructor
  · exact witness_ResetHasInvariant
  · intro t; cases t <;> constructor <;> first | (intro _; rfl) | (intro h; cases h)
  · constructor
    · exact .inl rfl
    · intro _ _ h; cases h
    · intro h; cases h
    · decide
    · intro _ h; cases h
  · exact ⟨fun _ => rfl, by intro h; cases h⟩
  · exact ⟨rfl, rfl, by decide, by decide, by decide⟩
  · refine ⟨rfl, ?_, ?_, by decide, by intro h; cases h⟩ <;> intro c ch hc h <;>
      rcases c with _ | _ | _ | _ | c <;> cases hc <;> first | rfl | cases h
  · exact ⟨by decide, by decide, by intro h; cases h⟩
  · constructor
    · decide
    · intro _ h; cases h
    · intro _ h; cases h
    · intro h; cases h
  · decide
  · intro _; rfl

theorem witness_OnlyReadsWriteRes : ∃ t, exec .usRead (clockAt 255 none) = .next t ∧ t.res ≠ (clockAt 255 none).res := by
  obtain ⟨t, h, e⟩ := after_some (i := .usRead) (s := clockAt 255 none) (view := fun t => t.res) (a := 255) (by decide)
  exact ⟨t, h, by rw [e]; decide⟩

/-- Each clause: an instruction that writes the cells it is about. -/
theorem witness_CellsHaveOnlyTheirWriters_block :
    changes .irqDisable booted (·.hpc) = true ∧ changes .fireStep nested (·.ctx) = true ∧
    changes (.dispatch 1) (bothPending 2) (·.gie) = true ∧ changes .fireStep nested (·.stepper) = false ∧
    changes .fireStep (motion true [0] (inside .step booted)) (·.stepper) = true ∧
    changes .clkTick booted (·.usCnt) = true ∧ changes (.waitUs 0) booted (·.waitf) = true := by decide

theorem witness_CellsHaveOnlyTheirWriters_timers :
    changes (.cfg 0 1 84) .reset (·.timers.step.psc) = true ∧ changes (.cfg 0 1 84) .reset (·.timers.step.prio) = true ∧
    changes (.cfg 0 1 84) .reset (·.timers.step.en) = true ∧ changes (.cfg 0 1 84) .reset (·.timers.step.ie) = true ∧
    changes .fireServo (servoAt 0 false 0) (·.timers.servo.rld) = true ∧
    changes (.tick 3) booted (·.timers.adv.count) = true ∧
    changes (.dispatch 1) (bothPending 2) (·.timers.pwm.pend) = true := by decide

theorem witness_CellsHaveOnlyTheirWriters_units :
    changes .firePwm (pwmAt 0) (·.mux.pwmCnt) = true ∧ changes .firePwm (pwmAt 0) (·.mux.pwm.map (·.lat)) = true ∧
    changes (.setDuty 0 1) booted (·.mux.pwm.map (·.tgt)) = true ∧
    changes .clrMaint { booted with mux := { booted.mux with maintDue := true } } (·.mux.maintDue) = true ∧
    changes .fireServo (servoAt 0 false 0) (·.servo.chans.map (·.out)) = true ∧
    changes (.setServo 0 1) booted (·.servo.chans.map (·.width)) = true := by decide

theorem witness_CellsHaveOnlyTheirWriters_advance :
    changes .fireAdv (advancing 1 .unknown 0) (·.adv.dir) = true ∧
    changes .fireAdv (advancing 1 .forward 0) (·.adv.owed) = true ∧
    changes (.setAdvComp 1) booted (·.adv.comp) = true ∧ changes (.setAdvInterval 1) booted (·.adv.interval) = true ∧
    changes (.setAdvActive 1) booted (·.adv.active) = true := by decide

theorem witness_TraceOnlyGrows :
    (∃ t, step (turnOf .clock booted) = .next t ∧ t.trace = []) ∧
    ∃ t, step (programmed 0x6000000000000000#64) = .next t ∧ t.fault = some .illegalCommand :=
  ⟨afterStep_some (view := fun t => t.trace) (by decide), afterStep_some (view := fun t => t.fault) (by decide)⟩

end Sys2Proof.Tests
end

section
/-! PROOF. Proofs/Rearm.lean: REARM (R103, R104), one equation per check of its body and one for its effect. -/

namespace Sys2Proof.Machine

variable {s : State} {ch : Byte} {t : Timer} {ticks : Imm}

theorem exec_rearm_ready (h : MainReady s) : exec (.rearm ch ticks) s =
    .next (settle s (0x02#8 ++ ch ++ 0#8 ++ 0#8 ++ ticks) (rearmBody ch ticks s)) :=
  runCommand_ready h (.rearm ch ticks) _

/-- The first check of R104, on the channel operand. -/
theorem rearmBody_absent (h : ∀ t, present s.params t = true → ch ≠ timerNumber t) :
    rearmBody ch ticks s = .error .notPresent := by
  rw [rearmBody, presentTimer_eq_none h]

/-- What is left of REARM once the channel is known to be present: its EN check, then REARM_INT. -/
theorem rearmBody_present (hp : present s.params t = true) : rearmBody (timerNumber t) ticks s =
    if (s.timers.get t).en = false then .error .notConfigured
    else (rearmInt t (immNat ticks) s).map advanceHost := by
  rw [rearmBody, presentTimer_eq_some.mpr ⟨rfl, hp⟩]

theorem rearmBody_unconfigured (hp : present s.params t = true) (hen : (s.timers.get t).en = false) :
    rearmBody (timerNumber t) ticks s = .error .notConfigured := by
  rw [rearmBody_present hp, if_pos hen]

theorem rearmBody_configured (hp : present s.params t = true) (hen : (s.timers.get t).en = true) :
    rearmBody (timerNumber t) ticks s = (rearmInt t (immNat ticks) s).map advanceHost := by
  rw [rearmBody_present hp, if_neg (by simp [hen])]

theorem rearmBody_range (hp : present s.params t = true) (hen : (s.timers.get t).en = true)
    (hr : reloadMax s.params < immNat ticks) : rearmBody (timerNumber t) ticks s = .error .operandRange := by
  rw [rearmBody_configured hp hen, rearmInt_error.mpr ⟨hr, rfl⟩]
  rfl

theorem rearmBody_rewrites (hp : present s.params t = true) (hen : (s.timers.get t).en = true)
    (hr : immNat ticks ≤ reloadMax s.params) : rearmBody (timerNumber t) ticks s =
      .ok (advanceHost (setTimer t { s.timers.get t with rld := max 1 (immNat ticks) } s)) := by
  rw [rearmBody_configured hp hen, rearmInt_ok.mpr ⟨hr, rfl⟩]
  rfl

/-- The minimum of one tick of R103 changes the operand 0 only. -/
theorem max_one_immNat (v : Imm) : max 1 (immNat v) = if v = 0 then 1 else v.toNat := by
  split
  case isTrue h => rw [h]; rfl
  case isFalse h =>
    have hpos : v.toNat ≠ 0 := fun h0 => h (BitVec.eq_of_toNat_eq h0)
    exact Nat.max_eq_right (Nat.one_le_iff_ne_zero.mpr hpos)

/-- Settles O21: the four outcomes of the body of REARM, in the order of its checks. -/
theorem rearmRewritesReload : Obligations.RearmRewritesReload := by
  intro s ch ticks hready w
  rw [exec_rearm_ready hready]
  refine ⟨fun habsent => ?absent, ?_⟩
  case absent =>
    rw [rearmBody_absent habsent]
    rfl
  rintro t rfl hp
  refine ⟨fun hen => ?unconfigured, fun hen hr => ?range, fun hen hr => ?rewrites⟩
  case unconfigured =>
    rw [rearmBody_unconfigured hp hen]
    rfl
  case range =>
    rw [rearmBody_range hp hen hr]
    rfl
  case rewrites =>
    rw [rearmBody_rewrites hp hen hr, max_one_immNat]
    rfl

end Sys2Proof.Machine
end

section
/-! PROOF. Proofs/StepTail.lean: STEP_TAIL (R136), from the effect of the return sequence on a known CTX. -/

namespace Sys2Proof.Machine

variable {s : State} {e : CtxEntry} {rest : List CtxEntry}

/-- `return_from_handler()` (R311) when the top entry of CTX is known: that entry is dropped. -/
theorem returnFromHandler_of_ctx (h : s.ctx = e :: rest) :
    returnFromHandler s = { s with ctx := rest, gie := true } := by
  rw [returnFromHandler, h]
  rfl

theorem exec_stepTail_ready (h : HandlerReady ⟨.step, .tail⟩ rest s) :
    exec .stepTail s = .next (returnFromHandler (setStepper { s.stepper with guard := false } s)) :=
  runEvent_ready (handlerReady_tail h) _ _

/-- Settles O17: an enabled STEP_TAIL never raises, and clearing GUARD leaves CTX as it was for the return to pop. -/
theorem stepTailCompletesFiring : Obligations.StepTailCompletesFiring := by
  intro s rest hready
  have hctx : (setStepper { s.stepper with guard := false } s).ctx = ⟨.step, .tail⟩ :: rest :=
    handlerReady_ctx hready
  rw [exec_stepTail_ready hready, returnFromHandler_of_ctx hctx]
  rfl

end Sys2Proof.Machine
end

section
/-! PROOF. Proofs/MuxCommands.lean: the host commands of the multiplexer, SET_DUTY (R161), READ_ANALOG (R170),
READ_MAINT and CLR_MAINT (R171, R172): one equation per outcome of each body. -/

namespace Sys2Proof.Machine

variable {s : State} {i j : Byte} {d : Imm}

/-! SET_DUTY. -/

theorem exec_setDuty_ready (h : MainReady s) : exec (.setDuty i d) s =
    .next (settle s (0x10#8 ++ i ++ 0#8 ++ 0#8 ++ d) (setDutyBody i d s)) :=
  runCommand_ready h (.setDuty i d) _

/-- Both checks of R161 raise the same fault, so their order does not show. -/
theorem setDutyBody_range (h : s.params.nPwm ≤ i.toNat ∨ 255 < d.toNat) :
    setDutyBody i d s = .error .operandRange := by
  rw [setDutyBody]
  by_cases hchan : s.params.nPwm ≤ i.toNat
  case pos => rw [if_pos hchan]
  case neg =>
    have hduty : 255 < immNat d := h.resolve_left hchan
    rw [if_neg hchan, if_pos hduty]

theorem setDutyBody_writes {c : PwmChan} (hchan : i.toNat < s.params.nPwm) (hduty : d.toNat ≤ 255)
    (hc : s.mux.pwm[i.toNat]? = some c) : setDutyBody i d s =
      .ok (advanceHost (setMux
        { s.mux with pwm := s.mux.pwm.set i.toNat { c with tgt := BitVec.ofNat 8 d.toNat } } s)) := by
  have hfits : ¬ 255 < immNat d := Nat.not_lt.mpr hduty
  rw [setDutyBody, if_neg (Nat.not_le.mpr hchan), if_neg hfits, List.modify_eq_set_getElem?, hc, BitVec.ofNat_toNat]
  rfl

/-- Settles O28: the two outcomes of the body of SET_DUTY. -/
theorem setDutyWritesTarget : Obligations.SetDutyWritesTarget := by
  intro s i d hready
  rw [exec_setDuty_ready hready]
  refine ⟨fun hrange => ?range, fun hchan hduty c hc => ?writes⟩
  case range =>
    rw [setDutyBody_range hrange]
    rfl
  case writes =>
    rw [setDutyBody_writes hchan hduty hc]
    rfl

/-! READ_ANALOG. -/

theorem exec_readAnalog_ready (h : MainReady s) : exec (.readAnalog j) s =
    .next (settle s (0x11#8 ++ j ++ 0#8 ++ 0#8 ++ 0#32) (readAnalogBody j s)) :=
  runCommand_ready h (.readAnalog j) _

theorem readAnalogBody_range (h : s.params.nAnalog ≤ j.toNat) : readAnalogBody j s = .error .operandRange := by
  rw [readAnalogBody, if_pos h]

theorem readAnalogBody_reads {ch : AnalogChan} (hchan : j.toNat < s.params.nAnalog)
    (hch : s.mux.analog[j.toNat]? = some ch) :
    readAnalogBody j s = .ok (advanceHost (setRes (resultOf ch.avg) s)) := by
  rw [readAnalogBody, if_neg (Nat.not_le.mpr hchan), hch]
  rfl

/-- Settles O35: the two outcomes of the body of READ_ANALOG. -/
theorem readAnalogReturnsAverage : Obligations.ReadAnalogReturnsAverage := by
  intro s j hready
  rw [exec_readAnalog_ready hready]
  refine ⟨fun hrange => ?range, fun hchan ch hch => ?reads⟩
  case range =>
    rw [readAnalogBody_range hrange]
    rfl
  case reads =>
    rw [readAnalogBody_reads hchan hch]
    rfl

/-! READ_MAINT and CLR_MAINT. -/

theorem exec_readMaint_ready (h : MainReady s) : exec .readMaint s =
    .next (advanceHost (setRes (resultOf (bitNat s.mux.maintDue)) s)) :=
  runCommand_ready h .readMaint _

theorem exec_clrMaint_ready (h : MainReady s) : exec .clrMaint s =
    .next (advanceHost (setMux { s.mux with maintDue := false } s)) :=
  runCommand_ready h .clrMaint _

/-- A flag in RES, as READ_MAINT returns it (R171): the word 1 or 0. -/
theorem resultOf_bitNat (b : Bool) : resultOf (bitNat b) = if b then 1 else 0 := by
  cases b <;> rfl

/-- Settles O36: neither command can raise, and of the two only CLR_MAINT writes MAINT_DUE. -/
theorem maintenanceFlagReadAndClear : Obligations.MaintenanceFlagReadAndClear := by
  intro s hready
  refine ⟨?reads, ?clears⟩
  case reads =>
    rw [exec_readMaint_ready hready, resultOf_bitNat]
    rfl
  case clears =>
    rw [exec_clrMaint_ready hready]
    rfl

end Sys2Proof.Machine
end

section
/-! PROOF. Proofs/SetServo.lean: SET_SERVO (R202), one equation per outcome of its body. -/

namespace Sys2Proof.Machine

variable {s : State} {c : Byte} {us : Imm}

theorem exec_setServo_ready (h : MainReady s) : exec (.setServo c us) s =
    .next (settle s (0x20#8 ++ c ++ 0#8 ++ 0#8 ++ us) (setServoBody c us s)) :=
  runCommand_ready h (.setServo c us) _

/-- The first check of R202, on the unit. -/
theorem setServoBody_absent (h : s.params.servoPresent = false) : setServoBody c us s = .error .notPresent := by
  rw [setServoBody, if_pos h]

/-- The channel and width checks of R202 raise the same fault, so their order does not show. -/
theorem setServoBody_range (hp : s.params.servoPresent = true) (h : s.params.nServo ≤ c.toNat ∨ 65535 < us.toNat) :
    setServoBody c us s = .error .operandRange := by
  rw [setServoBody, if_neg (by simp [hp])]
  by_cases hchan : s.params.nServo ≤ c.toNat
  case pos => rw [if_pos hchan]
  case neg =>
    have hwidth : 65535 < immNat us := h.resolve_left hchan
    rw [if_neg hchan, if_pos hwidth]

theorem setServoBody_writes {ch : ServoChan} (hp : s.params.servoPresent = true) (hchan : c.toNat < s.params.nServo)
    (hwidth : us.toNat ≤ 65535) (hch : s.servo.chans[c.toNat]? = some ch) : setServoBody c us s =
      .ok (advanceHost (setServo
        { s.servo with chans := s.servo.chans.set c.toNat { ch with width := BitVec.ofNat 16 us.toNat } } s)) := by
  have hfits : ¬ 65535 < immNat us := Nat.not_lt.mpr hwidth
  rw [setServoBody, if_neg (by simp [hp]), if_neg (Nat.not_le.mpr hchan), if_neg hfits,
    List.modify_eq_set_getElem?, hch, BitVec.ofNat_toNat]
  rfl

/-- Settles O37: the three outcomes of the body of SET_SERVO, in the order of its checks. -/
theorem setServoStoresWidth : Obligations.SetServoStoresWidth := by
  intro s c us hready w
  rw [exec_setServo_ready hready]
  refine ⟨fun habsent => ?absent, fun hp hrange => ?range, fun hp hchan hwidth ch hch => ?writes⟩
  case absent =>
    rw [setServoBody_absent habsent]
    rfl
  case range =>
    rw [setServoBody_range hp hrange]
    rfl
  case writes =>
    rw [setServoBody_writes hp hchan hwidth hch]
    rfl

end Sys2Proof.Machine
end

section
/-! PROOF. Proofs/AdvanceCommands.lean: the host commands of the advance pacer, SET_ADV_ACTIVE (R231), ADV_ADD_OWED
(R232), SET_ADV_COMP (R233) and SET_ADV_INTERVAL (R234): one equation per outcome of each body. -/

namespace Sys2Proof.Machine

variable {s : State} {b n t : Imm}

/-! SET_ADV_ACTIVE. -/

theorem exec_setAdvActive_ready (h : MainReady s) : exec (.setAdvActive b) s =
    .next (settle s (0x30#8 ++ 0#8 ++ 0#8 ++ 0#8 ++ b) (setAdvActiveBody b s)) :=
  runCommand_ready h (.setAdvActive b) _

/-- The first check of R231, on the unit. -/
theorem setAdvActiveBody_absent (h : s.params.advancePresent = false) :
    setAdvActiveBody b s = .error .notPresent := by
  rw [setAdvActiveBody, if_pos h]

theorem setAdvActiveBody_range (hp : s.params.advancePresent = true) (hr : 1 < immNat b) :
    setAdvActiveBody b s = .error .operandRange := by
  rw [setAdvActiveBody, if_neg (by simp [hp]), if_pos hr]

theorem setAdvActiveBody_writes (hp : s.params.advancePresent = true) (hr : immNat b ≤ 1) :
    setAdvActiveBody b s = .ok (advanceHost (setAdv { s.adv with active := immNat b == 1 } s)) := by
  rw [setAdvActiveBody, if_neg (by simp [hp]), if_neg (Nat.not_lt.mpr hr)]

/-- Settles O42: the three outcomes of the body of SET_ADV_ACTIVE, in the order of its checks. -/
theorem setAdvActiveWritesFlag : Obligations.SetAdvActiveWritesFlag := by
  intro s b hready w
  rw [exec_setAdvActive_ready hready]
  refine ⟨fun habsent => ?absent, fun hp hr => ?range, fun hp hr => ?writes⟩
  case absent =>
    rw [setAdvActiveBody_absent habsent]
    rfl
  case range =>
    rw [setAdvActiveBody_range hp hr]
    rfl
  case writes =>
    rw [setAdvActiveBody_writes hp hr]
    rfl

/-! ADV_ADD_OWED. -/

theorem exec_advAddOwed_ready (h : MainReady s) : exec (.advAddOwed n) s =
    .next (settle s (0x31#8 ++ 0#8 ++ 0#8 ++ 0#8 ++ n) (advAddOwedBody n s)) :=
  runCommand_ready h (.advAddOwed n) _

/-- The range check of R135 and R232 as bounds on the sum. -/
theorem fitsSigned32_iff {v : Int} : fitsSigned32 v = true ↔ -2 ^ 31 ≤ v ∧ v ≤ 2 ^ 31 - 1 := by
  rw [fitsSigned32, Bool.and_eq_true, decide_eq_true_iff, decide_eq_true_iff]
  norm_num

/-- A sum that passes the range check is held exactly by a 32-bit cell. -/
theorem toInt_ofInt_of_fitsSigned32 {v : Int} (h : fitsSigned32 v = true) : (BitVec.ofInt 32 v).toInt = v := by
  obtain ⟨hlow, hhigh⟩ := fitsSigned32_iff.mp h
  exact BitVec.toInt_ofInt_eq_self (by decide) hlow (by omega)

/-- The first check of R232, on the unit. -/
theorem advAddOwedBody_absent (h : s.params.advancePresent = false) : advAddOwedBody n s = .error .notPresent := by
  rw [advAddOwedBody, if_pos h]

theorem advAddOwedBody_range (hp : s.params.advancePresent = true)
    (hr : ¬ fitsSigned32 (s.adv.owed.toInt + immInt n) = true) : advAddOwedBody n s = .error .operandRange := by
  rw [advAddOwedBody, if_neg (by simp [hp])]
  exact if_neg hr

theorem advAddOwedBody_adds (hp : s.params.advancePresent = true)
    (hr : fitsSigned32 (s.adv.owed.toInt + immInt n) = true) : advAddOwedBody n s =
      .ok (advanceHost (setAdv { s.adv with owed := BitVec.ofInt 32 (s.adv.owed.toInt + immInt n) } s)) := by
  rw [advAddOwedBody, if_neg (by simp [hp])]
  exact if_pos hr

/-- Settles O43: the three outcomes of the body of ADV_ADD_OWED; a sum within the range loses nothing in the cell. -/
theorem advAddOwedAddsExactly : Obligations.AdvAddOwedAddsExactly := by
  intro s n hready w v
  rw [exec_advAddOwed_ready hready]
  refine ⟨fun habsent => ?absent, fun hp hr => ?range, fun hp hlow hhigh => ?adds⟩
  case absent =>
    rw [advAddOwedBody_absent habsent]
    rfl
  case range =>
    have hout : ¬ fitsSigned32 v = true := by
      rw [fitsSigned32_iff]
      omega
    rw [advAddOwedBody_range hp hout]
    rfl
  case adds =>
    have hfits : fitsSigned32 v = true := fitsSigned32_iff.mpr ⟨hlow, hhigh⟩
    refine ⟨BitVec.ofInt 32 v, toInt_ofInt_of_fitsSigned32 hfits, ?_⟩
    rw [advAddOwedBody_adds hp hfits]
    rfl

/-! SET_ADV_COMP. -/

theorem exec_setAdvComp_ready (h : MainReady s) : exec (.setAdvComp n) s =
    .next (settle s (0x32#8 ++ 0#8 ++ 0#8 ++ 0#8 ++ n) (setAdvCompBody n s)) :=
  runCommand_ready h (.setAdvComp n) _

/-- The only check of R233, on the unit. -/
theorem setAdvCompBody_absent (h : s.params.advancePresent = false) : setAdvCompBody n s = .error .notPresent := by
  rw [setAdvCompBody, if_pos h]

/-- The cell takes the operand's own bits: its signed value always fits. -/
theorem setAdvCompBody_writes (hp : s.params.advancePresent = true) :
    setAdvCompBody n s = .ok (advanceHost (setAdv { s.adv with comp := n } s)) := by
  rw [setAdvCompBody, if_neg (by simp [hp]), immInt, BitVec.ofInt_toInt]

/-! SET_ADV_INTERVAL. -/

theorem exec_setAdvInterval_ready (h : MainReady s) : exec (.setAdvInterval t) s =
    .next (settle s (0x33#8 ++ 0#8 ++ 0#8 ++ 0#8 ++ t) (setAdvIntervalBody t s)) :=
  runCommand_ready h (.setAdvInterval t) _

/-- The first check of R234, on the unit. -/
theorem setAdvIntervalBody_absent (h : s.params.advancePresent = false) :
    setAdvIntervalBody t s = .error .notPresent := by
  rw [setAdvIntervalBody, if_pos h]

theorem setAdvIntervalBody_range (hp : s.params.advancePresent = true) (hr : reloadMax s.params < immNat t) :
    setAdvIntervalBody t s = .error .operandRange := by
  rw [setAdvIntervalBody, if_neg (by simp [hp]), if_pos hr]

theorem setAdvIntervalBody_writes (hp : s.params.advancePresent = true) (hr : immNat t ≤ reloadMax s.params) :
    setAdvIntervalBody t s = .ok (advanceHost (setAdv { s.adv with interval := immNat t } s)) := by
  rw [setAdvIntervalBody, if_neg (by simp [hp]), if_neg (Nat.not_lt.mpr hr)]

/-- Settles O44: the outcomes of the two bodies, SET_ADV_COMP without a range check; neither writes a timer cell. -/
theorem setAdvCompAndInterval : Obligations.SetAdvCompAndInterval := by
  intro s n hready w2 w3
  rw [exec_setAdvComp_ready hready, exec_setAdvInterval_ready hready]
  refine ⟨fun habsent => ?absent, fun hp => ?comp, fun hp hr => ?range, fun hp hr => ?interval⟩
  case absent =>
    rw [setAdvCompBody_absent habsent, setAdvIntervalBody_absent habsent]
    exact ⟨rfl, rfl⟩
  case comp =>
    rw [setAdvCompBody_writes hp]
    rfl
  case range =>
    rw [setAdvIntervalBody_range hp hr]
    rfl
  case interval =>
    rw [setAdvIntervalBody_writes hp hr]
    rfl

end Sys2Proof.Machine
end

section
/-! PROOF. Proofs/Clock.lean: the microsecond clock, CLK_TICK (R260), US_READ (R261), WAIT_US (R262), WAIT_POLL (R263)
and US_REACHED (R265): the arithmetic of the wrapping counter, then one equation per outcome of each body. -/

namespace Sys2Proof.Machine

variable {s : State} {g us : Imm} {r : WaitRec} {p : Params} {c d k n range : Nat}

/-! US_REACHED. -/

/-- The two cases are whether the way from the goal n to the counter crosses the wrap. -/
theorem usDiff_of_past (hn : n < 2 ^ p.usBits) (hk : k < 2 ^ p.usBits) :
    usDiff p ((n + k) % 2 ^ p.usBits) n = k := by
  unfold usDiff
  generalize 2 ^ p.usBits = range at *
  by_cases hwrap : n + k < range
  case pos =>
    have hsum : n + k + range - n = k + range := by omega
    rw [Nat.mod_eq_of_lt hwrap, hsum, Nat.add_mod_right, Nat.mod_eq_of_lt hk]
  case neg =>
    have hmod : (n + k) % range = n + k - range := by
      rw [Nat.mod_eq_sub_mod (Nat.le_of_not_lt hwrap), Nat.mod_eq_of_lt (by omega)]
    have hsum : n + k - range + range - n = k := by omega
    rw [hmod, hsum, Nat.mod_eq_of_lt hk]

theorem exec_usReached_ready (h : MainReady s) : exec (.usReached g) s =
    .next (settle s (0x42#8 ++ 0#8 ++ 0#8 ++ 0#8 ++ g) (usReachedBody g s)) :=
  runCommand_ready h (.usReached g) _

theorem usReachedBody_range (h : 2 ^ s.params.usBits ≤ g.toNat) : usReachedBody g s = .error .operandRange :=
  if_pos h

theorem usReachedBody_compares (hg : g.toNat < 2 ^ s.params.usBits) (hk : k < 2 ^ s.params.usBits)
    (hcnt : s.usCnt = (g.toNat + k) % 2 ^ s.params.usBits) : usReachedBody g s =
      .ok (advanceHost (setRes (if k < 2 ^ (s.params.usBits - 1) then 1 else 0) s)) := by
  have hdiff : usDiff s.params s.usCnt (immNat g) = k := by
    rw [hcnt]
    exact usDiff_of_past hg hk
  have hfits : ¬ 2 ^ s.params.usBits ≤ immNat g := Nat.not_le.mpr hg
  rw [usReachedBody, if_neg hfits, resultOf_bitNat, usReachedFlag, hdiff]
  simp only [decide_eq_true_eq]

/-- Settles O51: the check on the goal, then the modular difference as the distance past it. -/
theorem usReachedComparesModularly : Obligations.UsReachedComparesModularly := by
  intro s g hready _ _
  rw [exec_usReached_ready hready]
  refine ⟨fun hrange => ?range, fun hg k hk hcnt => ?compares⟩
  case range =>
    rw [usReachedBody_range hrange]
    rfl
  case compares =>
    rw [usReachedBody_compares hg hk hcnt]
    rfl

/-! CLK_TICK. -/

/-- One count of a counter within its range: the modulus of R260 acts at the last value only. -/
theorem succ_mod_of_lt (h : c < range) : (c + 1) % range = if c + 1 = range then 0 else c + 1 := by
  split
  case isTrue hlast => rw [hlast, Nat.mod_self]
  case isFalse hbelow => exact Nat.mod_eq_of_lt (by omega)

theorem exec_clkTick_running (h : s.fault = none) : exec .clkTick s = .next (countUp s) :=
  whenEnabled_next.mpr ⟨h, rfl, rfl⟩

/-- Settles O47: CLK_TICK needs no context, only a block that is not halted. -/
theorem clkTickCountsModuloRange : Obligations.ClkTickCountsModuloRange := by
  intro s hfault hcnt
  rw [exec_clkTick_running hfault, countUp, succ_mod_of_lt hcnt]

/-! US_READ. -/

theorem exec_usRead_ready (h : MainReady s) :
    exec .usRead s = .next (advanceHost (setRes (resultOf s.usCnt) s)) :=
  runCommand_ready h .usRead _

/-- Settles O48: US_READ cannot raise. -/
theorem usReadReturnsCounter : Obligations.UsReadReturnsCounter :=
  fun _ hready => exec_usRead_ready hready

/-! WAIT_US. -/

theorem exec_waitUs_ready (h : MainReady s) : exec (.waitUs us) s =
    .next (settle s (0x41#8 ++ 0#8 ++ 0#8 ++ 0#8 ++ us) (waitUsBody us s)) :=
  runCommand_ready h (.waitUs us) _

theorem waitRecord_wrapped (h : range ≤ c + d) : waitRecord range c d = ⟨c, c + d - range, .one⟩ :=
  if_pos h

theorem waitRecord_unwrapped (h : c + d < range) : waitRecord range c d = ⟨c, c + d, .two⟩ :=
  if_neg (Nat.not_le.mpr h)

theorem waitUsBody_range (h : 2 ^ s.params.usBits ≤ scaled s.params us) : waitUsBody us s = .error .waitRange :=
  if_pos h

theorem waitUsBody_records (h : scaled s.params us < 2 ^ s.params.usBits) : waitUsBody us s =
    .ok (setWait (some (waitRecord (2 ^ s.params.usBits) s.usCnt (scaled s.params us))) s) :=
  if_neg (Nat.not_le.mpr h)

theorem waitUsBody_wrapped (h : scaled s.params us < 2 ^ s.params.usBits)
    (hwrap : 2 ^ s.params.usBits ≤ s.usCnt + scaled s.params us) : waitUsBody us s =
      .ok (setWait (some ⟨s.usCnt, s.usCnt + scaled s.params us - 2 ^ s.params.usBits, .one⟩) s) := by
  rw [waitUsBody_records h, waitRecord_wrapped hwrap]

theorem waitUsBody_unwrapped (h : scaled s.params us < 2 ^ s.params.usBits)
    (hbelow : s.usCnt + scaled s.params us < 2 ^ s.params.usBits) : waitUsBody us s =
      .ok (setWait (some ⟨s.usCnt, s.usCnt + scaled s.params us, .two⟩) s) := by
  rw [waitUsBody_records h, waitRecord_unwrapped hbelow]

/-- Settles O49: the check on the duration, then the record by whether its goal wraps. -/
theorem waitUsRecordsGoal : Obligations.WaitUsRecordsGoal := by
  intro s us hready d range
  rw [exec_waitUs_ready hready]
  refine ⟨fun hlong => ?long, fun hfits hwrap => ?wraps, fun hfits hbelow => ?below⟩
  case long =>
    rw [waitUsBody_range hlong]
    rfl
  case wraps =>
    rw [waitUsBody_wrapped hfits hwrap]
    rfl
  case below =>
    rw [waitUsBody_unwrapped hfits hbelow]
    rfl

/-! WAIT_POLL. -/

/-- After the wrap, seen by this poll or by an earlier one, the goal decides (R263). -/
theorem pollWait_wrapped (h : r.phase = .two ∨ c < r.start) :
    pollWait c r = ({ r with phase := .two }, decide (r.goal ≤ c)) := by
  obtain ⟨start, goal, phase⟩ := r
  cases phase with
  | one =>
    have hbelow : c < start := h.resolve_left (by simp)
    simp [pollWait, hbelow]
  | two => simp [pollWait]

/-- Before the wrap nothing is tested: the goal, itself beyond the wrap, is not compared. -/
theorem pollWait_unwrapped (hone : r.phase = .one) (h : r.start ≤ c) : pollWait c r = (r, false) := by
  simp [pollWait, hone, Nat.not_lt.mpr h]

theorem setWait_self : setWait s.waitf s = s := rfl

theorem pollBody_of_waitf (hr : s.waitf = some r) : pollBody s =
    if (pollWait s.usCnt r).2 then advanceHost (setWait none s) else setWait (some (pollWait s.usCnt r).1) s := by
  rw [pollBody, hr]

theorem pollBody_ends (hr : s.waitf = some r) (hwrapped : r.phase = .two ∨ s.usCnt < r.start)
    (hgoal : r.goal ≤ s.usCnt) : pollBody s = advanceHost (setWait none s) := by
  rw [pollBody_of_waitf hr, pollWait_wrapped hwrapped, if_pos (decide_eq_true hgoal)]

theorem pollBody_entersTwo (hr : s.waitf = some r) (hwrapped : r.phase = .two ∨ s.usCnt < r.start)
    (hgoal : s.usCnt < r.goal) : pollBody s = setWait (some { r with phase := .two }) s := by
  rw [pollBody_of_waitf hr, pollWait_wrapped hwrapped, if_neg (by simpa using hgoal)]

theorem pollBody_unwrapped (hr : s.waitf = some r) (hone : r.phase = .one) (hstart : r.start ≤ s.usCnt) :
    pollBody s = s := by
  rw [pollBody_of_waitf hr, pollWait_unwrapped hone hstart, if_neg Bool.false_ne_true, ← hr, setWait_self]

theorem exec_waitPoll_ready (h : PollReady s) : exec .waitPoll s = .next (pollBody s) :=
  runEvent_ready (pollReady_iff.mp h) _ _

/-- Settles O50: the three outcomes of a poll, none of which raises. -/
theorem waitPollTwoPhase : Obligations.WaitPollTwoPhase := by
  intro s r hready hr wrapped
  rw [exec_waitPoll_ready hready]
  refine ⟨fun hwrapped hgoal => ?ends, fun hwrapped hgoal => ?entersTwo, fun hone hstart => ?unwrapped⟩
  case ends =>
    rw [pollBody_ends hr hwrapped hgoal]
    rfl
  case entersTwo =>
    rw [pollBody_entersTwo hr hwrapped hgoal]
    rfl
  case unwrapped => rw [pollBody_unwrapped hr hone hstart]

end Sys2Proof.Machine
end

section
/-! PROOF. Proofs/Interrupts.lean: interrupt selection (R304, R305) and the critical section, IRQ_DISABLE (R314) and
IRQ_ENABLE (R315). Selection goes through the channels in the order of their numbers, so the proof keeps an invariant
over that order: after the channels below n, the best source so far is the first in dispatch order among them. -/

namespace Sys2Proof.Machine

variable {s : State} {t u v : Timer} {best : Option Timer} {n : Nat}

/-! The dispatch order (R305). -/

/-- The order as the lexicographic one of two numbers, the priority and the channel number. -/
theorem before_iff : Before s t u ↔
    (s.timers.get t).prio.toNat < (s.timers.get u).prio.toNat ∨
      ((s.timers.get t).prio.toNat = (s.timers.get u).prio.toNat ∧
        (timerNumber t).toNat < (timerNumber u).toNat) := by
  rw [Before, BitVec.toNat_inj]

theorem before_trans (htu : Before s t u) (huv : Before s u v) : Before s t v := by
  rw [before_iff] at *
  omega

theorem before_asymm (htu : Before s t u) : ¬ Before s u t := by
  rw [before_iff] at *
  omega

/-- Of two channels, the one with the smaller number goes first unless the other has the smaller priority. -/
theorem before_of_number_lt (hnum : (timerNumber t).toNat < (timerNumber u).toNat)
    (hprio : ¬ (s.timers.get u).prio.toNat < (s.timers.get t).prio.toNat) : Before s t u := by
  rw [before_iff]
  omega

/-! One channel of the selection. -/

theorem moreUrgent_not_ready (h : ¬ sourceReady s t = true) : moreUrgent s best t = best :=
  if_neg h

theorem moreUrgent_of_none (h : sourceReady s t = true) : moreUrgent s none t = some t :=
  if_pos h

theorem moreUrgent_of_some (h : sourceReady s t = true) : moreUrgent s (some u) t =
    if (s.timers.get t).prio.toNat < (s.timers.get u).prio.toNat then some t else some u :=
  if_pos h

/-- The best source so far, once the channels below n have been looked at: one of them, and every ready one of them
is it or comes after it. -/
def FirstBelow (s : State) (n : Nat) (best : Option Timer) : Prop :=
  (∀ b, best = some b → (timerNumber b).toNat < n) ∧
    ∀ u, (timerNumber u).toNat < n → sourceReady s u = true → ∃ b, best = some b ∧ (u = b ∨ Before s b u)

theorem firstBelow_zero : FirstBelow s 0 none :=
  ⟨fun _ h => (nomatch h), fun _ h => absurd h (Nat.not_lt_zero _)⟩

theorem number_lt_succ (h : (timerNumber u).toNat < (timerNumber t).toNat + 1) :
    u = t ∨ (timerNumber u).toNat < (timerNumber t).toNat := by
  rcases Nat.lt_succ_iff_lt_or_eq.mp h with hlt | heq
  · exact .inr hlt
  · exact .inl (timerNumber_injective (BitVec.eq_of_toNat_eq heq))

/-- A channel that is not ready leaves the best source as it was. -/
theorem firstBelow_skip (h : FirstBelow s (timerNumber t).toNat best) (hready : ¬ sourceReady s t = true) :
    FirstBelow s ((timerNumber t).toNat + 1) best := by
  obtain ⟨hbelow, hfirst⟩ := h
  refine ⟨fun b hb => Nat.lt_succ_of_lt (hbelow b hb), fun u hu hur => ?_⟩
  rcases number_lt_succ hu with rfl | hlt
  · exact absurd hur hready
  · exact hfirst u hlt hur

/-- A channel that comes before the best source so far takes its place. -/
theorem firstBelow_replace (h : FirstBelow s (timerNumber t).toNat best)
    (hbest : ∀ b, best = some b → Before s t b) : FirstBelow s ((timerNumber t).toNat + 1) (some t) := by
  obtain ⟨-, hfirst⟩ := h
  refine ⟨fun b hb => ?_, fun u hu hur => ⟨t, rfl, ?_⟩⟩
  · cases hb
    exact Nat.lt_succ_self _
  · rcases number_lt_succ hu with rfl | hlt
    · exact .inl rfl
    · obtain ⟨b, hb, rfl | hbu⟩ := hfirst u hlt hur
      · exact .inr (hbest u hb)
      · exact .inr (before_trans (hbest b hb) hbu)

/-- A channel that comes after the best source so far leaves it in its place. -/
theorem firstBelow_keep (h : FirstBelow s (timerNumber t).toNat (some u)) (hbefore : Before s u t) :
    FirstBelow s ((timerNumber t).toNat + 1) (some u) := by
  obtain ⟨hbelow, hfirst⟩ := h
  refine ⟨fun b hb => Nat.lt_succ_of_lt (hbelow b hb), fun v hv hvr => ?_⟩
  rcases number_lt_succ hv with rfl | hlt
  · exact ⟨u, rfl, .inr hbefore⟩
  · exact hfirst v hlt hvr

theorem moreUrgent_firstBelow (h : FirstBelow s (timerNumber t).toNat best) :
    FirstBelow s ((timerNumber t).toNat + 1) (moreUrgent s best t) := by
  by_cases hready : sourceReady s t = true
  case neg =>
    rw [moreUrgent_not_ready hready]
    exact firstBelow_skip h hready
  case pos =>
    cases best with
    | none =>
      rw [moreUrgent_of_none hready]
      exact firstBelow_replace h (fun _ hb => nomatch hb)
    | some b =>
      rw [moreUrgent_of_some hready]
      split
      case isTrue hprio =>
        refine firstBelow_replace h fun b' hb => ?_
        cases hb
        exact .inl hprio
      case isFalse hprio => exact firstBelow_keep h (before_of_number_lt (h.1 b rfl) hprio)

/-! The whole selection. -/

theorem selectSource_firstBelow : FirstBelow s 4 (selectSource s) :=
  moreUrgent_firstBelow (t := .adv) (moreUrgent_firstBelow (t := .servo)
    (moreUrgent_firstBelow (t := .pwm) (moreUrgent_firstBelow (t := .step) firstBelow_zero)))

theorem timerNumber_lt_four (u : Timer) : (timerNumber u).toNat < 4 := by
  cases u <;> decide

/-- A ready source has one selected that is it or comes before it. -/
theorem selectSource_of_ready (h : sourceReady s u = true) :
    ∃ b, selectSource s = some b ∧ (u = b ∨ Before s b u) :=
  selectSource_firstBelow.2 u (timerNumber_lt_four u) h

/-- R305: the selected source is the ready one that comes before every other ready one. -/
theorem selectSource_eq_some : selectSource s = some t ↔
    sourceReady s t = true ∧ ∀ u, sourceReady s u = true → u = t ∨ Before s t u := by
  constructor
  · intro hsel
    refine ⟨selectSource_ready hsel, fun u hu => ?_⟩
    obtain ⟨b, hb, hfirst⟩ := selectSource_of_ready hu
    rw [hsel] at hb
    cases hb
    exact hfirst
  · rintro ⟨hready, hfirst⟩
    obtain ⟨b, hb, rfl | hbt⟩ := selectSource_of_ready hready
    · exact hb
    · rcases hfirst b (selectSource_ready hb) with rfl | htb
      · exact hb
      · exact absurd htb (before_asymm hbt)

theorem canTake_iff : CanTake s t ↔ s.gie = true ∧ sourceReady s t = true := by
  simp only [CanTake, sourceReady, Bool.and_eq_true, and_assoc]

/-- The dispatch of R322, rule 2, is the source the cells select (R304, R305). -/
theorem dispatchable_iff_selected : dispatchable s = some t ↔ Selected s t := by
  rw [dispatchable_some, selectSource_eq_some]
  simp only [Selected, canTake_iff]
  constructor
  · rintro ⟨hgie, hready, hfirst⟩
    exact ⟨⟨hgie, hready⟩, fun u ⟨_, hu⟩ => hfirst u hu⟩
  · rintro ⟨⟨hgie, hready⟩, hfirst⟩
    exact ⟨hgie, hready, fun u hu => hfirst u ⟨hgie, hu⟩⟩

theorem cpuChoice_dispatch_iff_selected :
    cpuChoice s = .event (.dispatch (timerNumber t)) ↔ s.fault = none ∧ Selected s t := by
  rw [cpuChoice_dispatch, ← dispatchable_iff_selected]
  refine and_congr_right fun _ => ⟨?_, fun h => ⟨t, h, rfl⟩⟩
  rintro ⟨u, hu, hnum⟩
  rw [timerNumber_injective hnum]
  exact hu

/-- Settles O12: DISPATCH t is a step exactly when it is the CPU's choice, which is the selection of R305. -/
theorem selectionPicksMostUrgent : Obligations.SelectionPicksMostUrgent := by
  intro s t
  rw [exec_dispatch, ← cpuChoice_dispatch_iff_selected]
  constructor
  · rintro ⟨u, hu⟩
    exact (runEvent_next.mp hu).1
  · intro hchoice
    exact ⟨_, runEvent_ready hchoice _ _⟩

/-! IRQ_DISABLE and IRQ_ENABLE. -/

theorem exec_irqDisable_ready (h : MainReady s) : exec .irqDisable s = .next (advanceHost (setGie false s)) :=
  runCommand_ready h .irqDisable _

theorem exec_irqEnable_ready (h : MainReady s) : exec .irqEnable s = .next (advanceHost (setGie true s)) :=
  runCommand_ready h .irqEnable _

/-- Settles O14: IRQ_DISABLE cannot raise. -/
theorem irqDisableClearsGie : Obligations.IrqDisableClearsGie :=
  fun _ hready => exec_irqDisable_ready hready

/-- Settles O15: IRQ_ENABLE cannot raise. -/
theorem irqEnableSetsGie : Obligations.IrqEnableSetsGie :=
  fun _ hready => exec_irqEnable_ready hready

end Sys2Proof.Machine
end

section
/-! PROOF. Proofs/Footprint.lean: which cells an instruction writes. One rule per named operation of Machine/Ops.lean
says which group of cells it writes and that every other one stays; the footprint of an instruction is composed from
them, and a proof about a cell asks only whether the instruction's group list holds it. -/

namespace Sys2Proof.Machine

/-- The groups of cells of the block (R21 to R35), and the outside world's answers and turns (R36). -/
inductive Group where
  | env | res | hpc | ctx | gie | timers | stepper | mux | servo | adv | clock | wait | fault | trace
deriving DecidableEq

/-- From s to t only the cells of the groups ws change; the parameters and PROG never do, and TRACE only grows. -/
structure Only (ws : List Group) (s t : State) : Prop where
  params : t.params = s.params
  prog : t.env.prog = s.env.prog
  grows : s.trace <+: t.trace
  env : .env ∉ ws → t.env = s.env
  res : .res ∉ ws → t.res = s.res
  hpc : .hpc ∉ ws → t.hpc = s.hpc
  ctx : .ctx ∉ ws → t.ctx = s.ctx
  gie : .gie ∉ ws → t.gie = s.gie
  timers : .timers ∉ ws → t.timers = s.timers
  stepper : .stepper ∉ ws → t.stepper = s.stepper
  mux : .mux ∉ ws → t.mux = s.mux
  servo : .servo ∉ ws → t.servo = s.servo
  adv : .adv ∉ ws → t.adv = s.adv
  usCnt : .clock ∉ ws → t.usCnt = s.usCnt
  waitf : .wait ∉ ws → t.waitf = s.waitf
  fault : .fault ∉ ws → t.fault = s.fault
  faultInfo : .fault ∉ ws → t.faultInfo = s.faultInfo
  trace : .trace ∉ ws → t.trace = s.trace

variable {s t u : State} {ws vs : List Group} {i : Instr}

theorem only_refl : Only [] s s := by
  constructor <;> simp

theorem Only.mono (h : Only vs s t) (hsub : ∀ g ∈ vs, g ∈ ws) : Only ws s t where
  params := h.params
  prog := h.prog
  grows := h.grows
  env hg := h.env (mt (hsub _) hg)
  res hg := h.res (mt (hsub _) hg)
  hpc hg := h.hpc (mt (hsub _) hg)
  ctx hg := h.ctx (mt (hsub _) hg)
  gie hg := h.gie (mt (hsub _) hg)
  timers hg := h.timers (mt (hsub _) hg)
  stepper hg := h.stepper (mt (hsub _) hg)
  mux hg := h.mux (mt (hsub _) hg)
  servo hg := h.servo (mt (hsub _) hg)
  adv hg := h.adv (mt (hsub _) hg)
  usCnt hg := h.usCnt (mt (hsub _) hg)
  waitf hg := h.waitf (mt (hsub _) hg)
  fault hg := h.fault (mt (hsub _) hg)
  faultInfo hg := h.faultInfo (mt (hsub _) hg)
  trace hg := h.trace (mt (hsub _) hg)

/-- Two updates one after the other, both within the groups ws. -/
theorem Only.trans (h : Only ws s t) (h' : Only ws t u) : Only ws s u where
  params := h'.params.trans h.params
  prog := h'.prog.trans h.prog
  grows := h.grows.trans h'.grows
  env hg := (h'.env hg).trans (h.env hg)
  res hg := (h'.res hg).trans (h.res hg)
  hpc hg := (h'.hpc hg).trans (h.hpc hg)
  ctx hg := (h'.ctx hg).trans (h.ctx hg)
  gie hg := (h'.gie hg).trans (h.gie hg)
  timers hg := (h'.timers hg).trans (h.timers hg)
  stepper hg := (h'.stepper hg).trans (h.stepper hg)
  mux hg := (h'.mux hg).trans (h.mux hg)
  servo hg := (h'.servo hg).trans (h.servo hg)
  adv hg := (h'.adv hg).trans (h.adv hg)
  usCnt hg := (h'.usCnt hg).trans (h.usCnt hg)
  waitf hg := (h'.waitf hg).trans (h.waitf hg)
  fault hg := (h'.fault hg).trans (h.fault hg)
  faultInfo hg := (h'.faultInfo hg).trans (h.faultInfo hg)
  trace hg := (h'.trace hg).trans (h.trace hg)

/-! One rule per operation. -/

theorem only_setEnv {e : Env} (h : e.prog = s.env.prog) : Only [.env] s (setEnv e s) := by
  constructor <;> simp [h]

theorem only_setRes (v : Word) : Only [.res] s (setRes v s) := by
  constructor <;> simp

theorem only_advanceHost : Only [.hpc] s (advanceHost s) := by
  constructor <;> simp

theorem only_setGie (b : Bool) : Only [.gie] s (setGie b s) := by
  constructor <;> simp

theorem only_setTimer (tm : Timer) (c : TimerChan) : Only [.timers] s (setTimer tm c s) := by
  constructor <;> simp

theorem only_emit (e : OutEvent) : Only [.trace] s (emit e s) := by
  constructor <;> simp

theorem only_setWait (r : Option WaitRec) : Only [.wait] s (setWait r s) := by
  constructor <;> simp

theorem only_setStepper (c : Stepper) : Only [.stepper] s (setStepper c s) := by
  constructor <;> simp

theorem only_setMux (c : Mux) : Only [.mux] s (setMux c s) := by
  constructor <;> simp

theorem only_setServo (c : Servo) : Only [.servo] s (setServo c s) := by
  constructor <;> simp

theorem only_setAdv (c : Advance) : Only [.adv] s (setAdv c s) := by
  constructor <;> simp

theorem only_takeInterrupt (tm : Timer) : Only [.ctx, .gie, .timers] s (takeInterrupt tm s) := by
  constructor <;> simp

theorem only_returnFromHandler : Only [.ctx, .gie] s (returnFromHandler s) := by
  constructor <;> simp

theorem only_countUp : Only [.clock] s (countUp s) := by
  constructor <;> simp

theorem only_raiseFault (f : FaultCode) (w : Word) : Only [.fault] s (raiseFault f w s) := by
  constructor <;> simp

/-- A command's effect on one group, and the advance of hpc. -/
theorem Only.host {g : Group} (h : Only [g] s t) : Only [.hpc, g] s (advanceHost t) :=
  (h.mono (by simp)).trans (only_advanceHost.mono (by simp))

/-! The footprint of each instruction. -/

/-- The groups of cells that an instruction writes where it does not raise (R21 to R35). -/
def writes : Instr → List Group
  | .cfg _ _ _ | .rearm _ _ => [.hpc, .timers]
  | .tmrRead _ _ | .readAnalog _ | .readMaint | .usRead | .usReached _ => [.hpc, .res]
  | .setDuty _ _ | .clrMaint => [.hpc, .mux]
  | .setServo _ _ => [.hpc, .servo]
  | .setAdvActive _ | .advAddOwed _ | .setAdvComp _ | .setAdvInterval _ => [.hpc, .adv]
  | .irqDisable | .irqEnable => [.hpc, .gie]
  | .waitUs _ => [.wait]
  | .tick _ => [.timers]
  | .clkTick => [.clock]
  | .dispatch _ => [.ctx, .gie, .timers]
  | .waitPoll => [.hpc, .wait]
  | .fireStep => [.env, .ctx, .gie, .timers, .stepper, .adv, .trace]
  | .stepTail => [.ctx, .gie, .stepper]
  | .firePwm => [.env, .ctx, .gie, .mux, .trace]
  | .fireServo => [.ctx, .gie, .timers, .servo]
  | .fireAdv => [.ctx, .gie, .timers, .adv, .trace]

theorem only_pollBody : Only [.hpc, .wait] s (pollBody s) := by
  cases hw : s.waitf with
  | none =>
    rw [pollBody, hw]
    exact only_refl.mono (by simp)
  | some r =>
    rw [pollBody_of_waitf hw]
    split
    · exact (only_setWait none).host
    · exact (only_setWait _).mono (by simp)

theorem only_disableWhenIdle : Only [.trace] s (disableWhenIdle s) := by
  unfold disableWhenIdle
  split
  · exact only_emit _
  · exact only_refl.mono (by simp)

theorem only_idleHousekeeping (h : idleHousekeeping s = .ok u) : Only [.adv, .trace] s u := by
  rcases idleHousekeeping_ok h with ⟨-, rfl⟩ | ⟨-, v, -, -, rfl⟩
  · exact (only_emit _).mono (by simp)
  · exact ((only_setAdv _).mono (by simp)).trans (only_disableWhenIdle.mono (by simp))

/-- The end of an empty firing: the idle re-arm, the guard cleared, the return (R134). -/
def emptyReturn (v : State) : State :=
  returnFromHandler (setStepper { v.stepper with guard := false }
    (setTimer .step { v.timers.step with rld := max 1 v.params.stepIdleTicks } v))

theorem only_emptyReturn : Only [.ctx, .gie, .timers, .stepper] s (emptyReturn s) := by
  constructor <;> simp [emptyReturn]

/-- An empty firing: the relax countdown, then at most the housekeeping's writes, then the end of the firing. -/
theorem emptyBranch_cases (h : emptyBranch s = .ok u) : s.params.stepIdleTicks ≤ reloadMax s.params ∧
    ∃ v, Only [.adv, .trace] (setStepper (relaxStep s.params.relaxTicks s.stepper) s) v ∧ u = emptyReturn v := by
  obtain ⟨hr, v, hv, rfl⟩ := emptyBranch_ok h
  refine ⟨hr, v, ?_, rfl⟩
  split at hv
  case isTrue => exact only_idleHousekeeping hv
  case isFalse =>
    rw [hv]
    exact only_refl.mono (by simp)

theorem only_emptyBranch (h : emptyBranch s = .ok u) : Only [.ctx, .gie, .timers, .stepper, .adv, .trace] s u := by
  obtain ⟨-, v, hv, rfl⟩ := emptyBranch_cases h
  have hrelax : Only [.stepper] s (setStepper (relaxStep s.params.relaxTicks s.stepper) s) := only_setStepper _
  exact ((hrelax.mono (by simp)).trans (hv.mono (by simp))).trans (only_emptyReturn.mono (by simp))

theorem only_steppingBranch (h : steppingBranch s = .ok u) :
    Only [.env, .ctx, .gie, .timers, .stepper, .trace] s u := by
  obtain ⟨-, rfl⟩ := steppingBranch_ok h
  constructor <;> simp [drewStep]

/-- The entry of a firing that passes the guard: GUARD is set and motion.pending() is drawn (R131). -/
theorem only_fireStepEntry : Only [.env, .stepper] s
    (setEnv (drewPending s.env) (setStepper { s.stepper with guard := true } s)) := by
  have hguard : Only [.stepper] s (setStepper { s.stepper with guard := true } s) := only_setStepper _
  exact (hguard.mono (by simp)).trans (Only.mono (vs := [.env]) (only_setEnv rfl) (by simp))

theorem only_fireStepBody (h : fireStepBody s = .ok u) : Only (writes .fireStep) s u := by
  rcases fireStepBody_ok h with ⟨-, rfl⟩ | ⟨-, -, hb⟩ | ⟨-, -, hb⟩
  · exact only_returnFromHandler.mono (by simp [writes])
  · exact (only_fireStepEntry.mono (by simp [writes])).trans ((only_steppingBranch hb).mono (by simp [writes]))
  · exact (only_fireStepEntry.mono (by simp [writes])).trans ((only_emptyBranch hb).mono (by simp [writes]))

theorem only_acceptSample (j : Byte) (ch : AnalogChan) (v : Nat) : Only [.mux, .trace] s (acceptSample j ch v s) := by
  unfold acceptSample
  dsimp only
  split
  · split
    · exact ((only_setMux _).mono (by simp)).trans ((only_emit _).mono (by simp))
    · exact (only_setMux _).mono (by simp)
  · exact (only_setMux _).mono (by simp)

theorem only_analogStep (h : analogStep s = .ok u) : Only [.env, .mux, .trace] s u := by
  rcases analogStep_ok h with ⟨-, rfl⟩ | ⟨-, -, rfl⟩ | ⟨-, -, -, ⟨ch, -, rfl⟩ | ⟨-, rfl⟩⟩
  · exact only_refl.mono (by simp)
  · exact (only_setEnv (e := drewReady s.env) rfl).mono (by simp)
  · exact ((only_setEnv (e := drewValue (drewReady s.env)) rfl).mono (by simp)).trans
      ((only_acceptSample _ _ _).mono (by simp))
  · exact (only_setEnv (e := drewValue (drewReady s.env)) rfl).mono (by simp)

theorem only_maintenanceTick : Only [.mux] s (maintenanceTick s) := by
  unfold maintenanceTick
  split <;> exact only_setMux _

theorem only_uiHook : Only [.trace] s (uiHook s) := by
  unfold uiHook
  split
  · exact only_emit _
  · exact only_refl.mono (by simp)

theorem only_firePwmBody (h : firePwmBody s = .ok u) : Only (writes .firePwm) s u := by
  obtain ⟨v, hv, rfl⟩ := firePwmBody_ok h
  have hlatch : Only (writes .firePwm) s (pwmLatchAndCompare s.mux.pwmCnt s) := (only_setMux _).mono (by simp [writes])
  have hsample := (only_analogStep hv).mono (ws := writes .firePwm) (by simp [writes])
  have hmaint : Only (writes .firePwm) v (maintenanceTick v) := only_maintenanceTick.mono (by simp [writes])
  have hhook : Only (writes .firePwm) _ (uiHook (maintenanceTick v)) := only_uiHook.mono (by simp [writes])
  have hcount : Only (writes .firePwm) _ (advancePwmCnt s.mux.pwmCnt (uiHook (maintenanceTick v))) :=
    (only_setMux _).mono (by simp [writes])
  exact ((((hlatch.trans hsample).trans hmaint).trans hhook).trans hcount).trans
    (only_returnFromHandler.mono (by simp [writes]))

theorem only_fireServoBody (h : fireServoBody s = .ok u) : Only (writes .fireServo) s u := by
  rcases fireServoBody_ok h with ⟨-, -, rfl⟩ | ⟨-, -, rfl⟩ <;> constructor <;> simp [writes]

theorem only_fireAdvBody (h : fireAdvBody s = .ok u) : Only (writes .fireAdv) s u := by
  rcases fireAdvBody_ok h with ⟨-, rfl⟩ | ⟨-, -, -, rfl⟩ | ⟨-, d, -, -, -, rfl⟩ | ⟨-, d, -, -, rfl⟩ <;>
    constructor <;> simp [writes]

/-- The footprint of an effect. -/
theorem effect_only (h : Effect i s t) : Only (writes i) s t := by
  cases i with
  | cfg c prio f =>
    obtain ⟨tm, p, r, -, -, -, -, -, -, rfl⟩ := cfgBody_ok h
    exact (only_setTimer _ _).host
  | rearm c n =>
    obtain ⟨tm, -, -, -, -, rfl⟩ := rearmBody_ok h
    exact (only_setTimer _ _).host
  | tmrRead c sel =>
    obtain ⟨tm, v, -, -, -, rfl⟩ := tmrReadBody_ok h
    exact (only_setRes _).host
  | readAnalog j =>
    obtain ⟨-, rfl⟩ := readAnalogBody_ok h
    exact (only_setRes _).host
  | readMaint | usRead =>
    obtain rfl := h
    exact (only_setRes _).host
  | usReached g =>
    obtain ⟨-, rfl⟩ := usReachedBody_ok h
    exact (only_setRes _).host
  | setDuty k d =>
    obtain ⟨-, -, rfl⟩ := setDutyBody_ok h
    exact (only_setMux _).host
  | clrMaint =>
    obtain rfl := h
    exact (only_setMux _).host
  | setServo c us =>
    obtain ⟨-, -, -, rfl⟩ := setServoBody_ok h
    exact (only_setServo _).host
  | setAdvActive b =>
    obtain ⟨-, -, rfl⟩ := setAdvActiveBody_ok h
    exact (only_setAdv _).host
  | advAddOwed n =>
    obtain ⟨-, -, rfl⟩ := advAddOwedBody_ok h
    exact (only_setAdv _).host
  | setAdvComp n =>
    obtain ⟨-, rfl⟩ := setAdvCompBody_ok h
    exact (only_setAdv _).host
  | setAdvInterval n =>
    obtain ⟨-, -, rfl⟩ := setAdvIntervalBody_ok h
    exact (only_setAdv _).host
  | irqDisable | irqEnable =>
    obtain rfl := h
    exact (only_setGie _).host
  | waitUs us =>
    obtain ⟨-, rfl⟩ := waitUsBody_ok h
    exact only_setWait _
  | tick n =>
    obtain ⟨u, -, -, rfl⟩ := h
    exact only_setTimer _ _
  | clkTick =>
    obtain rfl := h
    exact only_countUp
  | dispatch n =>
    obtain ⟨u, -, -, rfl⟩ := h
    exact only_takeInterrupt _
  | waitPoll =>
    obtain rfl := h
    exact only_pollBody
  | fireStep => exact only_fireStepBody h
  | stepTail =>
    obtain rfl := h
    exact ((only_setStepper _).mono (by simp [writes])).trans (only_returnFromHandler.mono (by simp [writes]))
  | firePwm => exact only_firePwmBody h
  | fireServo => exact only_fireServoBody h
  | fireAdv => exact only_fireAdvBody h

/-- The footprint of an instruction, the raise of a fault included (R301). -/
theorem exec_only (h : exec i s = .next t) : Only (.fault :: writes i) s t := by
  rcases exec_next h with ⟨f, w, rfl, -⟩ | he
  · exact (only_raiseFault f w).mono (by simp)
  · exact (effect_only he).mono (by simp +contextual)

/-- No effect writes FAULT: only a raise does (R34). -/
theorem fault_notMem_writes : .fault ∉ writes i := by
  cases i <;> simp [writes]

theorem effect_fault (h : Effect i s t) : t.fault = s.fault := (effect_only h).fault fault_notMem_writes

/-- An instruction that leaves the block running has had its own effect. -/
theorem exec_effect (h : exec i s = .next t) (hf : t.fault = none) : Effect i s t := by
  rcases exec_next h with ⟨f, w, rfl, -⟩ | he
  · cases hf
  · exact he

/-- A raise leaves FAULT set, and an effect leaves it as the enabled step found it. -/
theorem effect_running (h : exec i s = .next t) (he : Effect i s t) : t.fault = none := by
  rw [effect_fault he, (exec_enabled h).1]

/-! Who writes each group. -/

theorem res_mem_writes : .res ∈ writes i ↔ (∃ a b, i = .tmrRead a b) ∨ (∃ j, i = .readAnalog j) ∨ i = .readMaint ∨
    i = .usRead ∨ ∃ g, i = .usReached g := by
  cases i <;> simp [writes]

theorem hpc_mem_writes (h : .hpc ∈ writes i) : i.isCommand = true ∨ i = .waitPoll := by
  cases i <;> simp_all [writes, Instr.isCommand]

theorem ctx_mem_writes : .ctx ∈ writes i ↔ (∃ n, i = .dispatch n) ∨ i = .fireStep ∨ i = .stepTail ∨ i = .firePwm ∨
    i = .fireServo ∨ i = .fireAdv := by
  cases i <;> simp [writes]

theorem gie_mem_writes : .gie ∈ writes i ↔ .ctx ∈ writes i ∨ i = .irqDisable ∨ i = .irqEnable := by
  cases i <;> simp [writes]

theorem stepper_mem_writes : .stepper ∈ writes i ↔ i = .fireStep ∨ i = .stepTail := by
  cases i <;> simp [writes]

theorem mux_mem_writes : .mux ∈ writes i ↔ (∃ k d, i = .setDuty k d) ∨ i = .clrMaint ∨ i = .firePwm := by
  cases i <;> simp [writes]

theorem servo_mem_writes : .servo ∈ writes i ↔ (∃ c us, i = .setServo c us) ∨ i = .fireServo := by
  cases i <;> simp [writes]

theorem clock_mem_writes : .clock ∈ writes i ↔ i = .clkTick := by
  cases i <;> simp [writes]

theorem wait_mem_writes : .wait ∈ writes i ↔ i = .waitPoll ∨ ∃ us, i = .waitUs us := by
  cases i <;> simp [writes]

theorem env_mem_writes : .env ∈ writes i ↔ i = .fireStep ∨ i = .firePwm := by
  cases i <;> simp [writes]

/-! Statements that the footprint settles. -/

/-- A cell that changed belongs to a group that the instruction writes. -/
theorem mem_writes_of_change {α : Type} {g : Group} {a b : α} (hkeep : g ∉ .fault :: writes i → a = b)
    (hg : g ≠ .fault) (hne : a ≠ b) : g ∈ writes i := by
  by_contra hmem
  exact hne (hkeep (by simp [hg, hmem]))

/-- Settles O56: RES is in the footprint of the read commands only. -/
theorem onlyReadsWriteRes : Obligations.OnlyReadsWriteRes := by
  intro i s t h hne
  exact res_mem_writes.mp (mem_writes_of_change (exec_only h).res (by simp) hne)

/-- A command records its own word (R34). -/
theorem infoOf_command {w : Word} (h : InfoOf i w) (hi : i.isCommand = true) : w = encode i := by
  cases i <;> simp_all [InfoOf, Instr.isCommand]

/-- Settles O11: a next state with FAULT set is a raise, since no effect writes FAULT and no halted block steps. -/
theorem raiseDiscardsEveryOtherEffect : Obligations.RaiseDiscardsEveryOtherEffect := by
  intro i s t f h hf
  rcases exec_next h with ⟨f', w, rfl, hinfo⟩ | he
  · obtain rfl : f' = f := Option.some.inj hf
    exact ⟨rfl, infoOf_command hinfo⟩
  · rw [effect_running h he] at hf
    cases hf

/-- Settles O58: an instruction's TRACE grows or stays, a raise keeps it, and so does the turn's bookkeeping. -/
theorem traceOnlyGrows : Obligations.TraceOnlyGrows := by
  intro s t h
  obtain ⟨hrun, ⟨i, hi, -⟩ | ⟨w, -, -, rfl⟩ | rfl⟩ := step_cases h
  · obtain ⟨events, hev⟩ := (exec_only hi).grows
    refine ⟨⟨events, hev.symm⟩, fun hf => ?_⟩
    rcases exec_next hi with ⟨f, w, rfl, -⟩ | he
    · rfl
    · rw [effect_running hi he] at hf
      cases hf
  · exact ⟨⟨[], by simp⟩, fun _ => rfl⟩
  · exact ⟨⟨[], by simp⟩, fun _ => rfl⟩

end Sys2Proof.Machine
end

section
/-! PROOF. Proofs/Encoding.lean: command and event words (R80 to R85) and their serialisation (R61, R62). The two
directions of decoding rest on the layout lemmas of Laws/Encode.lean, and on one inversion lemma for each of the two
ways a row of the map accepts its fields. -/

namespace Sys2Proof

variable {w : Word} {i j : Instr} {b : Bool}

/-! Serialisation. -/

/-- Eight bytes read back as the word they came from (R62). -/
theorem takeWord_wordBytes (w : Word) (rest : List Byte) : takeWord (wordBytes w ++ rest) = some (w, rest) := by
  have glue (lo k : Nat) : w.extractLsb' (lo + 8) k ++ w.extractLsb' lo 8 = w.extractLsb' lo (k + 8) :=
    BitVec.extractLsb'_append_extractLsb'_eq_extractLsb' rfl
  simp only [wordBytes, List.cons_append, List.nil_append, takeWord]
  rw [glue 48, glue 40, glue 32, glue 24, glue 16, glue 8, glue 0, BitVec.extractLsb'_eq_self]

/-- Settles O5: the bytes are the fields of eight bits, the least significant first. -/
theorem wordBytesLittleEndian : Obligations.WordBytesLittleEndian := by
  intro w rest
  refine ⟨takeWord_wordBytes w rest, fun k hk => ?_⟩
  interval_cases k <;> rfl

/-! Decoding accepts a row's fields. -/

theorem requireZero_ok : requireZero b j = .ok i ↔ b = true ∧ i = j := by
  cases b <;> simp [requireZero, eq_comm]

theorem requireFields_ok : requireFields w b j = .ok i ↔ rsvField w = 0#8 ∧ b = true ∧ i = j := by
  unfold requireFields
  by_cases h : rsvField w = 0#8 <;> simp [h, requireZero_ok]

/-- Settles O6: the sample words, evaluated. -/
theorem sampleWordsDecode : Obligations.SampleWordsDecode := by
  unfold Obligations.SampleWordsDecode
  decide

/-- Settles O3: row by row, an accepted word has the row's opcode, RSV zero and the row's unused fields zero. -/
theorem legalCommandWords : Obligations.LegalCommandWords := by
  intro w i
  change decodeCommand w = .ok i ↔ rsvField w = 0#8 ∧ _
  simp only [← opField.eq_def, ← chField.eq_def, ← auxField.eq_def, ← immField.eq_def]
  unfold decodeCommand
  split
  case h_18 =>
    simp only [reduceCtorEq, false_iff]
    tauto
  all_goals simp [*, requireFields_ok, and_assoc]

/-! Encoding, then decoding. -/

theorem decodeCommand_encode (h : i.isCommand = true) : decodeCommand (encode i) = .ok i := by
  cases i
  case tick | clkTick | dispatch | waitPoll | fireStep | stepTail | firePwm | fireServo | fireAdv => cases h
  all_goals simp [encode, decodeCommand, requireFields_ok]

theorem decodeEvent_encode (h : i.isCommand = false) : decodeEvent (encode i) = .ok i := by
  cases i
  case tick | clkTick | dispatch | waitPoll | fireStep | stepTail | firePwm | fireServo | fireAdv =>
    simp [encode, decodeEvent, requireZero_ok]
  all_goals cases h

/-- The top bit of the opcode tells an event's word from a command's (R83). -/
theorem isEventWord_encode (i : Instr) : isEventWord (encode i) = !i.isCommand := by
  cases i <;> exact isEventWord_assemble ..

theorem decodeWord_encode (i : Instr) : decodeWord (encode i) = .ok i := by
  rw [decodeWord, isEventWord_encode]
  cases h : i.isCommand with
  | true => exact decodeCommand_encode h
  | false => exact decodeEvent_encode h

/-- The table's bit string of a word is read as the word is. -/
theorem decodeTableWord_toNat (w : Word) : decodeTableWord 64 w.toNat = (decodeWord w).toOption := by
  have hw : BitVec.ofNat 64 (w.toNat % 2 ^ 64) = w := by
    rw [Nat.mod_eq_of_lt w.isLt, BitVec.ofNat_toNat, BitVec.setWidth_eq]
  have hbytes : takeWord (wordBytes w) = some (w, []) := by simpa using takeWord_wordBytes w []
  rw [decodeTableWord, hw, decodeBytes, hbytes]
  cases h : decodeWord w <;> simp [h, Except.map, Except.toOption]

/-- Settles O1: the word's fields select the instruction's own row, and its bytes are read back as the word. -/
theorem decodeEncodeRoundTrip : Obligations.DecodeEncodeRoundTrip := by
  intro i _
  refine ⟨decodeWord_encode i, ?_⟩
  rw [decodeTableWord_toNat, decodeWord_encode]
  rfl

/-! Decoding, then encoding. -/

/-- A word is assembled from its fields, whatever names they have. -/
theorem assemble_of_fields {op ch aux : Byte} {imm : Imm} (hrsv : rsvField w = 0) (hop : opField w = op)
    (hch : chField w = ch) (haux : auxField w = aux) (himm : immField w = imm) : assemble op ch aux imm = w := by
  subst hop hch haux himm
  exact assemble_fields w hrsv

/-- A host command's word is the word of its reading, and no event is read from it. -/
theorem encode_of_decodeCommand (h : decodeCommand w = .ok i) : encode i = w ∧ i.isCommand = true := by
  obtain ⟨hrsv, hrow⟩ := (legalCommandWords w i).mp h
  rcases hrow with ⟨hop, rfl⟩ | ⟨hop, haux, rfl⟩ | ⟨hop, himm, rfl⟩ | ⟨hop, haux, rfl⟩ | ⟨hop, haux, himm, rfl⟩ |
    ⟨hop, hch, haux, himm, rfl⟩ | ⟨hop, hch, haux, himm, rfl⟩ | ⟨hop, haux, rfl⟩ | ⟨hop, hch, haux, rfl⟩ |
    ⟨hop, hch, haux, rfl⟩ | ⟨hop, hch, haux, rfl⟩ | ⟨hop, hch, haux, rfl⟩ | ⟨hop, hch, haux, himm, rfl⟩ |
    ⟨hop, hch, haux, rfl⟩ | ⟨hop, hch, haux, rfl⟩ | ⟨hop, hch, haux, himm, rfl⟩ | ⟨hop, hch, haux, himm, rfl⟩
  all_goals
    refine ⟨assemble_of_fields hrsv hop ?_ ?_ ?_, rfl⟩
    all_goals first | assumption | rfl

/-- An event's word is the word of its reading: every bit outside OP and the operand is required to be zero (R81). -/
theorem encode_of_decodeEvent (h : decodeEvent w = .ok i) : encode i = w := by
  unfold decodeEvent at h
  dsimp only at h
  split at h
  case h_10 => cases h
  all_goals
    obtain ⟨hzero, rfl⟩ := requireZero_ok.mp h
    simp only [Bool.and_eq_true, beq_iff_eq] at hzero
    refine assemble_of_fields ?_ ‹_› ?_ ?_ ?_
    all_goals first | rfl | tauto

/-- Settles O2: the event map by the top bit, else the host map. -/
theorem encodeDecodeUnique : Obligations.EncodeDecodeUnique := by
  intro w i h
  unfold decodeWord at h
  split at h
  case isTrue => exact encode_of_decodeEvent h
  case isFalse => exact (encode_of_decodeCommand h).1

end Sys2Proof
end

section
/-! PROOF. Proofs/Turns.lean: the step of the agent whose turn it is (R3, R301, R322). The agent's turn is read off the
CPU's choice, and one equation says what the step makes of it. -/

namespace Sys2Proof.Machine

variable {s : State} {w : Word} {i : Instr} {t : Timer}

/-! The step, by the kind of turn. -/

theorem step_of_run (hf : s.fault = none) (h : agentTurn s (agentAt s.env) = .run i) :
    step s = exec i (setEnv (nextTurn s.env) s) := by
  rw [step, hf, h]

theorem step_of_illegal (hf : s.fault = none) (h : agentTurn s (agentAt s.env) = .illegal w) :
    step s = .next (raiseFault .illegalCommand w (setEnv (nextTurn s.env) s)) := by
  rw [step, hf, h]

theorem step_of_idle (hf : s.fault = none) (h : agentTurn s (agentAt s.env) = .idle) :
    step s = .next (setEnv (nextTurn s.env) s) := by
  rw [step, hf, h]

/-! The CPU's turn. -/

theorem cpuTurn_main (h : cpuChoice s = .main) : agentTurn s .cpu = hostTurn s := by
  rw [agentTurn, cpuTurn, h]

/-- Rules 2 to 4 of R322: the CPU's event is the step. -/
theorem step_of_cpuEvent (ha : agentAt s.env = .cpu) (h : cpuChoice s = .event i) :
    step s = exec i (setEnv (nextTurn s.env) s) := by
  refine step_of_run (cpuChoice_running (by simp [h])) ?_
  rw [ha, agentTurn, cpuTurn, h]

theorem hostTurn_decoded (hw : s.env.prog[s.hpc]? = some w) (hd : decodeCommand w = .ok i) : hostTurn s = .run i := by
  rw [hostTurn, hw]
  simp only [hd]

theorem hostTurn_illegal (hw : s.env.prog[s.hpc]? = some w) (hd : ∀ i, decodeCommand w ≠ .ok i) :
    hostTurn s = .illegal w := by
  rw [hostTurn, hw]
  cases h : decodeCommand w with
  | ok i => exact absurd h (hd i)
  | error e => simp only [h]

theorem hostTurn_ended (h : s.env.prog.length ≤ s.hpc) : hostTurn s = .idle := by
  rw [hostTurn, List.getElem?_eq_none h]

/-- Settles O7: rule 5 of R322 with a word that decodes. -/
theorem stepRunsDecodedCommand : Obligations.StepRunsDecodedCommand := by
  intro s w i ha hmain hw hd
  refine step_of_run hmain.1 ?_
  rw [ha, cpuTurn_main (mainReady_iff.mp hmain), hostTurn_decoded hw hd]

/-- Settles O4: rule 5 of R322 with a word that is the word of no command, so decodes to none. -/
theorem illegalWordRaises : Obligations.IllegalWordRaises := by
  intro s w ha hmain hw hno
  have hd (i : Instr) : decodeCommand w ≠ .ok i := fun h =>
    have ⟨henc, hcmd⟩ := encode_of_decodeCommand h
    hno i hcmd henc.symm
  refine step_of_illegal hmain.1 ?_
  rw [ha, cpuTurn_main (mainReady_iff.mp hmain), hostTurn_illegal hw hd]

/-! The other agents' turns. -/

theorem agentTurn_tick (hp : present s.params t = true) (hen : (s.timers.get t).en = true) :
    agentTurn s (.timer t) = .run (.tick (timerNumber t)) := by
  simp [agentTurn, tickEnabled, hp, hen]

theorem agentTurn_noTick (h : present s.params t = false ∨ (s.timers.get t).en = false) :
    agentTurn s (.timer t) = .idle := by
  rcases h with h | h <;> simp [agentTurn, tickEnabled, h]

/-- Settles O8: TICK and CLK_TICK by the agent, the CPU's events by its choice. -/
theorem stepRunsEnabledEvent : Obligations.StepRunsEnabledEvent := by
  intro s hf s'
  refine ⟨fun t ha hp hen => ?tick, fun ha => ?clock, fun ha t hsel => ?dispatch, fun ha rest h => ?step,
    fun ha rest h => ?tail, fun ha rest h => ?pwm, fun ha rest h => ?servo, fun ha rest h => ?adv, fun ha h => ?poll⟩
  case tick => exact step_of_run hf (by rw [ha, agentTurn_tick hp hen])
  case clock => exact step_of_run hf (by rw [ha, agentTurn])
  case dispatch => exact step_of_cpuEvent ha (cpuChoice_dispatch_iff_selected.mpr ⟨hf, hsel⟩)
  case step => exact step_of_cpuEvent ha (handlerReady_step h)
  case tail => exact step_of_cpuEvent ha (handlerReady_tail h)
  case pwm => exact step_of_cpuEvent ha (handlerReady_pwm h)
  case servo => exact step_of_cpuEvent ha (handlerReady_servo h)
  case adv => exact step_of_cpuEvent ha (handlerReady_adv h)
  case poll => exact step_of_cpuEvent ha (pollReady_iff.mp h)

/-- Settles O9: the two ways an agent has no step. -/
theorem idleTurnPasses : Obligations.IdleTurnPasses := by
  rintro s hf (⟨t, ha, habsent⟩ | ⟨ha, hmain, hend⟩)
  · exact step_of_idle hf (by rw [ha, agentTurn_noTick habsent])
  · exact step_of_idle hf (by rw [ha, cpuTurn_main (mainReady_iff.mp hmain), hostTurn_ended hend])

/-! The halted block. -/

theorem exec_halted {f : FaultCode} (h : s.fault = some f) (i : Instr) : exec i s = .fault (.halted f) := by
  cases i with
  | tick n | dispatch n =>
    simp only [exec, execTick, execDispatch]
    split
    · exact whenEnabled_halted h
    · exact whenEnabled_halted h
  | _ => exact whenEnabled_halted h

/-- Settles O10: every form of a step tests FAULT first. -/
theorem haltedBlockHasNoStep : Obligations.HaltedBlockHasNoStep := by
  intro s f h
  refine ⟨?_, exec_halted h⟩
  rw [step, h]

/-! DISPATCH. -/

/-- Settles O13: the selected source's dispatch is the CPU's step, and it never raises. -/
theorem dispatchTakesInterrupt : Obligations.DispatchTakesInterrupt := by
  intro s t hf hsel
  rw [exec_dispatch, runEvent_ready (cpuChoice_dispatch_iff_selected.mpr ⟨hf, hsel⟩)]
  rfl

end Sys2Proof.Machine
end

section
/-! PROOF. Proofs/TimerManager.lean: CFG (R101, R102), TMR_READ (R105) and TICK (R106): one equation per outcome of each
body, and the count of n ticks in a row (R357). -/

namespace Sys2Proof.Machine

variable {s : State} {ch prio sel : Byte} {f : Imm} {t : Timer} {c : TimerChan} {n : Nat}

/-! CFG. -/

theorem exec_cfg_ready (h : MainReady s) : exec (.cfg ch prio f) s =
    .next (settle s (0x01#8 ++ ch ++ prio ++ 0#8 ++ f) (cfgBody ch prio f s)) :=
  runCommand_ready h (.cfg ch prio f) _

/-- The first check of R101, on the channel operand. -/
theorem cfgBody_absent (h : ∀ t, present s.params t = true → ch ≠ timerNumber t) :
    cfgBody ch prio f s = .error .notPresent := by
  rw [cfgBody, presentTimer_eq_none h]

theorem cfgBody_range (hp : present s.params t = true) (hprio : 15 < prio.toNat) :
    cfgBody (timerNumber t) prio f s = .error .operandRange := by
  rw [cfgBody, presentTimer_eq_some.mpr ⟨rfl, hp⟩]
  exact if_pos hprio

theorem cfgBody_zero (hp : present s.params t = true) (hprio : prio.toNat ≤ 15) :
    cfgBody (timerNumber t) prio 0 s = .error .configFatal := by
  rw [cfgBody, presentTimer_eq_some.mpr ⟨rfl, hp⟩]
  exact (if_neg (Nat.not_lt.mpr hprio)).trans (if_pos rfl)

/-- Once the operands are in range, the search decides. -/
theorem cfgBody_unrepresented (hp : present s.params t = true) (hprio : prio.toNat ≤ 15)
    (hnone : cfgSearch (s.params.baseClock.get t) (immNat f) (reloadMax s.params) s.params.prescalers = none) :
    cfgBody (timerNumber t) prio f s = .error .configFatal := by
  rw [cfgBody, presentTimer_eq_some.mpr ⟨rfl, hp⟩]
  simp only [if_neg (Nat.not_lt.mpr hprio), hnone, ite_self]

theorem cfgBody_configures {p : BitVec 32} {r : Nat} (hp : present s.params t = true) (hprio : prio.toNat ≤ 15)
    (hf : f ≠ 0)
    (hsome : cfgSearch (s.params.baseClock.get t) (immNat f) (reloadMax s.params) s.params.prescalers = some (p, r)) :
    cfgBody (timerNumber t) prio f s = .ok (advanceHost (setTimer t (configured p r (prio.setWidth 4)) s)) := by
  have hf0 : immNat f ≠ 0 := fun h => hf (BitVec.eq_of_toNat_eq h)
  rw [cfgBody, presentTimer_eq_some.mpr ⟨rfl, hp⟩]
  simp only [if_neg (Nat.not_lt.mpr hprio), if_neg hf0, hsome]

/-- A prescaler whose floored reload is 0 or too large is passed over by the search. -/
theorem not_reload_fits {r max : Nat} (h : r = 0 ∨ max < r) : ¬ (1 ≤ r ∧ r ≤ max) := by
  omega

/-- Settles O19: the checks in their order, then the search, which takes the first prescaler that fits. -/
theorem cfgConfiguresOrRaises : Obligations.CfgConfiguresOrRaises := by
  intro s ch prio f hready w max
  rw [exec_cfg_ready hready]
  refine ⟨fun habsent => ?absent, ?_⟩
  case absent =>
    rw [cfgBody_absent habsent]
    rfl
  rintro t rfl hp r
  refine ⟨fun hprio => ?range, fun hprio hno => ?fatal,
    fun hprio hf before p after hlist hbefore hone hmax => ?configures⟩
  case range =>
    rw [cfgBody_range hp hprio]
    rfl
  case fatal =>
    rcases hno with rfl | hno
    · rw [cfgBody_zero hp hprio]
      rfl
    · rw [cfgBody_unrepresented hp hprio (cfgSearch_none.mpr fun q hq => not_reload_fits (hno q hq))]
      rfl
  case configures =>
    have hsearch := cfgSearch_first (after := after) (fun q hq => not_reload_fits (hbefore q hq)) ⟨hone, hmax⟩
    rw [← hlist] at hsearch
    rw [cfgBody_configures hp hprio hf hsearch, BitVec.ofNat_toNat]
    rfl

/-- A floored quotient of at least 1 brackets the dividend within one more divisor. -/
theorem floor_bracket {base d r : Nat} (hr : r = base / d) (hone : 1 ≤ r) : d * r ≤ base ∧ base < d * (r + 1) := by
  have hpos : 0 < d := Nat.pos_of_ne_zero fun h => by simp [hr, h] at hone
  subst hr
  exact ⟨Nat.mul_div_le base d, Nat.lt_mul_div_succ base hpos⟩

/-- Settles O20: what a CFG that does not raise leaves in the channel is a floored quotient. -/
theorem cfgWithinOneCount : Obligations.CfgWithinOneCount := by
  intro s u t prio f h hf
  obtain ⟨tm, p, r, htm, -, -, hr, hone, -, rfl⟩ := cfgBody_ok (exec_effect h hf)
  obtain rfl := timerNumber_injective htm
  simp only [advanceHost_timers, setTimer_timers, PerTimer.get_set_self, configured]
  rw [Nat.mul_comm f.toNat]
  exact floor_bracket hr hone

/-! TMR_READ. -/

theorem exec_tmrRead_ready (h : MainReady s) : exec (.tmrRead ch sel) s =
    .next (settle s (0x03#8 ++ ch ++ sel ++ 0#8 ++ 0#32) (tmrReadBody ch sel s)) :=
  runCommand_ready h (.tmrRead ch sel) _

theorem tmrReadBody_absent (h : ∀ t, present s.params t = true → ch ≠ timerNumber t) :
    tmrReadBody ch sel s = .error .notPresent := by
  rw [tmrReadBody, presentTimer_eq_none h]

theorem tmrReadBody_range (hp : present s.params t = true) (hsel : timerField (s.timers.get t) sel = none) :
    tmrReadBody (timerNumber t) sel s = .error .operandRange := by
  rw [tmrReadBody, presentTimer_eq_some.mpr ⟨rfl, hp⟩]
  simp only [hsel]

theorem tmrReadBody_reads {v : Nat} (hp : present s.params t = true)
    (hsel : timerField (s.timers.get t) sel = some v) :
    tmrReadBody (timerNumber t) sel s = .ok (advanceHost (setRes (fieldResult v) s)) := by
  rw [tmrReadBody, presentTimer_eq_some.mpr ⟨rfl, hp⟩]
  simp only [hsel]

theorem bitNat_eq_toNat (b : Bool) : bitNat b = b.toNat := by
  cases b <;> rfl

/-- The selectors of R83 number the fields in the order of R105. -/
theorem timerField_eq_getElem? (c : TimerChan) (sel : Byte) : timerField c sel =
    [c.psc.toNat, c.rld, c.en.toNat, c.ie.toNat, c.prio.toNat, c.pend.toNat, c.count][sel.toNat]? := by
  unfold timerField
  split
  case h_8 _ h0 h1 h2 h3 h4 h5 h6 =>
    refine (List.getElem?_eq_none ?_).symm
    simp only [imp_false, ← BitVec.toNat_inj, BitVec.toNat_ofNat] at h0 h1 h2 h3 h4 h5 h6
    simp only [List.length_cons, List.length_nil]
    omega
  all_goals simp [bitNat_eq_toNat]

/-- A field that fits RES is read without loss (R21). -/
theorem fieldResult_toNat {v : Nat} (h : v < 2 ^ 64) : (fieldResult v).toNat = v := by
  rw [fieldResult, if_pos h, resultOf, BitVec.toNat_ofNat, Nat.mod_eq_of_lt h]

/-- Settles O22: the three outcomes of the body of TMR_READ, in the order of its checks. -/
theorem tmrReadReturnsField : Obligations.TmrReadReturnsField := by
  intro s ch sel hready w
  rw [exec_tmrRead_ready hready]
  refine ⟨fun habsent => ?absent, ?_⟩
  case absent =>
    rw [tmrReadBody_absent habsent]
    rfl
  rintro t rfl hp c
  refine ⟨fun hsel => ?range, fun v hv => ⟨fieldResult v, fieldResult_toNat, ?_⟩⟩
  case range =>
    rw [tmrReadBody_range hp (by rw [timerField_eq_getElem?, List.getElem?_eq_none]; exact hsel)]
    rfl
  rw [tmrReadBody_reads hp (by rw [timerField_eq_getElem?]; exact hv)]
  rfl

/-! TICK. -/

theorem exec_tick_ready (hf : s.fault = none) (hp : present s.params t = true) (hen : (s.timers.get t).en = true) :
    exec (.tick (timerNumber t)) s = .next (setTimer t (tickChan (s.timers.get t)) s) := by
  rw [exec_tick]
  exact whenEnabled_next.mpr ⟨hf, by simp [tickEnabled, hp, hen], rfl⟩

theorem tickChan_eq (c : TimerChan) : tickChan c =
    if c.rld ≤ c.count + 1 then { c with count := 0, pend := true } else { c with count := c.count + 1 } := by
  simp only [tickChan, compareMatch, decide_eq_true_eq]

/-- Settles O23: an enabled TICK, with the compare match written as a comparison. -/
theorem tickCountsOrMatches : Obligations.TickCountsOrMatches := by
  intro s t hf hp hen c
  rw [exec_tick_ready hf hp hen, tickChan_eq]
  rfl

theorem setTimer_setTimer (c d : TimerChan) : setTimer t d (setTimer t c s) = setTimer t d s := by
  cases t <;> rfl

theorem setTimer_self : setTimer t (s.timers.get t) s = s := by
  cases t <;> rfl

/-- n TICKs in a row are n counts of the channel. -/
theorem runLabels_ticks (hf : s.fault = none) (hp : present s.params t = true) (hen : (s.timers.get t).en = true) :
    runLabels (List.replicate n (.tick (timerNumber t))) s = .next (setTimer t (tickChan^[n] (s.timers.get t)) s) := by
  induction n generalizing s with
  | zero => rw [Function.iterate_zero, id, setTimer_self]; rfl
  | succ n ih =>
    rw [List.replicate_succ, runLabels, exec_tick_ready hf hp hen]
    have hrest := ih (s := setTimer t (tickChan (s.timers.get t)) s) hf hp (by simp [hen])
    simp only [setTimer_timers, PerTimer.get_set_self, setTimer_setTimer] at hrest
    rw [Function.iterate_succ_apply]
    exact hrest

/-- n counts from 0 (R106, R357): a match every RLD of them, and matches merge into PEND. -/
theorem tickChan_iterate (hzero : c.count = 0) (hr : 1 ≤ c.rld) : tickChan^[n] c =
    { c with count := n % c.rld, pend := c.pend || decide (c.rld ≤ n) } := by
  induction n with
  | zero =>
    have hpos : decide (c.rld ≤ 0) = false := decide_eq_false (Nat.not_le.mpr hr)
    rw [Function.iterate_zero, id, hpos, Nat.zero_mod, Bool.or_false, ← hzero]
  | succ n ih =>
    have hlt : n % c.rld < c.rld := Nat.mod_lt _ hr
    rw [Function.iterate_succ_apply', ih, tickChan_eq, ← Nat.mod_add_mod n c.rld 1]
    dsimp only
    split
    case isTrue hmatch =>
      have hlast : n % c.rld + 1 = c.rld := by omega
      have hreached : c.rld ≤ n + 1 := by
        have := Nat.mod_le n c.rld
        omega
      simp only [hlast, Nat.mod_self, decide_eq_true hreached, Bool.or_true]
    case isFalse hbelow =>
      have hreached : c.rld ≤ n ↔ c.rld ≤ n + 1 := by
        refine ⟨Nat.le_succ_of_le, fun h => Nat.le_of_not_lt fun hn => ?_⟩
        rw [Nat.mod_eq_of_lt hn] at hbelow
        exact hbelow h
      rw [Nat.mod_eq_of_lt (Nat.lt_of_not_le hbelow), decide_eq_decide.mpr hreached]

/-- Settles O24: the run of ticks as counts of the channel, from COUNT = 0. -/
theorem matchEveryReloadTicks : Obligations.MatchEveryReloadTicks := by
  intro s t n hf hp hen hzero hr
  rw [runLabels_ticks hf hp hen, tickChan_iterate hzero hr]
  rfl

end Sys2Proof.Machine
end

section
/-! PROOF. Proofs/StepperFiring.lean: FIRE_STEP (R131 to R135, R137): one equation per branch and per outcome of it.
The relax countdown and the idle housekeeping are settled first, each by its cases. -/

namespace Sys2Proof.Machine

variable {s v : State} {rest : List CtxEntry} {c : Stepper} {ticks n r : BitVec 16}

theorem exec_fireStep_ready (h : HandlerReady ⟨.step, .entered⟩ rest s) : exec .fireStep s =
    .next (settle s 0x9000000000000000#64 (fireStepBody s)) :=
  runEvent_ready (handlerReady_step h) _ _

/-- The minimum of one tick of R103. -/
theorem max_one_eq (n : Nat) : max 1 n = if n = 0 then 1 else n := by
  split <;> omega

/-- A re-arm within RELOAD_MAX, followed by the rest of the handler (R103). -/
theorem rearmInt_map {tm : Timer} {n : Nat} (h : n ≤ reloadMax s.params) (k : State → State) :
    (rearmInt tm n s).map k = .ok (k (setTimer tm { s.timers.get tm with rld := max 1 n } s)) := by
  rw [rearmInt_ok.mpr ⟨h, rfl⟩]
  rfl

/-! The guard. -/

/-- The state of a firing past the guard: GUARD set, motion.pending() drawn (R131). -/
def guarded (s : State) : State := setEnv (drewPending s.env) (setStepper { s.stepper with guard := true } s)

theorem fireStepBody_nested (h : s.stepper.guard = true) : fireStepBody s = .ok (returnFromHandler s) :=
  if_pos h

theorem fireStepBody_pending (hg : s.stepper.guard = false) (hp : pendingAnswer s.env = true) : fireStepBody s =
    steppingBranch (guarded s) :=
  (if_neg (by simp [hg])).trans (if_pos hp)

theorem fireStepBody_empty (hg : s.stepper.guard = false) (hp : pendingAnswer s.env = false) : fireStepBody s =
    emptyBranch (guarded s) :=
  (if_neg (by simp [hg])).trans (if_neg (by simp [hp]))

/-- Settles O16: the nested firing is the return sequence alone. -/
theorem nestedFireStepReturns : Obligations.NestedFireStepReturns := by
  intro s rest hready hg
  rw [exec_fireStep_ready hready, fireStepBody_nested hg, settle_ok, returnFromHandler_of_ctx (handlerReady_ctx hready)]

/-! The stepping branch. -/

theorem steppingBranch_range (h : reloadMax s.params < stepAnswer s.env) : steppingBranch s = .error .oracleRange :=
  if_pos h

theorem steppingBranch_steps (h : stepAnswer s.env ≤ reloadMax s.params) : steppingBranch s = .ok { s with
    env := drewStep s.env
    trace := s.trace ++ [.stepExec]
    timers := s.timers.set .step { s.timers.step with rld := max 1 (stepAnswer s.env) }
    stepper := { s.stepper with spState := .stepping }
    gie := true
    ctx := tailTop s.ctx } := by
  have hfits : ¬ reloadMax s.params < stepAnswer s.env := Nat.not_lt.mpr h
  rw [steppingBranch]
  refine (if_neg hfits).trans ?_
  rw [rearmInt_map (s := emit .stepExec (setEnv (drewStep s.env) s)) h]
  rfl

/-- Settles O25: past the guard, the two outcomes of the stepping branch. -/
theorem steppingBranchTakesOneStep : Obligations.SteppingBranchTakesOneStep := by
  intro s rest hready hg hp ticks
  rw [exec_fireStep_ready hready, fireStepBody_pending hg hp]
  refine ⟨fun hrange => ?range, fun hfits => ?steps⟩
  case range =>
    rw [steppingBranch_range (s := guarded s) hrange]
    rfl
  case steps =>
    have hctx : tailTop (guarded s).ctx = ⟨.step, .tail⟩ :: rest := congrArg tailTop (handlerReady_ctx hready)
    rw [steppingBranch_steps (s := guarded s) hfits, settle_ok, hctx, ← max_one_eq]
    rfl

/-! The relax countdown (R134). -/

/-- An idle pacer has no countdown. -/
theorem relaxStep_idle (h : c.spState = .idle) : relaxStep ticks c = c := by
  simp [relaxStep, h]

/-- The countdown of a firing: from its load where motion has just ended, from RELAX where it was running. -/
theorem relaxStep_active (h : (c.spState = .stepping ∧ n = ticks) ∨ (c.spState = .relaxing ∧ n = c.relax))
    (hr : r = if n = 0 then 0 else n - 1) :
    relaxStep ticks c = { c with relax := r, spState := if r = 0 then .idle else .relaxing } := by
  subst hr
  rcases h with ⟨h, rfl⟩ | ⟨h, rfl⟩ <;> simp [relaxStep, h]

/-- A countdown of one or none is over with this firing. -/
theorem countdown_ends (h : n.toNat ≤ 1) : (0 : BitVec 16) = if n = 0 then 0 else n - 1 := by
  split <;> bv_omega

theorem countdown_goes_on (h : n.toNat = r.toNat + 1) : r = if n = 0 then 0 else n - 1 := by
  split <;> bv_omega

theorem relaxStep_counts (h : (c.spState = .stepping ∧ ticks.toNat = r.toNat + 1) ∨
    (c.spState = .relaxing ∧ c.relax.toNat = r.toNat + 1)) (hr : r ≠ 0) :
    relaxStep ticks c = { c with relax := r, spState := .relaxing } := by
  rcases h with ⟨hs, hn⟩ | ⟨hs, hn⟩
  · rw [relaxStep_active (.inl ⟨hs, rfl⟩) (countdown_goes_on hn), if_neg hr]
  · rw [relaxStep_active (.inr ⟨hs, rfl⟩) (countdown_goes_on hn), if_neg hr]

theorem relaxStep_ends (h : (c.spState = .stepping ∧ ticks.toNat ≤ 1) ∨
    (c.spState = .relaxing ∧ c.relax.toNat ≤ 1) ∨ (c.spState = .idle ∧ c.relax = 0)) :
    relaxStep ticks c = { c with relax := 0, spState := .idle } := by
  rcases h with ⟨hs, hn⟩ | ⟨hs, hn⟩ | ⟨hs, hn⟩
  · rw [relaxStep_active (.inl ⟨hs, rfl⟩) (countdown_ends hn), if_pos rfl]
  · rw [relaxStep_active (.inr ⟨hs, rfl⟩) (countdown_ends hn), if_pos rfl]
  · rw [relaxStep_idle hs, ← hs, ← hn]

/-! Idle housekeeping (R135). -/

/-- The sum that the fold leaves owed. -/
def foldSum (s : State) : Int := s.adv.owed.toInt + signInt s.params.advFoldSign * s.adv.comp.toInt

theorem signInt_eq (d : Sign) : signInt d = if d = .plus then 1 else -1 := by
  cases d <;> rfl

theorem idleHousekeeping_absent (h : s.params.advancePresent = false) :
    idleHousekeeping s = .ok (emit .driverDisable s) := by
  rw [idleHousekeeping, if_neg (by simp [h]), disableWhenIdle, if_pos (.inl h)]

theorem idleHousekeeping_range (hp : s.params.advancePresent = true) (hr : ¬ fitsSigned32 (foldSum s) = true) :
    idleHousekeeping s = .error .arithRange :=
  (if_pos hp).trans (if_neg hr)

/-- A sum that fits is 0 in the cell only if it is 0. -/
theorem ofInt_eq_zero_iff {x : Int} (h : fitsSigned32 x = true) : BitVec.ofInt 32 x = 0 ↔ x = 0 := by
  rw [← BitVec.toInt_inj, toInt_ofInt_of_fitsSigned32 h]
  rfl

theorem idleHousekeeping_folds (hp : s.params.advancePresent = true) (hr : fitsSigned32 (foldSum s) = true) :
    idleHousekeeping s = .ok { s with
      adv := { s.adv with owed := BitVec.ofInt 32 (foldSum s), comp := 0 }
      trace := if foldSum s = 0 then s.trace ++ [.driverDisable] else s.trace } := by
  have hpacer : idleHousekeeping s =
      .ok (disableWhenIdle (setAdv { s.adv with owed := BitVec.ofInt 32 (foldSum s), comp := 0 } s)) :=
    (if_pos hp).trans (if_pos hr)
  rw [hpacer, disableWhenIdle]
  simp only [setAdv_params, setAdv_adv, hp, Bool.true_eq_false, false_or, ofInt_eq_zero_iff hr]
  split <;> rfl

/-! The empty branch (R134). -/

theorem emptyBranch_counts (hrelax : relaxStep s.params.relaxTicks s.stepper = c) (hc : c.spState ≠ .idle)
    (hidle : s.params.stepIdleTicks ≤ reloadMax s.params) : emptyBranch s = .ok (emptyReturn (setStepper c s)) := by
  simp only [emptyBranch, hrelax, setStepper_stepper, if_neg hc]
  exact rearmInt_map (s := setStepper c s) hidle _

theorem emptyBranch_idle (hrelax : relaxStep s.params.relaxTicks s.stepper = c) (hc : c.spState = .idle)
    (hkeep : idleHousekeeping (setStepper c s) = .ok v) (hidle : v.params.stepIdleTicks ≤ reloadMax v.params) :
    emptyBranch s = .ok (emptyReturn v) := by
  simp only [emptyBranch, hrelax, setStepper_stepper, if_pos hc, hkeep]
  exact rearmInt_map hidle _

theorem emptyBranch_raises {f : FaultCode} (hrelax : relaxStep s.params.relaxTicks s.stepper = c)
    (hc : c.spState = .idle) (hkeep : idleHousekeeping (setStepper c s) = .error f) : emptyBranch s = .error f := by
  simp only [emptyBranch, hrelax, setStepper_stepper, if_pos hc, hkeep]

/-- An empty firing's end where the idle delay needs no minimum, on a known CTX. -/
theorem emptyReturn_of_ctx {e : CtxEntry} (hctx : v.ctx = e :: rest) (hone : 1 ≤ v.params.stepIdleTicks) :
    emptyReturn v = { v with
      timers := v.timers.set .step { v.timers.step with rld := v.params.stepIdleTicks }
      stepper := { v.stepper with guard := false }
      gie := true
      ctx := rest } := by
  rw [emptyReturn, returnFromHandler_of_ctx (e := e) (rest := rest) (by exact hctx), Nat.max_eq_right hone]
  rfl

/-- Settles O26: past the guard, the countdown that goes on. -/
theorem emptyFiringCountsRelaxDown : Obligations.EmptyFiringCountsRelaxDown := by
  intro s rest r hready hg hp hone hidle hcount hr
  have hrelax := relaxStep_counts (ticks := (guarded s).params.relaxTicks) (c := (guarded s).stepper) hcount hr
  rw [exec_fireStep_ready hready, fireStepBody_empty hg hp, emptyBranch_counts hrelax (by simp) hidle, settle_ok,
    emptyReturn_of_ctx (by exact handlerReady_ctx hready) (by exact hone)]
  rfl

/-- Settles O27: past the guard, the countdown that ends, then the outcomes of the housekeeping. -/
theorem idleFiringFoldsAndDisables : Obligations.IdleFiringFoldsAndDisables := by
  intro s rest hready hg hp hone hidle hends fold after
  have hrelax := relaxStep_ends (ticks := (guarded s).params.relaxTicks) (c := (guarded s).stepper) hends
  let idle := setStepper { (guarded s).stepper with relax := 0, spState := .idle } (guarded s)
  have hfold : foldSum idle = fold := by
    simp only [foldSum, signInt_eq]
    rfl
  rw [exec_fireStep_ready hready, fireStepBody_empty hg hp]
  refine ⟨fun habsent => ?absent, fun hpres hlow hhigh => ?folds, fun hpres hrange => ?range⟩
  case absent =>
    rw [emptyBranch_idle hrelax rfl (idleHousekeeping_absent (s := idle) habsent) hidle, settle_ok,
      emptyReturn_of_ctx (by exact handlerReady_ctx hready) (by exact hone)]
    rfl
  case folds =>
    have hfits : fitsSigned32 (foldSum idle) = true := by
      rw [hfold]
      exact fitsSigned32_iff.mpr ⟨hlow, hhigh⟩
    rw [emptyBranch_idle hrelax rfl (idleHousekeeping_folds (s := idle) hpres hfits) hidle, settle_ok,
      emptyReturn_of_ctx (by exact handlerReady_ctx hready) (by exact hone), hfold]
    rfl
  case range =>
    have hout : ¬ fitsSigned32 (foldSum idle) = true := by
      rw [hfold, fitsSigned32_iff]
      omega
    rw [emptyBranch_raises hrelax rfl (idleHousekeeping_range (s := idle) hpres hout)]
    rfl

end Sys2Proof.Machine
end

section
/-! PROOF. Proofs/PwmFiring.lean: FIRE_PWM (R162 to R169): the two loops over the channels as one function of a
channel, one equation per outcome of the analog step, and the rest of the firing as one update. -/

namespace Sys2Proof.Machine

variable {s u v : State} {rest : List CtxEntry} {c : BitVec 8} {ch : PwmChan} {cell : AnalogChan} {j : Byte}
  {p : Params} {a x : Nat}

theorem exec_firePwm_ready (h : HandlerReady ⟨.pwm, .entered⟩ rest s) : exec .firePwm s =
    .next (settle s 0x9201000000000000#64 (firePwmBody s)) :=
  runEvent_ready (handlerReady_pwm h) _ _

/-! One channel (R163, R164). -/

theorem latchChan_zero (ch : PwmChan) :
    latchChan 0 ch = { ch with lat := ch.tgt, out := if ch.tgt = 0 then ch.out else true } :=
  if_pos rfl

theorem latchChan_of_ne (hc : c ≠ 0) (ch : PwmChan) : latchChan c ch = ch :=
  if_neg hc

theorem deassert_iff {lat : BitVec 8} : deassert c lat = true ↔ lat = c ∧ lat ≠ 255 := by
  simp [deassert]

theorem compareChan_eq (c : BitVec 8) (ch : PwmChan) :
    compareChan c ch = { ch with out := if ch.lat = c ∧ ch.lat ≠ 255 then false else ch.out } := by
  simp only [compareChan, deassert_iff]
  split <;> rfl

/-- Both loops at one channel, as a function of its cells. -/
theorem compareChan_latchChan (c : BitVec 8) (ch : PwmChan) : compareChan c (latchChan c ch) =
    { tgt := ch.tgt
      lat := if c = 0 then ch.tgt else ch.lat
      out := if (if c = 0 then ch.tgt else ch.lat) = c ∧ (if c = 0 then ch.tgt else ch.lat) ≠ 255 then false
        else if c = 0 ∧ 0 < ch.tgt.toNat then true else ch.out } := by
  rw [compareChan_eq]
  by_cases hc : c = 0
  case pos =>
    subst hc
    rw [latchChan_zero]
    by_cases ht : ch.tgt = 0
    case pos => simp [ht]
    case neg =>
      have hpos : 0 < ch.tgt.toNat := Nat.pos_of_ne_zero fun h => ht (BitVec.eq_of_toNat_eq h)
      simp only [if_neg ht, if_pos hpos, true_and, if_true]
  case neg => simp only [latchChan_of_ne hc, hc, false_and, if_false]

/-! The end of the firing (R165, R168, R169). -/

/-- What a firing does after its analog step: the maintenance tick, the hook, the counter, the return. -/
def pwmReturn (c : BitVec 8) (v : State) : State := returnFromHandler (advancePwmCnt c (uiHook (maintenanceTick v)))

theorem maintenanceTick_eq (s : State) : maintenanceTick s = { s with mux := { s.mux with
    tickCnt := if s.params.maintThreshold ≤ s.mux.tickCnt.toNat + 1 then 0 else s.mux.tickCnt + 1
    maintDue := s.mux.maintDue || decide (s.params.maintThreshold ≤ s.mux.tickCnt.toNat + 1) } } := by
  unfold maintenanceTick
  by_cases h : s.params.maintThreshold ≤ s.mux.tickCnt.toNat + 1
  · simp [maintReached, h, setMux]
  · simp [maintReached, h, setMux]

theorem uiHook_eq (s : State) :
    uiHook s = { s with trace := s.trace ++ if s.params.uiHookPresent then [.uiHook] else [] } := by
  unfold uiHook
  by_cases h : s.params.uiHookPresent = true <;> simp [h, emit]

theorem pwmReturn_eq (c : BitVec 8) (v : State) : pwmReturn c v = { v with
    mux := { v.mux with
      pwmCnt := c + 1
      tickCnt := if v.params.maintThreshold ≤ v.mux.tickCnt.toNat + 1 then 0 else v.mux.tickCnt + 1
      maintDue := v.mux.maintDue || decide (v.params.maintThreshold ≤ v.mux.tickCnt.toNat + 1) }
    trace := v.trace ++ if v.params.uiHookPresent then [.uiHook] else []
    gie := true
    ctx := v.ctx.tail } := by
  rw [pwmReturn, maintenanceTick_eq, uiHook_eq]
  rfl

theorem firePwmBody_eq (s : State) : firePwmBody s =
    (analogStep (pwmLatchAndCompare s.mux.pwmCnt s)).map (pwmReturn s.mux.pwmCnt) := rfl

/-! The analog step (R166, R167). -/

theorem analogStep_absent (h : s.params.nAnalog = 0) : analogStep s = .ok s :=
  if_pos h

theorem analogStep_notReady (hn : s.params.nAnalog ≠ 0) (hr : readyAnswer s.env s.mux.adcPos = false) :
    analogStep s = .ok (setEnv (drewReady s.env) s) :=
  (if_neg hn).trans (if_neg (by simp [hr]))

theorem analogStep_range (hn : s.params.nAnalog ≠ 0) (hr : readyAnswer s.env s.mux.adcPos = true)
    (hv : 2 ^ s.params.adcBits - 1 < valueAnswer (drewReady s.env) s.mux.adcPos) :
    analogStep s = .error .oracleRange :=
  (if_neg hn).trans ((if_pos hr).trans (if_pos hv))

theorem analogStep_accepts (hn : s.params.nAnalog ≠ 0) (hr : readyAnswer s.env s.mux.adcPos = true)
    (hv : valueAnswer (drewReady s.env) s.mux.adcPos ≤ 2 ^ s.params.adcBits - 1)
    (hcell : s.mux.analog[s.mux.adcPos.toNat]? = some cell) : analogStep s =
      .ok (acceptSample s.mux.adcPos cell (valueAnswer (drewReady s.env) s.mux.adcPos)
        (setEnv (drewValue (drewReady s.env)) s)) := by
  rw [analogStep, if_neg hn]
  simp only [hr, if_true, setEnv_env, if_neg (Nat.not_lt.mpr hv), setEnv_mux, hcell]
  rfl

/-- No run reaches an address past the list: the sample is dropped (log entry 18). -/
theorem analogStep_missing (hn : s.params.nAnalog ≠ 0) (hr : readyAnswer s.env s.mux.adcPos = true)
    (hv : valueAnswer (drewReady s.env) s.mux.adcPos ≤ 2 ^ s.params.adcBits - 1)
    (hcell : s.mux.analog[s.mux.adcPos.toNat]? = none) :
    analogStep s = .ok (setEnv (drewValue (drewReady s.env)) s) := by
  rw [analogStep, if_neg hn]
  simp only [hr, if_true, setEnv_env, if_neg (Nat.not_lt.mpr hv), setEnv_mux, hcell]
  rfl

theorem acceptSample_accumulates (h : cell.scnt + 1 ≠ 2 ^ s.params.oversampleK) : acceptSample j cell x s =
    { s with mux := { s.mux with
      analog := s.mux.analog.set j.toNat { cell with acc := cell.acc + x, scnt := cell.scnt + 1 } } } :=
  if_neg h

theorem acceptSample_publishes (h : cell.scnt + 1 = 2 ^ s.params.oversampleK) : acceptSample j cell x s =
    { s with
      mux := { s.mux with
        analog := s.mux.analog.set j.toNat ⟨0, 0, normalizeAvg s.params (cell.acc + x)⟩
        adcPos := BitVec.ofNat 8 ((j.toNat + 1) % s.params.nAnalog) }
      trace := s.trace ++ if (j.toNat + 1) % s.params.nAnalog = 0 then [.adcStart] else [] } := by
  rw [acceptSample]
  refine (if_pos h).trans ?_
  by_cases hwrap : (j.toNat + 1) % s.params.nAnalog = 0 <;> simp [hwrap, emit, setMux]

/-! The whole firing. -/

theorem firePwmBody_absent (h : s.params.nAnalog = 0) : firePwmBody s =
    .ok (pwmReturn s.mux.pwmCnt (pwmLatchAndCompare s.mux.pwmCnt s)) := by
  rw [firePwmBody_eq, analogStep_absent (s := pwmLatchAndCompare s.mux.pwmCnt s) h]
  rfl

theorem firePwmBody_notReady (hn : s.params.nAnalog ≠ 0) (hr : readyAnswer s.env s.mux.adcPos = false) :
    firePwmBody s =
      .ok (pwmReturn s.mux.pwmCnt (setEnv (drewReady s.env) (pwmLatchAndCompare s.mux.pwmCnt s))) := by
  rw [firePwmBody_eq, analogStep_notReady (s := pwmLatchAndCompare s.mux.pwmCnt s) hn hr]
  rfl

theorem firePwmBody_range (hn : s.params.nAnalog ≠ 0) (hr : readyAnswer s.env s.mux.adcPos = true)
    (hv : 2 ^ s.params.adcBits - 1 < valueAnswer (drewReady s.env) s.mux.adcPos) :
    firePwmBody s = .error .oracleRange := by
  rw [firePwmBody_eq, analogStep_range (s := pwmLatchAndCompare s.mux.pwmCnt s) hn hr hv]
  rfl

theorem firePwmBody_accepts (hn : s.params.nAnalog ≠ 0) (hr : readyAnswer s.env s.mux.adcPos = true)
    (hv : valueAnswer (drewReady s.env) s.mux.adcPos ≤ 2 ^ s.params.adcBits - 1)
    (hcell : s.mux.analog[s.mux.adcPos.toNat]? = some cell) : firePwmBody s =
      .ok (pwmReturn s.mux.pwmCnt (acceptSample s.mux.adcPos cell (valueAnswer (drewReady s.env) s.mux.adcPos)
        (setEnv (drewValue (drewReady s.env)) (pwmLatchAndCompare s.mux.pwmCnt s)))) := by
  rw [firePwmBody_eq, analogStep_accepts (s := pwmLatchAndCompare s.mux.pwmCnt s) hn hr hv hcell]
  rfl

/-- Settles O29: the firing of each of the two cases without a sample. -/
theorem firePwmWithoutSample : Obligations.FirePwmWithoutSample := by
  intro s rest hready hno c cell
  have hcells : s.mux.pwm.map (fun ch => compareChan c (latchChan c ch)) = s.mux.pwm.map cell :=
    List.map_congr_left fun ch _ => compareChan_latchChan c ch
  have htail : s.ctx.tail = rest := congrArg List.tail (handlerReady_ctx hready)
  rw [exec_firePwm_ready hready, ← hcells, ← htail]
  by_cases hn : s.params.nAnalog = 0
  case pos =>
    rw [firePwmBody_absent hn, settle_ok, pwmReturn_eq, if_pos hn]
    rfl
  case neg =>
    rw [firePwmBody_notReady hn (hno.resolve_left hn), settle_ok, pwmReturn_eq, if_neg hn]
    rfl

/-- R167's one shift, up or down, as the model's two cases of it. -/
theorem normalizeAvg_eq_shift (p : Params) (a : Nat) : normalizeAvg p a =
    if 0 ≤ (p.outBits : Int) - p.adcBits - p.oversampleK then
      a <<< ((p.outBits : Int) - p.adcBits - p.oversampleK).toNat
    else a >>> (-((p.outBits : Int) - p.adcBits - p.oversampleK)).toNat := by
  unfold normalizeAvg
  by_cases h : p.adcBits + p.oversampleK ≤ p.outBits
  case pos =>
    have hshift : ((p.outBits : Int) - p.adcBits - p.oversampleK).toNat = p.outBits - p.adcBits - p.oversampleK := by
      omega
    rw [if_pos h, if_pos (by omega), hshift, Nat.shiftLeft_eq]
  case neg =>
    have hshift : (-((p.outBits : Int) - p.adcBits - p.oversampleK)).toNat =
        p.adcBits + p.oversampleK - p.outBits := by
      omega
    rw [if_neg h, if_neg (by omega), hshift, Nat.shiftRight_eq_div_pow]

/-- Settles O30: the range check on the sample, then whether it completes the average. -/
theorem firePwmAcceptsSample : Obligations.FirePwmAcceptsSample := by
  intro s rest ch hready hn hr hcell c j v next shift average hook cell mux after
  have hcells : s.mux.pwm.map (fun ch => compareChan c (latchChan c ch)) = s.mux.pwm.map cell :=
    List.map_congr_left fun ch _ => compareChan_latchChan c ch
  have htail : s.ctx.tail = rest := congrArg List.tail (handlerReady_ctx hready)
  have hfits (h : v < 2 ^ s.params.adcBits) : v ≤ 2 ^ s.params.adcBits - 1 := Nat.le_sub_one_of_lt h
  rw [exec_firePwm_ready hready]
  refine ⟨fun hwide => ?range, fun hv hmore => ?accumulates, fun hv hlast => ?publishes⟩
  case range =>
    have hout : 2 ^ s.params.adcBits - 1 < v := by
      have := Nat.two_pow_pos s.params.adcBits
      omega
    rw [firePwmBody_range hn hr hout]
    rfl
  case accumulates =>
    rw [firePwmBody_accepts hn hr (hfits hv) hcell, settle_ok, acceptSample_accumulates (by exact hmore), pwmReturn_eq]
    simp only [after, mux, ← hcells, ← htail]
    rfl
  case publishes =>
    rw [firePwmBody_accepts hn hr (hfits hv) hcell, settle_ok, acceptSample_publishes (by exact hlast), pwmReturn_eq,
      normalizeAvg_eq_shift]
    simp only [after, mux, ← hcells, ← htail]
    rfl

/-- Settles O34: the sum is below 2^(ADC_BITS + K), and the shift takes that bound to 2^OUT_BITS. -/
theorem normalizedAverageFits : Obligations.NormalizedAverageFits := by
  intro p a _ _ ha
  have hsum : a < 2 ^ (p.adcBits + p.oversampleK) := by
    have hpos := Nat.two_pow_pos p.adcBits
    calc a ≤ (2 ^ p.adcBits - 1) * 2 ^ p.oversampleK := ha
      _ < 2 ^ p.adcBits * 2 ^ p.oversampleK := Nat.mul_lt_mul_of_pos_right (by omega) (Nat.two_pow_pos _)
      _ = 2 ^ (p.adcBits + p.oversampleK) := (Nat.pow_add ..).symm
  unfold normalizeAvg
  split
  case isTrue h =>
    calc a * 2 ^ (p.outBits - p.adcBits - p.oversampleK)
        < 2 ^ (p.adcBits + p.oversampleK) * 2 ^ (p.outBits - p.adcBits - p.oversampleK) :=
          Nat.mul_lt_mul_of_pos_right hsum (Nat.two_pow_pos _)
      _ = 2 ^ p.outBits := by rw [← Nat.pow_add]; congr 1; omega
  case isFalse h =>
    refine Nat.div_lt_of_lt_mul (hsum.trans_eq ?_)
    rw [← Nat.pow_add]
    congr 1
    omega

/-! The duty targets away from a cycle start (R66, R163). -/

/-- The state with other duty targets. -/
def retarget (duty : Nat → BitVec 8) (u : State) : State :=
  { u with mux := { u.mux with pwm := u.mux.pwm.mapIdx fun k ch => { ch with tgt := duty k } } }

variable {duty : Nat → BitVec 8}

theorem compareChan_retarget (hc : c ≠ 0) (d : BitVec 8) (ch : PwmChan) :
    compareChan c (latchChan c { ch with tgt := d }) = { compareChan c (latchChan c ch) with tgt := d } := by
  simp only [latchChan_of_ne hc, compareChan_eq]

theorem pwmLatchAndCompare_retarget (hc : c ≠ 0) (u : State) :
    pwmLatchAndCompare c (retarget duty u) = retarget duty (pwmLatchAndCompare c u) := by
  have hcells (l : List PwmChan) :
      (l.mapIdx fun k ch => { ch with tgt := duty k }).map (fun ch => compareChan c (latchChan c ch)) =
        (l.map fun ch => compareChan c (latchChan c ch)).mapIdx fun k ch => { ch with tgt := duty k } := by
    refine List.ext_getElem? fun k => ?_
    simp only [List.getElem?_map, List.getElem?_mapIdx, Option.map_map]
    exact congrArg (fun f => l[k]?.map f) (funext fun ch => compareChan_retarget hc (duty k) ch)
  simp only [pwmLatchAndCompare, retarget, setMux, hcells]

theorem acceptSample_retarget (u : State) :
    acceptSample j cell x (retarget duty u) = retarget duty (acceptSample j cell x u) := by
  by_cases h : cell.scnt + 1 = 2 ^ u.params.oversampleK
  · rw [acceptSample_publishes h, acceptSample_publishes (s := retarget duty u) h]
    rfl
  · rw [acceptSample_accumulates h, acceptSample_accumulates (s := retarget duty u) h]
    rfl

theorem analogStep_retarget (u : State) :
    analogStep (retarget duty u) = (analogStep u).map (retarget duty) := by
  by_cases hn : u.params.nAnalog = 0
  case pos =>
    rw [analogStep_absent hn, analogStep_absent (s := retarget duty u) hn]
    rfl
  cases hr : readyAnswer u.env u.mux.adcPos
  case false =>
    rw [analogStep_notReady hn hr, analogStep_notReady (s := retarget duty u) hn hr]
    rfl
  rcases Nat.lt_or_ge (2 ^ u.params.adcBits - 1) (valueAnswer (drewReady u.env) u.mux.adcPos) with hv | hv
  · rw [analogStep_range hn hr hv, analogStep_range (s := retarget duty u) hn hr hv]
    rfl
  cases hcell : u.mux.analog[u.mux.adcPos.toNat]? with
  | none =>
    rw [analogStep_missing hn hr hv hcell, analogStep_missing (s := retarget duty u) hn hr hv hcell]
    rfl
  | some cell =>
    rw [analogStep_accepts hn hr hv hcell, analogStep_accepts (s := retarget duty u) hn hr hv hcell]
    exact congrArg Except.ok (acceptSample_retarget (setEnv (drewValue (drewReady u.env)) u))

theorem pwmReturn_retarget (u : State) : pwmReturn c (retarget duty u) = retarget duty (pwmReturn c u) := by
  rw [pwmReturn_eq, pwmReturn_eq]
  rfl

theorem firePwmBody_retarget (hc : s.mux.pwmCnt ≠ 0) :
    firePwmBody (retarget duty s) = (firePwmBody s).map (retarget duty) := by
  have hlatch : pwmLatchAndCompare (retarget duty s).mux.pwmCnt (retarget duty s) =
      retarget duty (pwmLatchAndCompare s.mux.pwmCnt s) := pwmLatchAndCompare_retarget hc s
  rw [firePwmBody_eq, firePwmBody_eq, hlatch, analogStep_retarget]
  cases analogStep (pwmLatchAndCompare s.mux.pwmCnt s) with
  | error f => rfl
  | ok v => exact congrArg Except.ok (pwmReturn_retarget v)

/-- Settles O32: every part of the firing commutes with the change of targets, and so does the raise. -/
theorem dutyTargetsLatchOnlyAtCycleStart : Obligations.DutyTargetsLatchOnlyAtCycleStart := by
  intro s t duty hc change h
  obtain ⟨hchoice, rfl⟩ := runEvent_next.mp h
  refine runEvent_next.mpr ⟨hchoice, ?_⟩
  rw [show change = retarget duty from rfl, firePwmBody_retarget hc]
  cases firePwmBody s <;> rfl

end Sys2Proof.Machine
end

section
/-! PROOF. Proofs/Runs.lean: runs of labels (R68). A run that ends in a running block is a run of effects, so a law
about any interleaving is one induction: a predicate indexed by how often one label has come, which that label's effect
takes to the next index and every other label's effect keeps. -/

namespace Sys2Proof.Machine

variable {s t u : State} {i a : Instr} {labels rest : List Instr}

theorem runLabels_cons_next : runLabels (i :: rest) s = .next t ↔
    ∃ u, exec i s = .next u ∧ runLabels rest u = .next t := by
  rw [runLabels]
  cases exec i s <;> simp

/-- A run that ends in a running block began in one: a halted block has no step (R301). -/
theorem running_of_runLabels (h : runLabels labels s = .next t) (ht : t.fault = none) : s.fault = none := by
  cases labels with
  | nil =>
    cases h
    exact ht
  | cons i rest =>
    obtain ⟨u, hu, -⟩ := runLabels_cons_next.mp h
    exact (exec_enabled hu).1

/-- The first label of a run that ends in a running block has had its effect. -/
theorem runLabels_cons_effect (h : runLabels (i :: rest) s = .next t) (ht : t.fault = none) :
    ∃ u, Effect i s u ∧ runLabels rest u = .next t := by
  obtain ⟨u, hu, hrest⟩ := runLabels_cons_next.mp h
  exact ⟨u, exec_effect hu (running_of_runLabels hrest ht), hrest⟩

/-- A law about a run by the number of its labels a, up to N of them, the other labels all being `allowed`. -/
theorem runLabels_count {P : Nat → State → Prop} {allowed : Instr → Prop} {N : Nat}
    (hcount : ∀ k s t, k < N → P k s → Effect a s t → P (k + 1) t)
    (hother : ∀ k i s t, i ≠ a → allowed i → P k s → Effect i s t → P k t) {k : Nat} (hs : P k s)
    (hrun : runLabels labels s = .next t) (ht : t.fault = none) (hallowed : ∀ i ∈ labels, allowed i)
    (hN : k + labels.count a ≤ N) : P (k + labels.count a) t := by
  induction labels generalizing s k with
  | nil =>
    cases hrun
    exact hs
  | cons i rest ih =>
    obtain ⟨u, hu, hrest⟩ := runLabels_cons_effect hrun ht
    have hallowed' := fun j hj => hallowed j (List.mem_cons_of_mem i hj)
    by_cases hi : i = a
    case pos =>
      subst hi
      rw [List.count_cons_self] at hN ⊢
      have := ih (hcount k s u (by omega) hs hu) hrest hallowed' (by omega)
      rwa [Nat.add_right_comm] at this
    case neg =>
      rw [List.count_cons_of_ne hi] at hN ⊢
      exact ih (hother k i s u hi (hallowed i List.mem_cons_self) hs hu) hrest hallowed' hN

/-- What every allowed label's effect keeps, a run of allowed labels keeps. -/
theorem runLabels_keeps {P : State → Prop} {allowed : Instr → Prop}
    (hkeep : ∀ i s t, allowed i → P s → Effect i s t → P t) (hs : P s) (hrun : runLabels labels s = .next t)
    (ht : t.fault = none) (hallowed : ∀ i ∈ labels, allowed i) : P t := by
  induction labels generalizing s with
  | nil =>
    cases hrun
    exact hs
  | cons i rest ih =>
    obtain ⟨u, hu, hrest⟩ := runLabels_cons_effect hrun ht
    exact ih (hkeep i s u (hallowed i List.mem_cons_self) hs hu) hrest
      fun j hj => hallowed j (List.mem_cons_of_mem i hj)

end Sys2Proof.Machine
end

section
/-! PROOF. Proofs/PwmLaws.lean: the waveform law (R173) and the analog law (R174). Both follow the multiplexer's cells
through a run: the PWM firings by their effect, every other label by what it leaves of those cells. -/

namespace Sys2Proof.Machine

variable {s t u : State} {i : Instr} {c d : BitVec 8} {k n : Nat} {p : Params} {j : Byte} {v : Nat}

/-! What a PWM firing leaves in the multiplexer. -/

/-- The analog step writes only the analog cells of the multiplexer (R166). -/
theorem analogStep_mux (h : analogStep s = .ok u) :
    u.mux = { s.mux with analog := u.mux.analog, adcPos := u.mux.adcPos } := by
  rcases analogStep_ok h with ⟨-, rfl⟩ | ⟨-, -, rfl⟩ | ⟨-, -, -, ⟨ch, -, rfl⟩ | ⟨-, rfl⟩⟩
  · rfl
  · rfl
  · unfold acceptSample
    dsimp only
    split
    · split <;> rfl
    · rfl
  · rfl

/-- The multiplexer after a firing, with the analog cells as the analog step leaves them. -/
theorem firePwmBody_mux (h : firePwmBody s = .ok u) : ∃ w, analogStep (pwmLatchAndCompare s.mux.pwmCnt s) = .ok w ∧
    u.env = w.env ∧ u.mux = {
      pwm := s.mux.pwm.map fun ch => compareChan s.mux.pwmCnt (latchChan s.mux.pwmCnt ch)
      pwmCnt := s.mux.pwmCnt + 1
      analog := w.mux.analog
      adcPos := w.mux.adcPos
      tickCnt := if s.params.maintThreshold ≤ s.mux.tickCnt.toNat + 1 then 0 else s.mux.tickCnt + 1
      maintDue := s.mux.maintDue || decide (s.params.maintThreshold ≤ s.mux.tickCnt.toNat + 1) } := by
  obtain ⟨w, hw, hu⟩ := firePwmBody_ok h
  rw [← pwmReturn, pwmReturn_eq] at hu
  refine ⟨w, hw, by rw [hu], ?_⟩
  rw [hu, analogStep_mux hw, (only_analogStep hw).params]
  rfl

/-! What every other instruction leaves. -/

/-- Besides FIRE_PWM only SET_DUTY and CLR_MAINT write the multiplexer, a duty target and a flag (R161, R172). -/
theorem effect_mux (h : Effect i s t) (hi : i ≠ .firePwm) : t.mux = s.mux ∨
    (∃ k d, i = .setDuty k d ∧
      t.mux = { s.mux with pwm := s.mux.pwm.modify k.toNat fun ch => { ch with tgt := d.setWidth 8 } }) ∨
    (i = .clrMaint ∧ t.mux = { s.mux with maintDue := false }) := by
  by_cases hw : .mux ∈ writes i
  case neg => exact .inl ((effect_only h).mux hw)
  rcases mux_mem_writes.mp hw with ⟨k, d, rfl⟩ | rfl | rfl
  · obtain ⟨-, -, rfl⟩ := setDutyBody_ok h
    exact .inr (.inl ⟨k, d, rfl, rfl⟩)
  · obtain rfl := h
    exact .inr (.inr ⟨rfl, rfl⟩)
  · exact absurd rfl hi

theorem effect_mux_counters (h : Effect i s t) (hi : i ≠ .firePwm) :
    t.mux.pwmCnt = s.mux.pwmCnt ∧ t.mux.analog = s.mux.analog ∧ t.mux.adcPos = s.mux.adcPos ∧
      t.mux.tickCnt = s.mux.tickCnt := by
  rcases effect_mux h hi with hm | ⟨k, d, -, hm⟩ | ⟨-, hm⟩ <;> simp [hm]

/-- A view that one channel's change does not show stays as it was. -/
theorem map_modify_of_view {β α : Type} {view : β → α} {g : β → β} (hview : ∀ x, view (g x) = view x) (l : List β)
    (k : Nat) : (l.modify k g).map view = l.map view := by
  refine List.ext_getElem? fun n => ?_
  simp only [List.getElem?_map, List.getElem?_modify]
  split <;> simp [Function.comp_def, hview]

/-- A view of the PWM channels that does not show the duty targets stays. -/
theorem effect_pwm_view {α : Type} {view : PwmChan → α} (hview : ∀ ch x, view { ch with tgt := x } = view ch)
    (h : Effect i s t) (hi : i ≠ .firePwm) : t.mux.pwm.map view = s.mux.pwm.map view := by
  rcases effect_mux h hi with hm | ⟨k, d, -, hm⟩ | ⟨-, hm⟩
  · rw [hm]
  · rw [hm]
    exact map_modify_of_view (fun ch => hview ch _) _ _
  · rw [hm]

/-! The waveform law (R173). -/

/-- What the law follows of a channel: its latched duty and its output. -/
def wave (ch : PwmChan) : BitVec 8 × Bool := (ch.lat, ch.out)

/-- After tick k of a cycle with duty d latched, channel n shows the waveform's tick k and the counter its next one. -/
def WaveAt (n : Nat) (d : BitVec 8) (k : Nat) (s : State) : Prop :=
  s.mux.pwmCnt = BitVec.ofNat 8 (k + 1) ∧
    (s.mux.pwm.map wave)[n]? = some (d, decide (d.toNat = 255 ∨ k < d.toNat))

/-- The first tick of a cycle latches the target. -/
theorem wave_first (ch : PwmChan) :
    wave (compareChan 0 (latchChan 0 ch)) = (ch.tgt, decide (ch.tgt.toNat = 255 ∨ 0 < ch.tgt.toNat)) := by
  rw [compareChan_eq, latchChan_zero]
  refine Prod.ext rfl ?_
  change (if ch.tgt = 0 ∧ ch.tgt ≠ 255 then false else if ch.tgt = 0 then ch.out else true) = _
  by_cases ht : ch.tgt = 0
  case pos => simp [ht]
  case neg =>
    have hpos : 0 < ch.tgt.toNat := Nat.pos_of_ne_zero fun h => ht (BitVec.eq_of_toNat_eq h)
    simp only [ht, hpos, false_and, if_false, or_true, decide_true]

/-- A later tick ends the pulse of the duty that it reaches. -/
theorem wave_later (hk : k + 1 ≤ 255) {ch : PwmChan} (h : wave ch = (d, decide (d.toNat = 255 ∨ k < d.toNat))) :
    wave (compareChan (BitVec.ofNat 8 (k + 1)) (latchChan (BitVec.ofNat 8 (k + 1)) ch)) =
      (d, decide (d.toNat = 255 ∨ k + 1 < d.toNat)) := by
  obtain ⟨rfl, hout⟩ := Prod.mk.inj h
  have hnat : (BitVec.ofNat 8 (k + 1)).toNat = k + 1 := Nat.mod_eq_of_lt (by omega)
  have hc : BitVec.ofNat 8 (k + 1) ≠ 0 := fun h0 => by simp [h0] at hnat
  rw [latchChan_of_ne hc, compareChan_eq]
  refine Prod.ext rfl ?_
  change (if ch.lat = BitVec.ofNat 8 (k + 1) ∧ ch.lat ≠ 255 then false else ch.out) = _
  have hends : (ch.lat = BitVec.ofNat 8 (k + 1) ∧ ch.lat ≠ 255) ↔ (ch.lat.toNat = k + 1 ∧ ch.lat.toNat ≠ 255) := by
    rw [← BitVec.toNat_inj, hnat, ne_eq, ← BitVec.toNat_inj]
    exact Iff.rfl
  rw [hout]
  split
  case isTrue h =>
    rw [hends] at h
    exact (decide_eq_false (by omega)).symm
  case isFalse h =>
    rw [hends] at h
    exact decide_eq_decide.mpr (by omega)

theorem waveAt_firePwm (hk : k < 255) (hs : WaveAt n d k s) (h : Effect .firePwm s t) : WaveAt n d (k + 1) t := by
  obtain ⟨hcnt, hwave⟩ := hs
  obtain ⟨w, -, -, hm⟩ := firePwmBody_mux h
  refine ⟨?_, ?_⟩
  · rw [hm, hcnt, BitVec.ofNat_add (n := 8) (x := k + 1) (y := 1)]
    rfl
  · rw [List.getElem?_map, Option.map_eq_some_iff] at hwave
    obtain ⟨ch, hch, hw⟩ := hwave
    rw [hm, hcnt]
    simp only [List.getElem?_map, hch, Option.map_some]
    exact congrArg some (wave_later hk hw)

theorem waveAt_other (hi : i ≠ .firePwm) (hs : WaveAt n d k s) (h : Effect i s t) : WaveAt n d k t := by
  obtain ⟨hcnt, hwave⟩ := hs
  have hview : t.mux.pwm.map wave = s.mux.pwm.map wave := effect_pwm_view (fun _ _ => rfl) h hi
  exact ⟨(effect_mux_counters h hi).1.trans hcnt, by rw [hview, hwave]⟩

/-- Settles O31: the first firing starts the waveform of the target as it stood, and each later one is its next tick. -/
theorem pwmWaveformLaw : Obligations.PwmWaveformLaw := by
  intro s s1 t labels n ch hcnt hch hfirst hrun ht hlen
  have hstart : WaveAt n ch.tgt 0 s1 := by
    obtain ⟨w, -, -, hm⟩ := firePwmBody_mux (exec_effect hfirst (running_of_runLabels hrun ht))
    refine ⟨by rw [hm, hcnt]; rfl, ?_⟩
    rw [hm, hcnt]
    simp only [List.getElem?_map, hch, Option.map_some, wave_first]
  have hend := runLabels_count (N := 255) (allowed := fun _ => True) (fun _ _ _ => waveAt_firePwm)
    (fun _ _ _ _ hi _ => waveAt_other hi) hstart hrun ht (fun _ _ => trivial) (by omega)
  rw [Nat.zero_add] at hend
  have := congrArg (Option.map Prod.snd) hend.2
  rw [List.getElem?_map, Option.map_map] at this
  exact this

/-! The analog law (R174). -/

/-- Scaling the sum of 2^k equal samples is scaling the sample: the shift drops the k bits that the sum gained. -/
theorem normalizeAvg_constant (p : Params) (v : Nat) : normalizeAvg p (2 ^ p.oversampleK * v) =
    if p.adcBits ≤ p.outBits then v * 2 ^ (p.outBits - p.adcBits) else v / 2 ^ (p.adcBits - p.outBits) := by
  have hpow (m : Nat) : 0 < 2 ^ m := Nat.two_pow_pos m
  unfold normalizeAvg
  by_cases hup : p.adcBits + p.oversampleK ≤ p.outBits
  case pos =>
    rw [if_pos hup, if_pos (by omega), Nat.mul_comm _ v, Nat.mul_assoc, ← Nat.pow_add]
    congr 2
    omega
  case neg =>
    rw [if_neg hup]
    by_cases hout : p.adcBits ≤ p.outBits
    case pos =>
      have hsplit : 2 ^ p.oversampleK =
          2 ^ (p.adcBits + p.oversampleK - p.outBits) * 2 ^ (p.outBits - p.adcBits) := by
        rw [← Nat.pow_add]
        congr 1
        omega
      rw [if_pos hout, hsplit, Nat.mul_assoc, Nat.mul_div_cancel_left _ (hpow _), Nat.mul_comm]
    case neg =>
      have hsplit : 2 ^ (p.adcBits + p.oversampleK - p.outBits) = 2 ^ p.oversampleK * 2 ^ (p.adcBits - p.outBits) := by
        rw [← Nat.pow_add]
        congr 1
        omega
      rw [if_neg hout, hsplit, Nat.mul_div_mul_left _ _ (hpow _)]

/-- The next n answers of a queue are x. -/
def Feeds {α : Type} (n : Nat) (x : α) (queue : List α) : Prop := ∃ later, queue = List.replicate n x ++ later

theorem Feeds.head {α : Type} {x free : α} {queue : List α} (h : Feeds (n + 1) x queue) : answer queue free = x := by
  obtain ⟨later, rfl⟩ := h
  rfl

theorem Feeds.tail {α : Type} {x : α} {queue : List α} (h : Feeds (n + 1) x queue) : Feeds n x queue.tail := by
  obtain ⟨later, rfl⟩ := h
  exact ⟨later, rfl⟩

/-- The converter's answers are drawn by FIRE_PWM alone (R166). -/
theorem effect_converter (h : Effect i s t) (hi : i ≠ .firePwm) :
    t.env.readyIn = s.env.readyIn ∧ t.env.valueIn = s.env.valueIn := by
  by_cases hw : .env ∈ writes i
  case neg => simp [(effect_only h).env hw]
  rcases env_mem_writes.mp hw with rfl | rfl
  · rcases fireStepBody_ok h with ⟨-, rfl⟩ | ⟨-, -, hb⟩ | ⟨-, -, hb⟩
    · exact ⟨rfl, rfl⟩
    · obtain ⟨-, rfl⟩ := steppingBranch_ok hb
      exact ⟨rfl, rfl⟩
    · rw [(only_emptyBranch hb).env (by simp)]
      exact ⟨rfl, rfl⟩
  · exact absurd rfl hi

/-- After k of the 2^K samples, all v, of channel j: the accumulator holds k of them and the converter has the rest
ready; after the last, the average is published. -/
structure Averaging (p : Params) (j : Byte) (v k : Nat) (s : State) : Prop where
  params : s.params = p
  pos : k < 2 ^ p.oversampleK → s.mux.adcPos = j
  cell : k < 2 ^ p.oversampleK → ∃ avg, s.mux.analog[j.toNat]? = some ⟨k * v, k, avg⟩
  ready : Feeds (2 ^ p.oversampleK - k) true s.env.readyIn
  value : Feeds (2 ^ p.oversampleK - k) v s.env.valueIn
  published : k = 2 ^ p.oversampleK → s.mux.analog[j.toNat]? = some ⟨0, 0, normalizeAvg p (2 ^ p.oversampleK * v)⟩

theorem averaging_firePwm (hn : p.nAnalog ≠ 0) (hv : v < 2 ^ p.adcBits) (hk : k < 2 ^ p.oversampleK)
    (hs : Averaging p j v k s) (h : Effect .firePwm s t) : Averaging p j v (k + 1) t := by
  obtain ⟨rfl, hpos, hcell, hready, hvalue, -⟩ := hs
  obtain ⟨avg, hcell⟩ := hcell hk
  obtain rfl := hpos hk
  have hleft : 2 ^ s.params.oversampleK - k = 2 ^ s.params.oversampleK - (k + 1) + 1 := by omega
  rw [hleft] at hready hvalue
  have hval : valueAnswer (drewReady s.env) s.mux.adcPos = v := hvalue.head
  have hrange : valueAnswer (drewReady s.env) s.mux.adcPos ≤ 2 ^ s.params.adcBits - 1 := by omega
  have hpresent := (List.getElem?_eq_some_iff.mp hcell).1
  obtain ⟨w, hw, henv, hm⟩ := firePwmBody_mux h
  rw [analogStep_accepts (s := pwmLatchAndCompare s.mux.pwmCnt s) hn hready.head hrange hcell] at hw
  obtain rfl := Except.ok.inj hw
  have hparams := (effect_only h).params
  by_cases hlast : k + 1 = 2 ^ s.params.oversampleK
  case pos =>
    rw [acceptSample_publishes (by exact hlast)] at henv hm
    exact {
      params := hparams
      pos := fun hk' => absurd hlast hk'.ne
      cell := fun hk' => absurd hlast hk'.ne
      ready := henv ▸ hready.tail
      value := henv ▸ hvalue.tail
      published := fun _ => by
        rw [hm, ← hlast, Nat.succ_mul, ← hval]
        exact List.getElem?_set_self hpresent }
  case neg =>
    rw [acceptSample_accumulates (by exact hlast)] at henv hm
    exact {
      params := hparams
      pos := fun _ => by rw [hm]; rfl
      cell := fun _ => ⟨avg, by
        rw [hm, Nat.succ_mul, ← hval]
        exact List.getElem?_set_self hpresent⟩
      ready := henv ▸ hready.tail
      value := henv ▸ hvalue.tail
      published := fun hk' => absurd hk' hlast }

theorem averaging_other (hi : i ≠ .firePwm) (hs : Averaging p j v k s) (h : Effect i s t) : Averaging p j v k t := by
  obtain ⟨-, hanalog, hpos, -⟩ := effect_mux_counters h hi
  obtain ⟨hready, hvalue⟩ := effect_converter h hi
  exact {
    params := (effect_only h).params.trans hs.params
    pos := fun hk => hpos.trans (hs.pos hk)
    cell := fun hk => hanalog ▸ hs.cell hk
    ready := hready ▸ hs.ready
    value := hvalue ▸ hs.value
    published := fun hk => hanalog ▸ hs.published hk }

/-- Settles O33: 2^K firings take the K-th part each, whatever comes between them. -/
theorem analogAverageLaw : Obligations.AnalogAverageLaw := by
  intro s t labels v avg more later hn hcell hready hvalue hv hrun ht hcount
  have hstart : Averaging s.params s.mux.adcPos v 0 s := {
    params := rfl
    pos := fun _ => rfl
    cell := fun _ => ⟨avg, by rw [hcell, Nat.zero_mul]⟩
    ready := ⟨more, hready⟩
    value := ⟨later, hvalue⟩
    published := fun h0 => absurd h0 (Nat.two_pow_pos _).ne }
  have hend := runLabels_count (N := 2 ^ s.params.oversampleK) (allowed := fun _ => True)
    (fun _ _ _ => averaging_firePwm hn hv) (fun _ _ _ _ hi _ => averaging_other hi) hstart hrun ht
    (fun _ _ => trivial) (by omega)
  rw [← normalizeAvg_constant]
  exact hend.published (by omega)

end Sys2Proof.Machine
end

section
/-! PROOF. Proofs/ServoFiring.lean: FIRE_SERVO (R200 to R205). The body's effect is Laws/Bodies.lean's; here is when it
raises instead, so that every firing is one or the other. -/

namespace Sys2Proof.Machine

variable {s t u : State} {rest : List CtxEntry} {c w us us' : Nat} {i : Instr} {f : FaultCode}

theorem exec_fireServo_ready (h : HandlerReady ⟨.servo, .entered⟩ rest s) : exec .fireServo s =
    .next (settle s 0x9302000000000000#64 (fireServoBody s)) :=
  runEvent_ready (handlerReady_servo h) _ _

/-! When a firing raises. -/

/-- The re-arm of a servo phase is above RELOAD_MAX (R103, R203, R204). -/
def ServoOverrun (s : State) : Prop :=
  (highPhase s.servo.phase = true ∧ reloadMax s.params < highTicks s (servoWidth s (phaseChan s.servo.phase))) ∨
  (highPhase s.servo.phase = false ∧ reloadMax s.params < frameTicks s - s.servo.lastHigh)

theorem except_map_error {α β : Type} {k : α → β} {x : Except FaultCode α} (h : x.map k = .error f) : x = .error f := by
  cases x with
  | error g => exact congrArg Except.error (Except.error.inj h)
  | ok a => cases h

/-- A servo phase raises only at its re-arm (R103). -/
theorem fireServoBody_error (h : fireServoBody s = .error f) : f = .operandRange ∧ ServoOverrun s := by
  unfold fireServoBody at h
  have hphase := except_map_error h
  by_cases hp : highPhase s.servo.phase = true
  case pos =>
    rw [if_pos hp, servoHighPhase] at hphase
    obtain ⟨hr, hf⟩ := rearmInt_error.mp hphase
    refine ⟨hf, .inl ⟨hp, ?_⟩⟩
    dsimp only at hr
    split at hr <;> exact hr
  case neg =>
    rw [if_neg hp, servoLowPhase] at hphase
    obtain ⟨hr, hf⟩ := rearmInt_error.mp hphase
    exact ⟨hf, .inr ⟨by simpa using hp, hr⟩⟩

theorem fireServoBody_overrun (h : ServoOverrun s) : fireServoBody s = .error .operandRange := by
  cases hb : fireServoBody s with
  | error f => rw [(fireServoBody_error hb).1]
  | ok u =>
    rcases fireServoBody_ok hb with ⟨hp, hr, -⟩ | ⟨hp, hr, -⟩ <;> rcases h with ⟨hp', hr'⟩ | ⟨hp', hr'⟩
    · omega
    · simp [hp] at hp'
    · simp [hp] at hp'
    · omega

theorem fireServoBody_high (hp : highPhase s.servo.phase = true)
    (hr : highTicks s (servoWidth s (phaseChan s.servo.phase)) ≤ reloadMax s.params) : fireServoBody s = .ok { s with
      servo := {
        chans := if servoWidth s (phaseChan s.servo.phase) = 0 then s.servo.chans
          else s.servo.chans.modify (phaseChan s.servo.phase) fun ch => { ch with out := true }
        phase := s.servo.phase + 1
        lastHigh := highTicks s (servoWidth s (phaseChan s.servo.phase)) }
      timers := s.timers.set .servo
        { s.timers.servo with rld := max 1 (highTicks s (servoWidth s (phaseChan s.servo.phase))) }
      gie := true
      ctx := s.ctx.tail } := by
  cases hb : fireServoBody s with
  | error f =>
    rcases (fireServoBody_error hb).2 with ⟨-, hr'⟩ | ⟨hp', -⟩
    · omega
    · simp [hp] at hp'
  | ok u =>
    rcases fireServoBody_ok hb with ⟨-, -, rfl⟩ | ⟨hp', -⟩
    · rfl
    · simp [hp] at hp'

theorem fireServoBody_low (hp : highPhase s.servo.phase = false)
    (hr : frameTicks s - s.servo.lastHigh ≤ reloadMax s.params) : fireServoBody s = .ok { s with
      servo := { s.servo with
        chans := s.servo.chans.modify (phaseChan s.servo.phase) fun ch => { ch with out := false }
        phase := s.servo.phase + 1 }
      timers := s.timers.set .servo { s.timers.servo with rld := max 1 (frameTicks s - s.servo.lastHigh) }
      gie := true
      ctx := s.ctx.tail } := by
  cases hb : fireServoBody s with
  | error f =>
    rcases (fireServoBody_error hb).2 with ⟨hp', -⟩ | ⟨-, hr'⟩
    · simp [hp] at hp'
    · omega
  | ok u =>
    rcases fireServoBody_ok hb with ⟨hp', -⟩ | ⟨-, -, rfl⟩
    · simp [hp] at hp'
    · rfl

/-! Phases and lengths (R200, R201). -/

theorem highPhase_iff {p : BitVec 3} : highPhase p = true ↔ p.toNat % 2 = 0 := by
  simp [highPhase]

theorem highPhase_false_iff {p : BitVec 3} : highPhase p = false ↔ p.toNat % 2 = 1 := by
  simp [highPhase]

theorem usToTicks_of_psc (h : s.timers.servo.psc ≠ 0) (us : Nat) : usToTicks s us =
    us * s.params.baseClock.servo / (s.timers.servo.psc.toNat * 1000000) :=
  if_neg h

theorem servoWidth_of_chan {ch : ServoChan} (h : s.servo.chans[c]? = some ch) :
    servoWidth s c = if c < s.params.nServo then ch.width.toNat else 0 := by
  rw [servoWidth, h]
  rfl

/-- Settles O38: the even phase of channel c, with the lengths written out. (The plain name is the model's function.) -/
theorem Servo.servoHighPhase : Obligations.ServoHighPhase := by
  intro s rest c ch hready hphase hch hpsc ticks w h
  have hp : highPhase s.servo.phase = true := highPhase_iff.mpr (by omega)
  have hc : phaseChan s.servo.phase = c := by
    rw [phaseChan]
    omega
  have hw : servoWidth s (phaseChan s.servo.phase) = w := by rw [hc, servoWidth_of_chan hch]
  have hh : highTicks s (servoWidth s (phaseChan s.servo.phase)) = h := by
    rw [hw, highTicks, usToTicks_of_psc hpsc, usToTicks_of_psc hpsc]
    rfl
  have htail : s.ctx.tail = rest := congrArg List.tail (handlerReady_ctx hready)
  rw [exec_fireServo_ready hready]
  refine ⟨fun hrange => ?range, fun hfits => ?raises⟩
  case range =>
    rw [fireServoBody_overrun (.inl ⟨hp, by rw [hh]; exact hrange⟩)]
    rfl
  case raises =>
    rw [fireServoBody_high hp (by rw [hh]; exact hfits), settle_ok, hh, hw, hc, htail, List.modify_eq_set_getElem?, hch]
    rfl

/-- Settles O39: the odd phase of channel c, with the lengths written out. (The plain name is the model's function.) -/
theorem Servo.servoLowPhase : Obligations.ServoLowPhase := by
  intro s rest c frame ch hready hphase hch hpsc hframe
  have hp : highPhase s.servo.phase = false := highPhase_false_iff.mpr (by omega)
  have hc : phaseChan s.servo.phase = c := by
    rw [phaseChan]
    omega
  have hft : frameTicks s = frame := by
    rw [frameTicks, usToTicks_of_psc hpsc, hframe]
    rfl
  have hnext : s.servo.phase + 1 = BitVec.ofNat 3 ((2 * c + 2) % 8) := by
    apply BitVec.eq_of_toNat_eq
    rw [BitVec.toNat_add, BitVec.toNat_ofNat, hphase, Nat.mod_mod]
    rfl
  have htail : s.ctx.tail = rest := congrArg List.tail (handlerReady_ctx hready)
  rw [exec_fireServo_ready hready]
  refine ⟨fun hrange => ?range, fun hfits => ?drops⟩
  case range =>
    rw [fireServoBody_overrun (.inr ⟨hp, by rw [hft]; exact hrange⟩)]
    rfl
  case drops =>
    rw [fireServoBody_low hp (by rw [hft]; exact hfits), settle_ok, hft, hc, htail, hnext, List.modify_eq_set_getElem?,
      hch]
    rfl

end Sys2Proof.Machine
end

section
/-! PROOF. Proofs/ServoLaws.lean: the frame law (R206) and the edge order (R207). -/

namespace Sys2Proof.Machine

variable {s t u : State} {c w us us' : Nat} {i : Instr}

/-- Besides FIRE_SERVO only SET_SERVO writes the generator's cells, the width of a present channel (R202). -/
theorem effect_servo (h : Effect i s t) (hi : i ≠ .fireServo) : t.servo = s.servo ∨
    ∃ k us, i = .setServo k us ∧ s.params.servoPresent = true ∧ k.toNat < s.params.nServo ∧ t.servo = { s.servo with
      chans := s.servo.chans.modify k.toNat fun ch => { ch with width := us.setWidth 16 } } := by
  by_cases hw : .servo ∈ writes i
  case neg => exact .inl ((effect_only h).servo hw)
  rcases servo_mem_writes.mp hw with ⟨k, us, rfl⟩ | rfl
  · obtain ⟨hp, hk, -, rfl⟩ := setServoBody_ok h
    exact .inr ⟨k, us, rfl, hp, hk, rfl⟩
  · exact absurd rfl hi

/-! The frame law (R206). -/

theorem usToTicks_mono (hpsc : s.timers.servo.psc ≠ 0) (h : us ≤ us') : usToTicks s us ≤ usToTicks s us' := by
  rw [usToTicks_of_psc hpsc, usToTicks_of_psc hpsc]
  exact Nat.div_le_div_right (Nat.mul_le_mul_right _ h)

/-- Every high phase is as long as a width between the limits (R203). -/
theorem highTicks_bounds (hpsc : s.timers.servo.psc ≠ 0) (w : Nat) :
    usToTicks s servoMinUs ≤ highTicks s w ∧ highTicks s w ≤ usToTicks s servoMaxUs := by
  unfold highTicks
  split
  case isTrue => exact ⟨usToTicks_mono hpsc (by decide), usToTicks_mono hpsc (by decide)⟩
  case isFalse =>
    have hlow : servoMinUs ≤ clamp w servoMinUs servoMaxUs := by
      simp only [clamp, servoMinUs, servoMaxUs]
      omega
    have hhigh : clamp w servoMinUs servoMaxUs ≤ servoMaxUs := Nat.min_le_right _ _
    exact ⟨usToTicks_mono hpsc hlow, usToTicks_mono hpsc hhigh⟩

/-- The boot constraints bound every high phase below the frame (R352 (c)). -/
theorem highTicks_boot (h : ServoBoot s) (w : Nat) :
    1 ≤ highTicks s w ∧ highTicks s w + 1 ≤ frameTicks s ∧ highTicks s w ≤ reloadMax s.params := by
  obtain ⟨hpsc, hmin, hframe, hmax⟩ := h
  obtain ⟨hlow, hhigh⟩ := highTicks_bounds hpsc w
  omega

/-- What the frame law follows between a high phase and the firing after it. -/
def LowPhaseDue (p : Params) (h : Nat) (s : State) : Prop :=
  s.params = p ∧ highPhase s.servo.phase = false ∧ s.servo.lastHigh = h

theorem lowPhaseDue_other {p : Params} {h : Nat} (hi : i ≠ .fireServo) (hs : LowPhaseDue p h s) (he : Effect i s t) :
    LowPhaseDue p h t := by
  obtain ⟨hparams, hphase, hlast⟩ := hs
  refine ⟨(effect_only he).params.trans hparams, ?_⟩
  rcases effect_servo he hi with hv | ⟨k, us, -, -, -, hv⟩ <;> rw [hv] <;> exact ⟨hphase, hlast⟩

/-- Settles O40: the high phase records its length, every other label keeps the record, and the low phase takes the rest
of the frame. -/
theorem servoFrameLaw : Obligations.ServoFrameLaw := by
  intro s s1 s2 t labels hboot hphase h1 hrun hno hpsc h2
  have hp : highPhase s.servo.phase = true := highPhase_iff.mpr hphase
  obtain ⟨hone, hbelow, hfits⟩ := highTicks_boot hboot (servoWidth s (phaseChan s.servo.phase))
  obtain ⟨-, rfl⟩ := runEvent_next.mp h1
  rw [fireServoBody_high hp hfits, settle_ok] at hrun ⊢
  have hnext : highPhase (s.servo.phase + 1) = false := highPhase_false_iff.mpr (by bv_omega)
  obtain ⟨hparams, hlow, hlast⟩ := runLabels_keeps
    (P := LowPhaseDue s.params (highTicks s (servoWidth s (phaseChan s.servo.phase)))) (allowed := (· ≠ .fireServo))
    (fun _ _ _ => lowPhaseDue_other) (by exact ⟨rfl, hnext, rfl⟩) hrun (exec_enabled h2).1 fun i hi he => hno (he ▸ hi)
  have hframe : frameTicks s2 = frameTicks s := by rw [frameTicks, usToTicks, hparams, hpsc, frameTicks, usToTicks]
  have hrest : frameTicks s2 - s2.servo.lastHigh ≤ reloadMax s2.params := by
    rw [hframe, hparams]
    exact (Nat.sub_le _ _).trans hboot.2.2.1
  obtain ⟨-, rfl⟩ := runEvent_next.mp h2
  rw [fireServoBody_low hlow hrest, settle_ok, hframe, hlast]
  refine ⟨(exec_enabled h1).1, (exec_enabled h2).1, ?_⟩
  change max 1 _ + max 1 (frameTicks s - _) = frameTicks s
  omega

/-! The edge order (R207). -/

/-- A servo output is high only between its own high and low phase. -/
def OwnPhase (v : Servo) : Prop := ∀ c ch, v.chans[c]? = some ch → ch.out = true → v.phase.toNat = 2 * c + 1

/-- No two channels have the same phase between their edges. -/
theorem OwnPhase.unique {v : Servo} (h : OwnPhase v) {c d : Nat} {x y : ServoChan} (hx : v.chans[c]? = some x)
    (hy : v.chans[d]? = some y) (hxo : x.out = true) (hyo : y.out = true) : c = d := by
  have := h c x hx hxo
  have := h d y hy hyo
  omega

/-- A channel of a list with one channel changed is a channel of the list or the changed one. -/
theorem getElem?_modify_some {l : List ServoChan} {k c : Nat} {g : ServoChan → ServoChan} {ch : ServoChan}
    (h : (l.modify k g)[c]? = some ch) : ∃ x, l[c]? = some x ∧ ch = if k = c then g x else x := by
  rw [List.getElem?_modify] at h
  cases hx : l[c]? with
  | none => simp [hx] at h
  | some x =>
    rw [hx] at h
    exact ⟨x, rfl, (Option.some.inj h).symm⟩

theorem ownPhase_width {v : Servo} (h : OwnPhase v) (k : Nat) (x : BitVec 16) :
    OwnPhase { v with chans := v.chans.modify k fun ch => { ch with width := x } } := by
  intro c ch hch hout
  obtain ⟨y, hy, rfl⟩ := getElem?_modify_some hch
  exact h c y hy (by split at hout <;> exact hout)

/-- In an even phase no output is high, and the one it raises is the next, odd phase's own. -/
theorem ownPhase_high {v : Servo} (h : OwnPhase v) (hp : highPhase v.phase = true) (x : Nat) :
    OwnPhase ⟨v.chans.modify (phaseChan v.phase) fun ch => { ch with out := true }, v.phase + 1, x⟩ := by
  have heven := highPhase_iff.mp hp
  have hnext : (v.phase + 1).toNat = v.phase.toNat + 1 := by bv_omega
  intro c ch hch hout
  obtain ⟨y, hy, rfl⟩ := getElem?_modify_some hch
  by_cases hc : phaseChan v.phase = c
  case pos =>
    rw [phaseChan] at hc
    simp only [hnext]
    omega
  case neg =>
    rw [if_neg hc] at hout
    have := h c y hy hout
    omega

/-- An even phase that raises nothing leaves no output high. -/
theorem ownPhase_none {v : Servo} (h : OwnPhase v) (hp : highPhase v.phase = true) (x : Nat) :
    OwnPhase ⟨v.chans, v.phase + 1, x⟩ := by
  have heven := highPhase_iff.mp hp
  intro c ch hch hout
  have := h c ch hch hout
  omega

/-- An odd phase drops the only output that can be high. -/
theorem ownPhase_low {v : Servo} (h : OwnPhase v) (x : BitVec 3) :
    OwnPhase { v with chans := v.chans.modify (phaseChan v.phase) fun ch => { ch with out := false }, phase := x } := by
  intro c ch hch hout
  obtain ⟨y, hy, rfl⟩ := getElem?_modify_some hch
  by_cases hc : phaseChan v.phase = c
  case pos =>
    rw [if_pos hc] at hout
    cases hout
  case neg =>
    rw [if_neg hc] at hout
    have := h c y hy hout
    rw [phaseChan] at hc
    omega

theorem ownPhase_effect (hs : OwnPhase s.servo) (h : Effect i s t) : OwnPhase t.servo := by
  by_cases hi : i = .fireServo
  case pos =>
    subst hi
    rcases fireServoBody_ok h with ⟨hp, -, rfl⟩ | ⟨-, -, rfl⟩
    · dsimp only
      split
      · exact ownPhase_none hs hp _
      · exact ownPhase_high hs hp _
    · exact ownPhase_low hs _
  case neg =>
    rcases effect_servo h hi with hv | ⟨k, us, -, -, -, hv⟩ <;> rw [hv]
    · exact hs
    · exact ownPhase_width hs _ _

/-- Settles O41: every effect keeps the rule; a raise and a turn that passes leave the generator's cells. -/
theorem stepKeepsOneServoHigh : Obligations.StepKeepsOneServoHigh := by
  intro s t hs h
  have ht : OwnPhase t.servo := by
    obtain ⟨-, ⟨i, hi, -⟩ | ⟨w, -, -, rfl⟩ | rfl⟩ := step_cases h
    · rcases exec_next hi with ⟨f, w, rfl, -⟩ | he
      · exact hs
      · exact ownPhase_effect (s := setEnv (nextTurn s.env) s) hs he
    · exact hs
    · exact hs
  exact ⟨ht, fun c d x y hx hy hxo hyo => ht.unique hx hy hxo hyo⟩

end Sys2Proof.Machine
end

section
/-! PROOF. Proofs/AdvanceFiring.lean: FIRE_ADV (R235 to R238), one equation per case, and the hysteresis law (R239). -/

namespace Sys2Proof.Machine

variable {s t u : State} {rest : List CtxEntry} {d : Sign} {i : Instr} {n k lead : Nat}

theorem exec_fireAdv_ready (h : HandlerReady ⟨.adv, .entered⟩ rest s) : exec .fireAdv s =
    .next (settle s 0x9403000000000000#64 (fireAdvBody s)) :=
  runEvent_ready (handlerReady_adv h) _ _

/-! The four cases of the body (R235). -/

theorem fireAdvBody_inactive (h : s.adv.active = false) : fireAdvBody s = .ok (returnFromHandler s) :=
  if_pos h

theorem fireAdvBody_nothingOwed (ha : s.adv.active = true) (hs : signOf s.adv.owed.toInt = none)
    (hr : s.adv.interval ≤ reloadMax s.params) : fireAdvBody s =
      .ok (returnFromHandler (setTimer .adv { s.timers.adv with rld := max 1 s.adv.interval } s)) := by
  rw [fireAdvBody, if_neg (by simp [ha]), hs]
  exact rearmInt_map hr _

theorem fireAdvBody_oneStep (ha : s.adv.active = true) (hs : signOf s.adv.owed.toInt = some d)
    (hd : s.adv.dir = dirOf d) (hr : s.adv.interval ≤ reloadMax s.params) : fireAdvBody s =
      .ok (returnFromHandler (setTimer .adv { s.timers.adv with rld := max 1 s.adv.interval }
        (setAdv { s.adv with owed := BitVec.ofInt 32 (s.adv.owed.toInt - signInt d) } (emit (.advStep d) s)))) := by
  rw [fireAdvBody, if_neg (by simp [ha]), hs]
  simp only [if_pos hd]
  exact rearmInt_map (by exact hr) _

theorem fireAdvBody_directionChange (ha : s.adv.active = true) (hs : signOf s.adv.owed.toInt = some d)
    (hd : s.adv.dir ≠ dirOf d) : fireAdvBody s =
      .ok (returnFromHandler (setTimer .adv { s.timers.adv with rld := max 1 (penalisedInterval s) }
        (emit (.advDirSet d) (setAdv { s.adv with dir := dirOf d, dirOut := d == .plus } s)))) := by
  rw [fireAdvBody, if_neg (by simp [ha]), hs]
  simp only [if_neg hd]
  exact rearmInt_map (by exact penalisedInterval_le (s := s)) _

/-! The signs (R10, R235). -/

theorem signOf_plus {v : Int} (h : 0 < v) : signOf v = some .plus :=
  signOf_some.mpr ⟨by omega, by simp [h]⟩

theorem signOf_minus {v : Int} (h : v < 0) : signOf v = some .minus :=
  signOf_some.mpr ⟨by omega, by simp; omega⟩

theorem dirOf_eq (d : Sign) : dirOf d = if d = .plus then .forward else .reverse := by
  cases d <;> rfl

/-- One unit off the debt, computed in the cell. -/
theorem ofInt_toInt_sub (x : BitVec 32) (v : Int) : BitVec.ofInt 32 (x.toInt - v) = x - BitVec.ofInt 32 v := by
  rw [Int.sub_eq_add_neg, BitVec.ofInt_add, BitVec.ofInt_neg, BitVec.ofInt_toInt, BitVec.sub_eq_add_neg]

/-- Settles O45: the sign of the debt and the direction select the case. -/
theorem fireAdvFourCases : Obligations.FireAdvFourCases := by
  intro s rest hready max rearm penal
  have htail : s.ctx.tail = rest := congrArg List.tail (handlerReady_ctx hready)
  have hrearm (n : Nat) : s.timers.set .adv { s.timers.adv with rld := Nat.max 1 n } = rearm n :=
    congrArg (fun m => s.timers.set .adv { s.timers.adv with rld := m }) (max_one_eq n)
  rw [exec_fireAdv_ready hready]
  refine ⟨fun ha => ?inactive, fun ha hr h0 => ?nothing, fun ha hpos hd => ?forward, fun ha hneg hd => ?reverse,
    fun ha hr hpos hd => ?stepForward, fun ha hr hneg hd => ?stepReverse⟩
  case inactive =>
    rw [fireAdvBody_inactive ha, ← htail]
    rfl
  case nothing =>
    rw [fireAdvBody_nothingOwed ha (signOf_none.mpr (by rw [h0]; rfl)) hr, ← htail, ← hrearm]
    rfl
  case forward =>
    rw [fireAdvBody_directionChange ha (signOf_plus hpos) hd, ← htail, ← hrearm]
    rfl
  case reverse =>
    rw [fireAdvBody_directionChange ha (signOf_minus hneg) hd, ← htail, ← hrearm]
    rfl
  case stepForward =>
    rw [fireAdvBody_oneStep ha (signOf_plus hpos) hd hr, ofInt_toInt_sub, ← htail, ← hrearm]
    rfl
  case stepReverse =>
    have hadd : s.adv.owed + 1 = s.adv.owed - BitVec.ofInt 32 (signInt .minus) := by
      rw [BitVec.sub_eq_add_neg]
      rfl
    rw [fireAdvBody_oneStep ha (signOf_minus hneg) hd hr, ofInt_toInt_sub, ← hadd, ← htail, ← hrearm]
    rfl

/-! What the other instructions leave of the pacer's cells. -/

theorem adv_mem_writes : .adv ∈ writes i ↔ (∃ b, i = .setAdvActive b) ∨ (∃ x, i = .advAddOwed x) ∨
    (∃ x, i = .setAdvComp x) ∨ (∃ x, i = .setAdvInterval x) ∨ i = .fireStep ∨ i = .fireAdv := by
  cases i <;> simp [writes]

theorem trace_mem_writes : .trace ∈ writes i ↔ i = .fireStep ∨ i = .firePwm ∨ i = .fireAdv := by
  cases i <;> simp [writes]

/-- What an instruction can write in the pacer's cells: one way for each of its four commands (R231 to R234), the
stepper's fold (R135), and the two writes of a firing (R237, R238). -/
inductive AdvWrite (s : State) : Instr → Advance → Prop
  | keep (i : Instr) : AdvWrite s i s.adv
  | active (b : Imm) : AdvWrite s (.setAdvActive b) { s.adv with active := immNat b == 1 }
  | owed (x : Imm) : AdvWrite s (.advAddOwed x) { s.adv with owed := BitVec.ofInt 32 (s.adv.owed.toInt + immInt x) }
  | comp (x : Imm) : AdvWrite s (.setAdvComp x) { s.adv with comp := BitVec.ofInt 32 (immInt x) }
  | interval (x : Imm) : immNat x ≤ reloadMax s.params →
      AdvWrite s (.setAdvInterval x) { s.adv with interval := immNat x }
  | fold (x : BitVec 32) : AdvWrite s .fireStep { s.adv with owed := x, comp := 0 }
  | pay (x : BitVec 32) : AdvWrite s .fireAdv { s.adv with owed := x }
  | turn (d : Sign) : AdvWrite s .fireAdv { s.adv with dir := dirOf d, dirOut := d == .plus }

/-- The fold of an empty firing, where the pacer is present (R135). -/
theorem emptyBranch_adv (h : emptyBranch s = .ok u) : u.adv = s.adv ∨
    (s.params.advancePresent = true ∧ ∃ x, u.adv = { s.adv with owed := x, comp := 0 }) := by
  obtain ⟨-, v, hv, rfl⟩ := emptyBranch_ok h
  split at hv
  case isTrue =>
    rcases idleHousekeeping_ok hv with ⟨-, rfl⟩ | ⟨hp, x, -, -, rfl⟩
    · exact .inl rfl
    · exact .inr ⟨hp, BitVec.ofInt 32 x, only_disableWhenIdle.adv (by simp)⟩
  case isFalse =>
    rw [hv]
    exact .inl rfl

theorem fireStepBody_adv (h : fireStepBody s = .ok u) : u.adv = s.adv ∨
    (s.params.advancePresent = true ∧ ∃ x, u.adv = { s.adv with owed := x, comp := 0 }) := by
  rcases fireStepBody_ok h with ⟨-, rfl⟩ | ⟨-, -, hb⟩ | ⟨-, -, hb⟩
  · exact .inl rfl
  · exact .inl ((only_steppingBranch hb).adv (by simp))
  · exact emptyBranch_adv (s := guarded s) hb

/-- The pacer's cells after an effect; a command or a fold writes them only where the unit is present (R7). -/
theorem effect_adv (h : Effect i s t) : AdvWrite s i t.adv ∧
    (t.adv = s.adv ∨ i = .fireAdv ∨ s.params.advancePresent = true) := by
  by_cases hw : .adv ∈ writes i
  case neg =>
    have hkeep := (effect_only h).adv hw
    exact ⟨hkeep ▸ .keep i, .inl hkeep⟩
  rcases adv_mem_writes.mp hw with ⟨b, rfl⟩ | ⟨x, rfl⟩ | ⟨x, rfl⟩ | ⟨x, rfl⟩ | rfl | rfl
  · obtain ⟨hp, -, rfl⟩ := setAdvActiveBody_ok h
    exact ⟨.active b, .inr (.inr hp)⟩
  · obtain ⟨hp, -, rfl⟩ := advAddOwedBody_ok h
    exact ⟨.owed x, .inr (.inr hp)⟩
  · obtain ⟨hp, rfl⟩ := setAdvCompBody_ok h
    exact ⟨.comp x, .inr (.inr hp)⟩
  · obtain ⟨hp, hr, rfl⟩ := setAdvIntervalBody_ok h
    exact ⟨.interval x hr, .inr (.inr hp)⟩
  · rcases fireStepBody_adv h with hkeep | ⟨hp, x, hx⟩
    · exact ⟨hkeep ▸ .keep _, .inl hkeep⟩
    · exact ⟨hx ▸ .fold x, .inr (.inr hp)⟩
  · refine ⟨?_, .inr (.inl rfl)⟩
    rcases fireAdvBody_ok h with ⟨-, rfl⟩ | ⟨-, -, -, rfl⟩ | ⟨-, d, -, -, -, rfl⟩ | ⟨-, d, -, -, rfl⟩
    · exact .keep _
    · exact .keep _
    · exact .pay _
    · exact .turn d

/-- The output events of a PWM firing (R166, R169). -/
theorem firePwmBody_trace (h : firePwmBody s = .ok u) :
    ∃ events, u.trace = s.trace ++ events ∧ ∀ e ∈ events, e = .adcStart ∨ e = .uiHook := by
  obtain ⟨w, hw, hu⟩ := firePwmBody_ok h
  rw [← pwmReturn, pwmReturn_eq] at hu
  have hsample : ∃ events, w.trace = s.trace ++ events ∧ ∀ e ∈ events, e = .adcStart := by
    rcases analogStep_ok hw with ⟨-, rfl⟩ | ⟨-, -, rfl⟩ | ⟨-, -, -, ⟨ch, -, rfl⟩ | ⟨-, rfl⟩⟩
    · exact ⟨[], (List.append_nil _).symm, by simp⟩
    · exact ⟨[], (List.append_nil _).symm, by simp⟩
    · by_cases hlast : ch.scnt + 1 = 2 ^ s.params.oversampleK
      · rw [acceptSample_publishes (by exact hlast)]
        exact ⟨_, rfl, by split <;> simp⟩
      · rw [acceptSample_accumulates (by exact hlast)]
        exact ⟨[], (List.append_nil _).symm, by simp⟩
    · exact ⟨[], (List.append_nil _).symm, by simp⟩
  obtain ⟨events, htrace, hevents⟩ := hsample
  refine ⟨events ++ if w.params.uiHookPresent then [.uiHook] else [], ?_, fun e he => ?_⟩
  · rw [hu, ← List.append_assoc, ← htrace]
  · rcases List.mem_append.mp he with he | he
    · exact .inl (hevents e he)
    · split at he <;> simp_all

/-- Outside the firings of the stepper and of the pacer no advance event is emitted (R35). -/
theorem effect_trace_filter {isAdv : OutEvent → Bool} (hadc : isAdv .adcStart = false) (hhook : isAdv .uiHook = false)
    (h : Effect i s t) (hstep : i ≠ .fireStep) (hadv : i ≠ .fireAdv) : t.trace.filter isAdv = s.trace.filter isAdv := by
  by_cases hw : .trace ∈ writes i
  case neg => rw [(effect_only h).trace hw]
  rcases trace_mem_writes.mp hw with rfl | rfl | rfl
  · exact absurd rfl hstep
  · obtain ⟨events, htrace, hevents⟩ := firePwmBody_trace h
    have hnone : events.filter isAdv = [] := List.filter_eq_nil_iff.mpr fun e he => by
      rcases hevents e he with rfl | rfl
      · simp [hadc]
      · simp [hhook]
    rw [htrace, List.filter_append, hnone, List.append_nil]
  · exact absurd rfl hadv

/-! The hysteresis law (R239). -/

/-- After k advance firings that pay off n steps in direction d, `lead` of them spent on a direction change: what is
left owed, the direction once it is set, and the advance events emitted after the events `before`. -/
structure PaidOff (isAdv : OutEvent → Bool) (before : List OutEvent) (d : Sign) (n lead k : Nat) (s : State) :
    Prop where
  active : s.adv.active = true
  owed : s.adv.owed.toInt = signInt d * ((n : Int) - (min (k - lead) n : Nat))
  dir : s.adv.dir = dirOf d ↔ lead ≤ k
  events : s.trace.filter isAdv =
    before ++ List.replicate (min k lead) (.advDirSet d) ++ List.replicate (min (k - lead) n) (.advStep d)

variable {isAdv : OutEvent → Bool} {before : List OutEvent}

/-- A debt of m steps in direction d has d's sign, if m is not 0. -/
theorem signOf_debt {m : Int} (hm : 0 < m) (d : Sign) : signOf (signInt d * m) = some d := by
  cases d with
  | plus => exact signOf_plus (by simp only [signInt]; omega)
  | minus => exact signOf_minus (by simp only [signInt]; omega)

/-- One unit off a debt is exact: it moves the cell toward 0. -/
theorem debt_pays_one {x : BitVec 32} {m : Int} (hx : x.toInt = signInt d * m) (hm : 0 < m) :
    (BitVec.ofInt 32 (x.toInt - signInt d)).toInt = signInt d * (m - 1) := by
  have hlow := BitVec.le_toInt x
  have hhigh := BitVec.toInt_lt (x := x)
  rw [toInt_ofInt_of_fitsSigned32, hx]
  · cases d <;> simp only [signInt] <;> omega
  · rw [fitsSigned32_iff]
    cases d <;> simp only [signInt] at hx ⊢ <;> omega

/-- A debt with a sign is not paid off yet, and its sign is its direction. -/
theorem debt_open {x : BitVec 32} {d' : Sign} (hx : x.toInt = signInt d * ((n : Int) - (min (k - lead) n : Nat)))
    (hs : signOf x.toInt = some d') : d' = d ∧ k - lead < n := by
  have hne := (signOf_some.mp hs).1
  have hopen : k - lead < n := by
    by_contra hclosed
    have hzero : (n : Int) - (min (k - lead) n : Nat) = 0 := by omega
    rw [hx, hzero, Int.mul_zero] at hne
    exact hne rfl
  rw [hx, signOf_debt (by omega)] at hs
  exact ⟨(Option.some.inj hs).symm, hopen⟩

theorem paidOff_fireAdv (hstep : isAdv (.advStep d) = true) (hdir : isAdv (.advDirSet d) = true) (hn : 0 < n)
    (hlead : lead ≤ 1) (hs : PaidOff isAdv before d n lead k s) (h : Effect .fireAdv s t) :
    PaidOff isAdv before d n lead (k + 1) t := by
  obtain ⟨hactive, howed, hset, hevents⟩ := hs
  rcases fireAdvBody_ok h with ⟨ha, -⟩ | ⟨-, h0, -, rfl⟩ | ⟨-, d', hd', hsame, -, rfl⟩ | ⟨-, d', hd', hdiff, rfl⟩
  · simp [hactive] at ha
  · have hclosed : n ≤ k - lead := by
      rw [howed] at h0
      cases d <;> simp only [signInt] at h0 <;> omega
    have hsteps : min (k + 1 - lead) n = min (k - lead) n := by omega
    have hturn : min (k + 1) lead = min k lead := by omega
    exact {
      active := hactive
      owed := by rw [hsteps]; exact howed
      dir := hset.trans (by omega)
      events := by rw [hsteps, hturn]; exact hevents }
  · obtain ⟨rfl, hopen⟩ := debt_open howed hd'
    have hready := hset.mp hsame
    have hsteps : min (k + 1 - lead) n = min (k - lead) n + 1 := by omega
    have hturn : min (k + 1) lead = min k lead := by omega
    exact {
      active := hactive
      owed := by
        rw [hsteps, Nat.cast_add, Nat.cast_one, ← Int.sub_sub]
        exact debt_pays_one howed (by omega)
      dir := hset.trans (by omega)
      events := by
        rw [hsteps, hturn, List.replicate_succ', ← List.append_assoc, ← hevents]
        exact (List.filter_append ..).trans (by simp [hstep]) }
  · obtain ⟨rfl, hopen⟩ := debt_open howed hd'
    have hturning : k = 0 ∧ lead = 1 := by
      have := mt hset.mpr hdiff
      omega
    obtain ⟨rfl, rfl⟩ := hturning
    exact {
      active := hactive
      owed := howed
      dir := iff_of_true rfl le_rfl
      events := (List.filter_append ..).trans (by rw [setAdv_trace, hevents]; simp [hdir]) }

theorem paidOff_other (hadc : isAdv .adcStart = false) (hhook : isAdv .uiHook = false) (hi : i ≠ .fireAdv)
    (hallowed : i ≠ .fireStep ∧ (∀ x, i ≠ .advAddOwed x) ∧ ∀ x, i ≠ .setAdvActive x)
    (hs : PaidOff isAdv before d n lead k s) (h : Effect i s t) : PaidOff isAdv before d n lead k t := by
  obtain ⟨hstep, hadd, hact⟩ := hallowed
  obtain ⟨hactive, howed, hset, hevents⟩ := hs
  have hkeep : t.adv.active = s.adv.active ∧ t.adv.owed = s.adv.owed ∧ t.adv.dir = s.adv.dir := by
    have hwrite := (effect_adv h).1
    generalize t.adv = a at hwrite
    cases hwrite with
    | keep | comp | interval => exact ⟨rfl, rfl, rfl⟩
    | active b => exact absurd rfl (hact b)
    | owed x => exact absurd rfl (hadd x)
    | fold x => exact absurd rfl hstep
    | pay | turn => exact absurd rfl hi
  obtain ⟨ha, ho, hd⟩ := hkeep
  exact ⟨ha.trans hactive, by rw [ho, howed], by rw [hd, hset],
    (effect_trace_filter hadc hhook h hstep hi).trans hevents⟩

/-- Settles O46: each advance firing pays off its part, and no other label of the run has one. -/
theorem advHysteresisLaw : Obligations.AdvHysteresisLaw := by
  intro s t labels d n hactive howed hn hallowed hrun ht k lead steps isAdv
  have hstart : PaidOff isAdv (s.trace.filter isAdv) d n lead 0 s := by
    refine ⟨hactive, by simpa [signInt_eq] using howed, ?_, by simp⟩
    rw [dirOf_eq]
    simp only [lead]
    split_ifs <;> simp [*]
  have hlead : lead ≤ 1 := by
    simp only [lead]
    split_ifs <;> omega
  have hend := runLabels_count (P := PaidOff isAdv (s.trace.filter isAdv) d n lead) (N := labels.count .fireAdv)
    (fun _ _ _ _ => paidOff_fireAdv rfl rfl hn hlead)
    (fun _ _ _ _ => paidOff_other rfl rfl) hstart hrun ht hallowed (by omega)
  rw [Nat.zero_add] at hend
  exact ⟨by rw [hend.owed, signInt_eq], hend.events⟩

end Sys2Proof.Machine
end

section
/-! PROOF. Proofs/WaitLaw.lean: the wait law under dense polling (R266 (a)). A run of events is followed by the number
of ticks that have been polled and by whether a poll is due; what a poll does depends on whether the counter has passed
the wrap, and on whether the polled ticks have reached the duration. -/

namespace Sys2Proof.Machine

variable {s t : State} {i : Instr} {labels rest : List Instr} {owed : Bool} {c₀ range d h p q : Nat}

/-! Dense polling, label by label. -/

theorem denselyPolled_other (ht : i ≠ .clkTick) (hp : i ≠ .waitPoll) :
    DenselyPolled owed (i :: rest) ↔ DenselyPolled owed rest := by
  cases i <;> first | exact Iff.rfl | exact absurd rfl ht | exact absurd rfl hp

/-- An event that is no tick of the clock and no poll leaves the clock and the wait. -/
theorem effect_clock_wait (he : Effect i s t) (hi : i.isCommand = false) (ht : i ≠ .clkTick) (hp : i ≠ .waitPoll) :
    t.usCnt = s.usCnt ∧ t.waitf = s.waitf ∧ t.hpc = s.hpc := by
  have honly := effect_only he
  refine ⟨honly.usCnt fun hw => ht (clock_mem_writes.mp hw), honly.waitf fun hw => ?_, honly.hpc fun hw => ?_⟩
  · rcases wait_mem_writes.mp hw with rfl | ⟨us, rfl⟩
    · exact hp rfl
    · cases hi
  · rcases hpc_mem_writes hw with hc | rfl
    · simp [hi] at hc
    · exact hp rfl

/-! After the wait. -/

/-- Once the wait has ended no poll is enabled, so a densely polled run of events has no tick left. -/
theorem run_after_wait (hs : s.waitf = none) (hev : ∀ i ∈ labels, i.isCommand = false)
    (hdense : DenselyPolled owed labels) (hrun : runLabels labels s = .next t) (ht : t.fault = none) :
    owed = false ∧ labels.count .clkTick = 0 ∧ t.waitf = none ∧ t.hpc = s.hpc := by
  induction labels generalizing s owed with
  | nil =>
    cases hrun
    exact ⟨hdense, rfl, hs, rfl⟩
  | cons i rest ih =>
    obtain ⟨u, hu, hrest⟩ := runLabels_cons_next.mp hrun
    have he := exec_effect hu (running_of_runLabels hrest ht)
    have hev' := fun j hj => hev j (List.mem_cons_of_mem i hj)
    by_cases htick : i = .clkTick
    case pos =>
      subst htick
      obtain rfl := he
      exact absurd (ih (s := countUp s) (owed := true) hs hev' hdense.2 hrest).1 Bool.noConfusion
    by_cases hpoll : i = .waitPoll
    case pos =>
      subst hpoll
      obtain ⟨hchoice, -⟩ := runEvent_next.mp hu
      have hsome := (cpuChoice_waitPoll.mp hchoice).2.2.2
      simp [hs] at hsome
    obtain ⟨-, hwait, hhpc⟩ := effect_clock_wait he (hev i List.mem_cons_self) htick hpoll
    rw [denselyPolled_other htick hpoll] at hdense
    obtain ⟨howed, hcount, hnone, hh⟩ := ih (hwait.trans hs) hev' hdense hrest
    exact ⟨howed, by rw [List.count_cons_of_ne htick, hcount], hnone, hh.trans hhpc⟩

/-! During the wait. -/

/-- A wait of d ticks begun at counter value c₀ with hpc = h, after p polled ticks and, if `owed`, one that is not: the
counter is on its way, and the record is in phase 2 if its goal does not wrap or a poll has seen the wrap (R262,
R263). -/
structure Waiting (c₀ range d h p : Nat) (owed : Bool) (s : State) : Prop where
  modulus : 2 ^ s.params.usBits = range
  cnt : s.usCnt = (c₀ + (p + owed.toNat)) % range
  hpc : s.hpc = h
  early : p < d
  record : ∃ phase, s.waitf = some ⟨c₀, (c₀ + d) % range, phase⟩ ∧
    (phase = .two ↔ c₀ + d < range ∨ range ≤ c₀ + p)

/-- The counter's way of less than one round. -/
theorem add_mod_round (hc : c₀ < range) (hq : q < range) :
    (c₀ + q) % range = if c₀ + q < range then c₀ + q else c₀ + q - range := by
  split
  case isTrue h => exact Nat.mod_eq_of_lt h
  case isFalse h => rw [Nat.mod_eq_sub_mod (Nat.le_of_not_lt h), Nat.mod_eq_of_lt (by omega)]

theorem waiting_tick (hs : Waiting c₀ range d h p false s) : Waiting c₀ range d h p true (countUp s) := by
  obtain ⟨hrange, hcnt, hhpc, hearly, hrec⟩ := hs
  refine ⟨hrange, ?_, hhpc, hearly, hrec⟩
  rw [countUp_usCnt, hrange, hcnt, Nat.mod_add_mod]
  rfl

/-- The poll of the last tick ends the wait. -/
theorem poll_at_goal (hc : c₀ < range) (hd : d < range) (hs : Waiting c₀ range d h p owed s)
    (hlast : p + owed.toNat = d) : pollBody s = advanceHost (setWait none s) := by
  obtain ⟨-, hcnt, -, -, phase, hrec, hphase⟩ := hs
  rw [hlast] at hcnt
  refine pollBody_ends hrec ?_ hcnt.ge
  by_cases hbelow : c₀ + d < range
  case pos => exact .inl (hphase.mpr (.inl hbelow))
  case neg =>
    rw [add_mod_round hc hd, if_neg hbelow] at hcnt
    exact .inr (by dsimp only; omega)

/-- A poll before the last tick leaves the wait, in phase 2 if the counter has wrapped. -/
theorem waiting_poll (hc : c₀ < range) (hd : d < range) (hs : Waiting c₀ range d h p owed s)
    (hq : p + owed.toNat < d) : Waiting c₀ range d h (p + owed.toNat) false (pollBody s) := by
  obtain ⟨hrange, hcnt, hhpc, -, phase, hrec, hphase⟩ := hs
  have hround := hcnt
  rw [add_mod_round hc (hq.trans hd)] at hround
  by_cases hseen : phase = .two ∨ s.usCnt < c₀
  case pos =>
    have hpast : c₀ + d < range ∨ range ≤ c₀ + (p + owed.toNat) := by
      rcases hseen with htwo | hlow
      · have := hphase.mp htwo
        omega
      · split at hround <;> omega
    have hgoal : s.usCnt < (c₀ + d) % range := by
      rw [hround, add_mod_round hc hd]
      split <;> split <;> omega
    rw [pollBody_entersTwo hrec hseen hgoal]
    exact ⟨hrange, hcnt, hhpc, hq, .two, rfl, iff_of_true rfl hpast⟩
  case neg =>
    have hone : phase = .one := by
      cases phase with
      | one => rfl
      | two => exact absurd (.inl rfl) hseen
    have hbefore : ¬ (c₀ + d < range ∨ range ≤ c₀ + (p + owed.toNat)) := by
      have := mt hphase.mpr (by simp [hone])
      split at hround <;> omega
    rw [pollBody_unwrapped hrec hone (Nat.le_of_not_lt fun hlow => hseen (.inr hlow))]
    exact ⟨hrange, hcnt, hhpc, hq, phase, hrec, iff_of_false (by simp [hone]) hbefore⟩

theorem waiting_other (he : Effect i s t) (hi : i.isCommand = false) (htick : i ≠ .clkTick) (hpoll : i ≠ .waitPoll)
    (hs : Waiting c₀ range d h p owed s) : Waiting c₀ range d h p owed t := by
  obtain ⟨hcnt, hwait, hhpc⟩ := effect_clock_wait he hi htick hpoll
  exact ⟨by rw [(effect_only he).params, hs.modulus], hcnt.trans hs.cnt, hhpc.trans hs.hpc, hs.early, hwait ▸ hs.record⟩

/-- The law from any point of the wait. -/
theorem run_while_waiting (hc : c₀ < range) (hd : d < range) (hs : Waiting c₀ range d h p owed s)
    (hev : ∀ i ∈ labels, i.isCommand = false) (hdense : DenselyPolled owed labels)
    (hrun : runLabels labels s = .next t) (ht : t.fault = none) :
    let e := p + owed.toNat + labels.count .clkTick
    e ≤ d ∧ (e < d → t.waitf.isSome = true ∧ t.hpc = h) ∧ (e = d → t.waitf = none ∧ t.hpc = h + 1) := by
  induction labels generalizing s owed p with
  | nil =>
    cases hrun
    obtain rfl : owed = false := hdense
    obtain ⟨phase, hrec, -⟩ := hs.record
    have hearly := hs.early
    simp only [Bool.toNat_false, List.count_nil]
    exact ⟨by omega, fun _ => ⟨by rw [hrec]; rfl, hs.hpc⟩, fun _ => by omega⟩
  | cons i rest ih =>
    obtain ⟨u, he, hrest⟩ := runLabels_cons_effect hrun ht
    have hev' := fun j hj => hev j (List.mem_cons_of_mem i hj)
    by_cases htick : i = .clkTick
    case pos =>
      subst htick
      obtain rfl := he
      obtain ⟨rfl, hdense⟩ := hdense
      have := ih (waiting_tick hs) hev' hdense hrest
      simpa [Nat.add_assoc, Nat.add_comm 1] using this
    by_cases hpoll : i = .waitPoll
    case pos =>
      subst hpoll
      obtain rfl := he
      have hdense' : DenselyPolled false rest := by cases owed <;> exact hdense
      rw [List.count_cons_of_ne htick]
      by_cases hlast : p + owed.toNat = d
      case pos =>
        rw [poll_at_goal hc hd hs hlast] at hrest
        obtain ⟨-, hcount, hnone, hhpc⟩ := run_after_wait rfl hev' hdense' hrest ht
        rw [hlast, hcount]
        have hdone : (advanceHost (setWait none s)).hpc = h + 1 := congrArg (· + 1) hs.hpc
        exact ⟨le_rfl, fun hlt => absurd hlt (lt_irrefl d), fun _ => ⟨hnone, hhpc.trans hdone⟩⟩
      case neg =>
        have hbelow : p + owed.toNat < d := by
          have := hs.early
          have := Bool.toNat_le owed
          omega
        exact ih (s := pollBody s) (owed := false) (waiting_poll hc hd hs hbelow) hev' hdense' hrest
    rw [List.count_cons_of_ne htick]
    exact ih (waiting_other he (hev i List.mem_cons_self) htick hpoll hs) hev'
      ((denselyPolled_other htick hpoll).mp hdense) hrest

/-- WAIT_US begins the wait (R262). -/
theorem waiting_start {us : Imm} (hc : s.usCnt < 2 ^ s.params.usBits) (hd : scaled s.params us < 2 ^ s.params.usBits)
    (hone : 1 ≤ scaled s.params us) : Waiting s.usCnt (2 ^ s.params.usBits) (scaled s.params us) s.hpc 0 false
      (setWait (some (waitRecord (2 ^ s.params.usBits) s.usCnt (scaled s.params us))) s) := by
  refine ⟨rfl, (Nat.mod_eq_of_lt hc).symm, rfl, hone, ?_⟩
  rw [add_mod_round hc hd]
  split
  case isTrue hbelow =>
    exact ⟨.two, by rw [waitRecord_unwrapped hbelow]; rfl, iff_of_true rfl (.inl hbelow)⟩
  case isFalse hwrap =>
    exact ⟨.one, by rw [waitRecord_wrapped (Nat.le_of_not_lt hwrap)]; rfl, iff_of_false (by simp) (by omega)⟩

/-- Settles O52: the wait begins with no tick polled, and the law follows it from there. -/
theorem densePollingWaitLaw : Obligations.DensePollingWaitLaw := by
  intro s s0 t us labels d hc hexec hf hone hev hdense hrun ht e
  obtain ⟨hd, rfl⟩ := waitUsBody_ok (exec_effect hexec hf)
  have := run_while_waiting hc hd (waiting_start hc hd hone) hev hdense hrun ht
  simp only [Bool.toNat_false, Nat.zero_add] at this
  exact this

end Sys2Proof.Machine
end

section
/-! PROOF. Proofs/Writers.lean: the writers of each cell (R22 to R33). The footprint says which group an instruction
writes; here is how: hpc by one, a channel's registers in one of five ways, and the cells of the multiplexer, the servo
generator and the pacer by the lemmas of their units. -/

namespace Sys2Proof.Machine

variable {s t : State} {i : Instr} {u : Timer} {c : TimerChan}

/-! The host program index. -/

/-- Every command but WAIT_US completes: it advances hpc by one (R11, R22, R262). -/
theorem effect_hpc_command (h : Effect i s t) (hi : i.isCommand = true) (hw : ∀ us, i ≠ .waitUs us) :
    t.hpc = s.hpc + 1 := by
  cases i with
  | cfg c prio f =>
    obtain ⟨tm, p, r, -, -, -, -, -, -, rfl⟩ := cfgBody_ok h
    rfl
  | rearm c n =>
    obtain ⟨tm, -, -, -, -, rfl⟩ := rearmBody_ok h
    rfl
  | tmrRead c sel =>
    obtain ⟨tm, v, -, -, -, rfl⟩ := tmrReadBody_ok h
    rfl
  | setDuty k d =>
    obtain ⟨-, -, rfl⟩ := setDutyBody_ok h
    rfl
  | readAnalog j =>
    obtain ⟨-, rfl⟩ := readAnalogBody_ok h
    rfl
  | setServo c us =>
    obtain ⟨-, -, -, rfl⟩ := setServoBody_ok h
    rfl
  | setAdvActive b =>
    obtain ⟨-, -, rfl⟩ := setAdvActiveBody_ok h
    rfl
  | advAddOwed n =>
    obtain ⟨-, -, rfl⟩ := advAddOwedBody_ok h
    rfl
  | setAdvComp n =>
    obtain ⟨-, rfl⟩ := setAdvCompBody_ok h
    rfl
  | setAdvInterval n =>
    obtain ⟨-, -, rfl⟩ := setAdvIntervalBody_ok h
    rfl
  | usReached g =>
    obtain ⟨-, rfl⟩ := usReachedBody_ok h
    rfl
  | waitUs us => exact absurd rfl (hw us)
  | readMaint | clrMaint | usRead | irqDisable | irqEnable =>
    obtain rfl := h
    rfl
  | tick | clkTick | dispatch | waitPoll | fireStep | stepTail | firePwm | fireServo | fireAdv => cases hi

/-- A poll leaves the wait, or ends it and completes the command (R263). -/
theorem pollBody_cases (s : State) : (pollBody s).hpc = s.hpc ∨
    (s.waitf.isSome = true ∧ (pollBody s).hpc = s.hpc + 1 ∧ (pollBody s).waitf = none) := by
  cases hr : s.waitf with
  | none =>
    rw [pollBody, hr]
    exact .inl rfl
  | some r =>
    rw [pollBody_of_waitf hr]
    split
    · exact .inr ⟨rfl, rfl, rfl⟩
    · exact .inl rfl

/-- hpc stays or advances by one, with a command or with a poll that ends the wait. -/
theorem effect_hpc (h : Effect i s t) : t.hpc = s.hpc ∨ (t.hpc = s.hpc + 1 ∧ (i.isCommand = true ∨
    (i = .waitPoll ∧ s.waitf.isSome = true ∧ t.waitf = none))) := by
  by_cases hw : .hpc ∈ writes i
  case neg => exact .inl ((effect_only h).hpc hw)
  rcases hpc_mem_writes hw with hi | rfl
  · have hwait : ∀ us, i ≠ .waitUs us := by
      rintro us rfl
      simp [writes] at hw
    exact .inr ⟨effect_hpc_command h hi hwait, .inl hi⟩
  · obtain rfl := h
    rcases pollBody_cases s with hsame | ⟨hsome, hnext, hnone⟩
    · exact .inl hsame
    · exact .inr ⟨hnext, .inr ⟨rfl, hsome, hnone⟩⟩

/-! The registers of a channel. -/

/-- The instructions that re-arm channel u (R103): REARM on a configured channel, and the channel's own handler. -/
inductive Rearms (s : State) : Timer → Instr → Prop
  | command (u : Timer) (ticks : Imm) : (s.timers.get u).en = true → Rearms s u (.rearm (timerNumber u) ticks)
  | step : Rearms s .step .fireStep
  | servo : Rearms s .servo .fireServo
  | adv : Rearms s .adv .fireAdv

/-- What an instruction can write in channel u's registers (R101, R103, R106, R308). -/
inductive TimerWrite (s : State) (u : Timer) : Instr → TimerChan → Prop
  | keep (i : Instr) : TimerWrite s u i (s.timers.get u)
  | cfg (prio : Byte) (f : Imm) (p : BitVec 32) (r : Nat) : present s.params u = true → p ∈ s.params.prescalers →
      1 ≤ r → r ≤ reloadMax s.params → TimerWrite s u (.cfg (timerNumber u) prio f) (configured p r (prio.setWidth 4))
  | tick : tickEnabled s u = true → TimerWrite s u (.tick (timerNumber u)) (tickChan (s.timers.get u))
  | take : dispatchable s = some u →
      TimerWrite s u (.dispatch (timerNumber u)) { s.timers.get u with pend := false }
  | rearm (i : Instr) (n : Nat) : Rearms s u i → n ≤ reloadMax s.params →
      TimerWrite s u i { s.timers.get u with rld := max 1 n }

theorem timers_mem_writes : .timers ∈ writes i ↔ (∃ c q f, i = .cfg c q f) ∨ (∃ c n, i = .rearm c n) ∨
    (∃ n, i = .tick n) ∨ (∃ n, i = .dispatch n) ∨ i = .fireStep ∨ i = .fireServo ∨ i = .fireAdv := by
  cases i <;> simp [writes]

/-- A write of one channel, as a write of any channel: the others keep their registers. -/
theorem timerWrite_of_set {tm : Timer} (h : TimerWrite s tm i c) (ht : t.timers = s.timers.set tm c) (u : Timer) :
    TimerWrite s u i (t.timers.get u) := by
  rw [ht, PerTimer.get_set]
  split
  case isTrue hu =>
    subst hu
    exact h
  case isFalse => exact .keep i

/-- The stepper's firing re-arms its own channel or keeps it (R132, R133, R134). -/
theorem fireStepBody_timers (h : fireStepBody s = .ok t) : t.timers = s.timers ∨
    ∃ n, n ≤ reloadMax s.params ∧ t.timers = s.timers.set .step { s.timers.get .step with rld := max 1 n } := by
  rcases fireStepBody_ok h with ⟨-, rfl⟩ | ⟨-, -, hb⟩ | ⟨-, -, hb⟩
  · exact .inl rfl
  · obtain ⟨hr, rfl⟩ := steppingBranch_ok hb
    exact .inr ⟨_, hr, rfl⟩
  · obtain ⟨hr, v, hv, rfl⟩ := emptyBranch_cases hb
    have htimers : v.timers = s.timers := hv.timers (by simp)
    have hparams : v.params = s.params := hv.params
    refine .inr ⟨s.params.stepIdleTicks, hr, ?_⟩
    rw [← htimers, ← hparams]
    rfl

/-- The pacer's firing re-arms its own channel or keeps it (R235 to R238). -/
theorem fireAdvBody_timers (h : fireAdvBody s = .ok t) : t.timers = s.timers ∨
    ∃ n, n ≤ reloadMax s.params ∧ t.timers = s.timers.set .adv { s.timers.get .adv with rld := max 1 n } := by
  rcases fireAdvBody_ok h with ⟨-, rfl⟩ | ⟨-, -, hr, rfl⟩ | ⟨-, d, -, -, hr, rfl⟩ | ⟨-, d, -, -, rfl⟩
  · exact .inl rfl
  · exact .inr ⟨_, hr, rfl⟩
  · exact .inr ⟨_, hr, rfl⟩
  · exact .inr ⟨_, penalisedInterval_le, rfl⟩

/-- The generator's firing re-arms its own channel (R203, R204). -/
theorem fireServoBody_timers (h : fireServoBody s = .ok t) :
    ∃ n, n ≤ reloadMax s.params ∧ t.timers = s.timers.set .servo { s.timers.get .servo with rld := max 1 n } := by
  rcases fireServoBody_ok h with ⟨-, hr, rfl⟩ | ⟨-, hr, rfl⟩
  · exact ⟨_, hr, rfl⟩
  · exact ⟨_, hr, rfl⟩

/-- How an effect leaves each channel. -/
theorem effect_timer (h : Effect i s t) (u : Timer) : TimerWrite s u i (t.timers.get u) := by
  by_cases hw : .timers ∈ writes i
  case neg =>
    rw [(effect_only h).timers hw]
    exact .keep i
  rcases timers_mem_writes.mp hw with ⟨c, q, f, rfl⟩ | ⟨c, n, rfl⟩ | ⟨n, rfl⟩ | ⟨n, rfl⟩ | rfl | rfl | rfl
  · obtain ⟨tm, p, r, rfl, hp, hmem, -, hone, hmax, rfl⟩ := cfgBody_ok h
    exact timerWrite_of_set (.cfg q f p r hp hmem hone hmax) rfl u
  · obtain ⟨tm, rfl, -, hen, hr, rfl⟩ := rearmBody_ok h
    exact timerWrite_of_set (.rearm _ _ (.command tm n hen) hr) rfl u
  · obtain ⟨tm, rfl, hen, rfl⟩ := h
    exact timerWrite_of_set (.tick hen) rfl u
  · obtain ⟨tm, rfl, hd, rfl⟩ := h
    exact timerWrite_of_set (.take hd) rfl u
  · rcases fireStepBody_timers h with ht | ⟨n, hr, ht⟩
    · exact ht ▸ .keep _
    · exact timerWrite_of_set (.rearm _ n .step hr) ht u
  · obtain ⟨n, hr, ht⟩ := fireServoBody_timers h
    exact timerWrite_of_set (.rearm _ n .servo hr) ht u
  · rcases fireAdvBody_timers h with ht | ⟨n, hr, ht⟩
    · exact ht ▸ .keep _
    · exact timerWrite_of_set (.rearm _ n .adv hr) ht u

theorem TimerWrite.psc_prio (h : TimerWrite s u i c) :
    (c.psc = (s.timers.get u).psc ∧ c.prio = (s.timers.get u).prio) ∨ ∃ ch q f, i = .cfg ch q f := by
  cases h with
  | cfg => exact .inr ⟨_, _, _, rfl⟩
  | keep | tick | take | rearm => simp

theorem TimerWrite.en_ie (h : TimerWrite s u i c) :
    (c.en = (s.timers.get u).en ∧ c.ie = (s.timers.get u).ie) ∨
      ((∃ ch q f, i = .cfg ch q f) ∧ c.en = true ∧ c.ie = true) := by
  cases h with
  | cfg => exact .inr ⟨⟨_, _, _, rfl⟩, rfl, rfl⟩
  | keep | tick | take | rearm => simp

theorem TimerWrite.rld (h : TimerWrite s u i c) :
    c.rld = (s.timers.get u).rld ∨ (∃ ch q f, i = .cfg ch q f) ∨ Rearms s u i := by
  cases h with
  | cfg => exact .inr (.inl ⟨_, _, _, rfl⟩)
  | rearm i n hr => exact .inr (.inr hr)
  | keep | tick | take => simp

theorem TimerWrite.count (h : TimerWrite s u i c) :
    c.count = (s.timers.get u).count ∨ (∃ ch q f, i = .cfg ch q f) ∨ i = .tick (timerNumber u) := by
  cases h with
  | cfg => exact .inr (.inl ⟨_, _, _, rfl⟩)
  | tick => exact .inr (.inr rfl)
  | keep | take | rearm => simp

theorem TimerWrite.pend (h : TimerWrite s u i c) :
    c.pend = (s.timers.get u).pend ∨ (∃ ch q f, i = .cfg ch q f) ∨ i = .tick (timerNumber u) ∨
      i = .dispatch (timerNumber u) := by
  cases h with
  | cfg => exact .inr (.inl ⟨_, _, _, rfl⟩)
  | tick => exact .inr (.inr (.inl rfl))
  | take => exact .inr (.inr (.inr rfl))
  | keep | rearm => simp

/-- Who re-arms a channel, as the statement lists them. -/
theorem Rearms.cases (h : Rearms s u i) : (∃ ch n, i = .rearm ch n) ∨ (u = .step ∧ i = .fireStep) ∨
    (u = .servo ∧ i = .fireServo) ∨ (u = .adv ∧ i = .fireAdv) := by
  cases h <;> simp

/-! The cells of the units. -/

theorem effect_pwm_tgt (h : Effect i s t) :
    t.mux.pwm.map (·.tgt) = s.mux.pwm.map (·.tgt) ∨ ∃ k d, i = .setDuty k d := by
  by_cases hi : i = .firePwm
  case pos =>
    subst hi
    obtain ⟨w, -, -, hm⟩ := firePwmBody_mux h
    have htgt (c : BitVec 8) (ch : PwmChan) : (compareChan c (latchChan c ch)).tgt = ch.tgt := by
      rw [compareChan_latchChan]
    rw [hm]
    simp [Function.comp_def, htgt]
  case neg =>
    rcases effect_mux h hi with hm | ⟨k, d, rfl, -⟩ | ⟨-, hm⟩
    · exact .inl (by rw [hm])
    · exact .inr ⟨k, d, rfl⟩
    · exact .inl (by rw [hm])

theorem effect_maintDue (h : Effect i s t) : t.mux.maintDue = s.mux.maintDue ∨ i = .firePwm ∨ i = .clrMaint := by
  by_cases hi : i = .firePwm
  case pos => exact .inr (.inl hi)
  case neg =>
    rcases effect_mux h hi with hm | ⟨k, d, -, hm⟩ | ⟨rfl, -⟩
    · exact .inl (by rw [hm])
    · exact .inl (by rw [hm])
    · exact .inr (.inr rfl)

theorem effect_servo_phases (h : Effect i s t) (hi : i ≠ .fireServo) : t.servo.phase = s.servo.phase ∧
    t.servo.lastHigh = s.servo.lastHigh ∧ t.servo.chans.map (·.out) = s.servo.chans.map (·.out) := by
  rcases effect_servo h hi with hv | ⟨k, us, -, -, -, hv⟩
  · simp [hv]
  · rw [hv]
    exact ⟨rfl, rfl, map_modify_of_view (by exact fun _ => rfl) _ _⟩

theorem effect_servo_width (h : Effect i s t) :
    t.servo.chans.map (·.width) = s.servo.chans.map (·.width) ∨ ∃ k us, i = .setServo k us := by
  by_cases hi : i = .fireServo
  case pos =>
    subst hi
    left
    rcases fireServoBody_ok h with ⟨-, -, rfl⟩ | ⟨-, -, rfl⟩
    · dsimp only
      split
      · rfl
      · exact map_modify_of_view (by exact fun _ => rfl) _ _
    · exact map_modify_of_view (by exact fun _ => rfl) _ _
  case neg =>
    rcases effect_servo h hi with hv | ⟨k, us, rfl, -⟩
    · exact .inl (by rw [hv])
    · exact .inr ⟨k, us, rfl⟩

variable {a : Advance}

theorem AdvWrite.dirs (h : AdvWrite s i a) : (a.dir = s.adv.dir ∧ a.dirOut = s.adv.dirOut) ∨ i = .fireAdv := by
  cases h <;> simp

theorem AdvWrite.owedBy (h : AdvWrite s i a) :
    a.owed = s.adv.owed ∨ i = .fireAdv ∨ i = .fireStep ∨ ∃ n, i = .advAddOwed n := by
  cases h <;> simp

theorem AdvWrite.compBy (h : AdvWrite s i a) : a.comp = s.adv.comp ∨ i = .fireStep ∨ ∃ n, i = .setAdvComp n := by
  cases h <;> simp

theorem AdvWrite.intervalBy (h : AdvWrite s i a) : a.interval = s.adv.interval ∨ ∃ n, i = .setAdvInterval n := by
  cases h <;> simp

theorem AdvWrite.activeBy (h : AdvWrite s i a) : a.active = s.adv.active ∨ ∃ b, i = .setAdvActive b := by
  cases h <;> simp

/-- Settles O57: a raise changes no such cell, and an effect's writers are those of the lemmas above, cell by cell. -/
theorem cellsHaveOnlyTheirWriters : Obligations.CellsHaveOnlyTheirWriters := by
  intro i s t h handler
  have honly := exec_only h
  have hcell {α : Type} {g : Group} {a b : α} (hkeep : g ∉ .fault :: writes i → a = b) (hg : g ≠ .fault) (hne : a ≠ b) :
      g ∈ writes i := mem_writes_of_change hkeep hg hne
  rcases exec_next h with ⟨f, w, rfl, -⟩ | he
  · simp
  have htimer := effect_timer he
  have hadv := (effect_adv he).1
  refine ⟨⟨honly.params, honly.prog⟩, ?hpc, ?ctx, ?gie, ?psc, ?en, ?rld, ?count, ?pend, ?stepper, ?mux, ?tgt, ?maint,
    ?servo, ?width, ?dir, ?owed, ?comp, ?interval, ?active, ?cnt, ?wait⟩
  case hpc =>
    intro hne
    rcases effect_hpc he with hsame | ⟨hnext, hi | ⟨hi, -⟩⟩
    · exact absurd hsame hne
    · exact ⟨.inl hi, hnext⟩
    · exact ⟨.inr hi, hnext⟩
  case ctx => exact fun hne => ctx_mem_writes.mp (hcell honly.ctx (by simp) hne)
  case gie =>
    intro hne
    rcases gie_mem_writes.mp (hcell honly.gie (by simp) hne) with hctx | hirq
    · exact (ctx_mem_writes.mp hctx).imp_right .inl
    · exact .inr (.inr hirq)
  case psc => exact fun u hne => (htimer u).psc_prio.resolve_left (by tauto)
  case en => exact fun u hne => (htimer u).en_ie.resolve_left (by tauto)
  case rld => exact fun u hne => ((htimer u).rld.resolve_left hne).imp_right Rearms.cases
  case count => exact fun u hne => (htimer u).count.resolve_left hne
  case pend => exact fun u hne => (htimer u).pend.resolve_left hne
  case stepper => exact fun hne => stepper_mem_writes.mp (hcell honly.stepper (by simp) hne)
  case mux =>
    intro hne
    by_contra hi
    obtain ⟨hcnt, hanalog, hpos, htick⟩ := effect_mux_counters he hi
    have hlat := effect_pwm_view (view := (·.lat)) (fun _ _ => rfl) he hi
    have hout := effect_pwm_view (view := (·.out)) (fun _ _ => rfl) he hi
    tauto
  case tgt => exact (effect_pwm_tgt he).resolve_left
  case maint => exact (effect_maintDue he).resolve_left
  case servo =>
    intro hne
    by_contra hi
    have := effect_servo_phases he hi
    tauto
  case width => exact (effect_servo_width he).resolve_left
  case dir => exact fun hne => hadv.dirs.resolve_left (by tauto)
  case owed => exact hadv.owedBy.resolve_left
  case comp => exact hadv.compBy.resolve_left
  case interval => exact hadv.intervalBy.resolve_left
  case active => exact hadv.activeBy.resolve_left
  case cnt => exact fun hne => clock_mem_writes.mp (hcell honly.usCnt (by simp) hne)
  case wait => exact fun hne => wait_mem_writes.mp (hcell honly.waitf (by simp) hne)

end Sys2Proof.Machine
end

section
/-! PROOF. Proofs/ContextRule.lean: every step keeps the context rule (R23, R24, R138, R312). CTX, GIE and GUARD
together have four shapes; the five ways CTX changes (a dispatch, a return, the stepper's early enable, its tail, a
critical section in main context) each take a shape to a shape. -/

namespace Sys2Proof.Machine

variable {s t : State} {i : Instr} {u : Timer} {l : List CtxEntry} {gie guard : Bool}

/-- The shapes of CTX, with GIE and GUARD in each (R24, R138, R312). -/
inductive CtxShape : List CtxEntry → Bool → Bool → Prop
  | main (gie : Bool) : CtxShape [] gie false
  | body (u : Timer) : CtxShape [⟨u, .entered⟩] false false
  | tail : CtxShape [⟨.step, .tail⟩] true true
  | nested (u : Timer) : CtxShape [⟨u, .entered⟩, ⟨.step, .tail⟩] false true

/-- The channels whose handlers are on CTX are configured. -/
def CtxLive (s : State) : Prop := ∀ e ∈ s.ctx, (s.timers.get e.tmr).en = true

theorem ctxOk_iff : CtxOk s ↔ CtxShape s.ctx s.gie s.stepper.guard ∧ CtxLive s := by
  constructor
  · rintro ⟨hshape, hbody, htail, hguard, hlive⟩
    refine ⟨?_, hlive⟩
    rcases hshape with hctx | ⟨u, hctx⟩ | hctx | ⟨u, hctx⟩ <;> rw [hctx] at hguard ⊢
    · have hg : s.stepper.guard = false := by simpa using hguard
      rw [hg]
      exact .main _
    · have hg : s.stepper.guard = false := by simpa using hguard
      rw [hg, hbody u [] hctx]
      exact .body u
    · have hg : s.stepper.guard = true := by simpa using hguard
      rw [hg, htail hctx]
      exact .tail
    · have hg : s.stepper.guard = true := by simpa using hguard
      rw [hg, hbody u _ hctx]
      exact .nested u
  · rintro ⟨hshape, hlive⟩
    generalize hc : s.ctx = l at hshape
    generalize hi : s.gie = gie at hshape
    generalize hg : s.stepper.guard = guard at hshape
    cases hshape with
    | main | body | tail | nested => exact ⟨by simp [hc], by simp [hc, hi], by simp [hc, hi], by simp [hc, hg], hlive⟩

theorem CtxShape.length_le (h : CtxShape l gie guard) : l.length ≤ 2 := by
  cases h <;> simp

/-! The ways CTX changes. -/

/-- How an instruction moves CTX, GIE and GUARD: not at all, a critical section in main context (R314, R315), a dispatch
(R308), a handler's return (R311), the stepper's early enable (R133), and its tail (R136). -/
inductive CtxMove (s t : State) : Prop
  | keep : t.ctx = s.ctx → t.gie = s.gie → t.stepper.guard = s.stepper.guard → CtxMove s t
  | irq : s.ctx = [] → t.ctx = [] → t.stepper.guard = s.stepper.guard → CtxMove s t
  | take (u : Timer) : t.ctx = ⟨u, .entered⟩ :: s.ctx → (s.timers.get u).en = true → s.gie = true → t.gie = false →
      t.stepper.guard = s.stepper.guard → CtxMove s t
  | pop (u : Timer) : s.ctx = ⟨u, .entered⟩ :: t.ctx → t.gie = true → t.stepper.guard = s.stepper.guard → CtxMove s t
  | early (l : List CtxEntry) : s.ctx = ⟨.step, .entered⟩ :: l → t.ctx = ⟨.step, .tail⟩ :: l → t.gie = true →
      s.stepper.guard = false → t.stepper.guard = true → CtxMove s t
  | finish : s.ctx = ⟨.step, .tail⟩ :: t.ctx → t.gie = true → t.stepper.guard = false → CtxMove s t

theorem CtxShape.irq (h : CtxShape [] gie guard) (on : Bool) : CtxShape [] on guard := by
  cases h with
  | main => exact .main on

/-- A dispatch needs GIE = 1, so it nests at most once. -/
theorem CtxShape.take (h : CtxShape l true guard) (u : Timer) : CtxShape (⟨u, .entered⟩ :: l) false guard := by
  cases h with
  | main => exact .body u
  | tail => exact .nested u

theorem CtxShape.pop (h : CtxShape (⟨u, .entered⟩ :: l) gie guard) : CtxShape l true guard := by
  cases h with
  | body => exact .main true
  | nested => exact .tail

/-- A firing that passes the guard is not nested. -/
theorem CtxShape.early (h : CtxShape (⟨.step, .entered⟩ :: l) gie false) :
    CtxShape (⟨.step, .tail⟩ :: l) true true := by
  cases h with
  | body => exact .tail

theorem CtxShape.finish (h : CtxShape (⟨.step, .tail⟩ :: l) gie guard) : CtxShape l true false := by
  cases h with
  | tail => exact .main true

/-- Every move takes a shape to a shape. -/
theorem CtxMove.shape (h : CtxMove s t) (hs : CtxShape s.ctx s.gie s.stepper.guard) :
    CtxShape t.ctx t.gie t.stepper.guard := by
  cases h with
  | keep hc hi hg =>
    rw [hc, hi, hg]
    exact hs
  | irq hc hc' hg =>
    rw [hc', hg]
    rw [hc] at hs
    exact hs.irq _
  | take u hc _ hi hi' hg =>
    rw [hc, hi', hg]
    rw [hi] at hs
    exact hs.take u
  | pop u hc hi hg =>
    rw [hi, hg]
    rw [hc] at hs
    exact hs.pop
  | early l hc hc' hi hg hg' =>
    rw [hc', hi, hg']
    rw [hc, hg] at hs
    exact hs.early
  | finish hc hi hg =>
    rw [hi, hg]
    rw [hc] at hs
    exact hs.finish

/-- Every move leaves on CTX only channels that were there, or that a dispatch takes. -/
theorem CtxMove.live (h : CtxMove s t) (hs : CtxLive s) : ∀ e ∈ t.ctx, (s.timers.get e.tmr).en = true := by
  cases h with
  | keep hc =>
    rw [hc]
    exact hs
  | irq _ hc =>
    rw [hc]
    simp
  | take u hc hen =>
    rw [hc]
    exact List.forall_mem_cons.mpr ⟨hen, hs⟩
  | pop u hc =>
    rw [CtxLive, hc] at hs
    exact (List.forall_mem_cons.mp hs).2
  | early l hc hc' =>
    rw [CtxLive, hc] at hs
    rw [hc']
    exact List.forall_mem_cons.mpr (List.forall_mem_cons.mp hs)
  | finish hc =>
    rw [CtxLive, hc] at hs
    exact (List.forall_mem_cons.mp hs).2

/-! The move of each instruction. -/

/-- A source that can be taken is configured (R304). -/
theorem dispatchable_en (h : dispatchable s = some u) : s.gie = true ∧ (s.timers.get u).en = true := by
  obtain ⟨⟨hgie, -, hen, -, -⟩, -⟩ := dispatchable_iff_selected.mp h
  exact ⟨hgie, hen⟩

/-- A handler that ends with the return and does not write GUARD (R311). -/
theorem ctxMove_return {e : List CtxEntry} (hc : s.ctx = ⟨u, .entered⟩ :: e) (hc' : t.ctx = s.ctx.tail)
    (hi : t.gie = true) (hg : t.stepper.guard = s.stepper.guard) : CtxMove s t := by
  refine .pop u ?_ hi hg
  rw [hc', hc]
  rfl

theorem ctxMove_fireStep {l : List CtxEntry} (hc : s.ctx = ⟨.step, .entered⟩ :: l) (h : fireStepBody s = .ok t) :
    CtxMove s t := by
  rcases fireStepBody_ok h with ⟨-, rfl⟩ | ⟨hg, -, hb⟩ | ⟨hg, -, hb⟩
  · exact ctxMove_return hc rfl rfl rfl
  · obtain ⟨-, rfl⟩ := steppingBranch_ok hb
    exact .early l hc (congrArg tailTop hc) rfl hg rfl
  · obtain ⟨-, v, hv, rfl⟩ := emptyBranch_cases hb
    exact ctxMove_return hc (congrArg List.tail (hv.ctx (by simp))) rfl hg.symm

/-- The return of the handlers that leave the stepper alone. -/
theorem return_of_handler (h : Effect i s t) (hi : i = .firePwm ∨ i = .fireServo ∨ i = .fireAdv) :
    t.ctx = s.ctx.tail ∧ t.gie = true := by
  rcases hi with rfl | rfl | rfl
  · obtain ⟨v, hv, rfl⟩ := firePwmBody_ok h
    rw [← pwmReturn, pwmReturn_eq]
    exact ⟨congrArg List.tail ((only_analogStep hv).ctx (by simp)), rfl⟩
  · rcases fireServoBody_ok h with ⟨-, -, rfl⟩ | ⟨-, -, rfl⟩ <;> exact ⟨rfl, rfl⟩
  · rcases fireAdvBody_ok h with ⟨-, rfl⟩ | ⟨-, -, -, rfl⟩ | ⟨-, d, -, -, -, rfl⟩ | ⟨-, d, -, -, rfl⟩ <;>
      exact ⟨rfl, rfl⟩

theorem ctxMove_of_exec (h : exec i s = .next t) (he : Effect i s t) : CtxMove s t := by
  have honly := effect_only he
  by_cases hw : .gie ∈ writes i
  case neg =>
    have hctx : .ctx ∉ writes i := fun hc => hw (gie_mem_writes.mpr (.inl hc))
    have hstepper : .stepper ∉ writes i := fun hc =>
      hctx (ctx_mem_writes.mpr (by have := stepper_mem_writes.mp hc; tauto))
    exact .keep (honly.ctx hctx) (honly.gie hw) (by rw [honly.stepper hstepper])
  rw [gie_mem_writes, ctx_mem_writes] at hw
  rcases hw with (⟨n, rfl⟩ | rfl | rfl | rfl | rfl | rfl) | rfl | rfl
  · obtain ⟨u, -, hd, rfl⟩ := he
    obtain ⟨hgie, hen⟩ := dispatchable_en hd
    exact .take u rfl hen hgie rfl rfl
  · obtain ⟨-, -, l, hc⟩ := cpuChoice_fireStep.mp (runEvent_next.mp h).1
    exact ctxMove_fireStep hc he
  · obtain ⟨-, -, l, hc⟩ := cpuChoice_stepTail.mp (runEvent_next.mp h).1
    obtain rfl := he
    exact .finish (hc.trans (by rw [returnFromHandler_ctx, setStepper_ctx, hc]; rfl)) rfl rfl
  · obtain ⟨-, -, l, hc⟩ := cpuChoice_firePwm.mp (runEvent_next.mp h).1
    obtain ⟨hc', hi⟩ := return_of_handler he (.inl rfl)
    exact ctxMove_return hc hc' hi (by rw [honly.stepper (by simp [writes])])
  · obtain ⟨-, -, l, hc⟩ := cpuChoice_fireServo.mp (runEvent_next.mp h).1
    obtain ⟨hc', hi⟩ := return_of_handler he (.inr (.inl rfl))
    exact ctxMove_return hc hc' hi (by rw [honly.stepper (by simp [writes])])
  · obtain ⟨-, -, l, hc⟩ := cpuChoice_fireAdv.mp (runEvent_next.mp h).1
    obtain ⟨hc', hi⟩ := return_of_handler he (.inr (.inr rfl))
    exact ctxMove_return hc hc' hi (by rw [honly.stepper (by simp [writes])])
  · obtain ⟨-, -, hc, -⟩ := cpuChoice_main.mp (runCommand_next.mp h).1
    obtain rfl := he
    exact .irq hc hc rfl
  · obtain ⟨-, -, hc, -⟩ := cpuChoice_main.mp (runCommand_next.mp h).1
    obtain rfl := he
    exact .irq hc hc rfl

/-! The invariant. -/

/-- No instruction clears EN (R25). -/
theorem effect_en (h : Effect i s t) (hen : (s.timers.get u).en = true) : (t.timers.get u).en = true := by
  rcases (effect_timer h u).en_ie with ⟨hsame, -⟩ | ⟨-, hset, -⟩
  · exact hsame.trans hen
  · exact hset

theorem ctxOk_effect (hs : CtxOk s) (h : exec i s = .next t) (he : Effect i s t) : CtxOk t := by
  obtain ⟨hshape, hlive⟩ := ctxOk_iff.mp hs
  have hmove := ctxMove_of_exec h he
  exact ctxOk_iff.mpr ⟨hmove.shape hshape, fun e hmem => effect_en he (hmove.live hlive e hmem)⟩

/-- A state with the same CTX, GIE, GUARD and channels has the rule too. -/
theorem ctxOk_of_eq (hs : CtxOk s) (hc : t.ctx = s.ctx) (hi : t.gie = s.gie) (hg : t.stepper = s.stepper)
    (ht : t.timers = s.timers) : CtxOk t := by
  rw [ctxOk_iff, CtxLive] at hs ⊢
  rwa [hc, hi, hg, ht]

/-- Settles O18: an effect moves CTX from shape to shape; a raise and a turn that passes leave it. -/
theorem stepKeepsContextRule : Obligations.StepKeepsContextRule := by
  intro s t hs h
  have hturn : CtxOk (setEnv (nextTurn s.env) s) := ctxOk_of_eq hs rfl rfl rfl rfl
  have ht : CtxOk t := by
    obtain ⟨-, ⟨i, hi, -⟩ | ⟨w, -, -, rfl⟩ | rfl⟩ := step_cases h
    · rcases exec_next hi with ⟨f, w, rfl, -⟩ | he
      · exact ctxOk_of_eq hturn rfl rfl rfl rfl
      · exact ctxOk_effect hturn hi he
    · exact ctxOk_of_eq hturn rfl rfl rfl rfl
    · exact hturn
  exact ⟨ht, (ctxOk_iff.mp ht).1.length_le⟩

end Sys2Proof.Machine
end

section
/-! PROOF. Proofs/UnitInvariants.lean: every instruction keeps the legal values of each unit (R22 to R33): the timer
channels, the stepper, the multiplexer, the servo generator, the advance pacer, the clock with the wait record. Each
unit's lemma goes through what the instructions can write in its cells; a handler's unit is present, because its
channel is configured. -/

namespace Sys2Proof.Machine

variable {s t : State} {i : Instr} {u : Timer} {c d : TimerChan} {p : Params}

/-! The timer channels. -/

/-- A configured channel's registers, with its counter values changed within their range. -/
theorem TimerOk.update (h : TimerOk p u c) (hen : c.en = true) (hen' : d.en = true) (hie : d.ie = c.ie)
    (hpsc : d.psc = c.psc) (hrld : 1 ≤ d.rld ∧ d.rld ≤ reloadMax p) (hcount : d.count + 1 ≤ reloadMax p) :
    TimerOk p u d where
  off hoff := by simp [hen'] at hoff
  here _ := h.here hen
  ie _ := hie.trans (h.ie hen)
  psc _ := hpsc ▸ h.psc hen
  rld _ := hrld
  count _ := hcount

/-- A tick counts only below the reload (R106). -/
theorem timerOk_tickChan (h : TimerOk p u c) (hen : c.en = true) (hp : 1 ≤ reloadMax p) :
    TimerOk p u (tickChan c) := by
  obtain ⟨hone, hmax⟩ := h.rld hen
  rw [tickChan_eq]
  split
  case isTrue => exact h.update hen hen rfl rfl ⟨hone, hmax⟩ hp
  case isFalse hlt => exact h.update hen hen rfl rfl ⟨hone, hmax⟩ (Nat.le_trans (Nat.not_le.mp hlt) hmax)

/-- The channel of an entry of CTX is configured. -/
theorem ctxTop_en {seg : Seg} {rest : List CtxEntry} (hs : CtxOk s) (hc : s.ctx = ⟨u, seg⟩ :: rest) :
    (s.timers.get u).en = true :=
  hs.live ⟨u, seg⟩ (by rw [hc]; exact List.mem_cons_self)

/-- Only configured channels are re-armed: by REARM (R104), and by handlers, which run on them. -/
theorem Rearms.en (h : Rearms s u i) (hs : CtxOk s) (hx : exec i s = .next t) : (s.timers.get u).en = true := by
  cases h with
  | command u ticks hen => exact hen
  | step =>
    obtain ⟨-, -, rest, hc⟩ := cpuChoice_fireStep.mp (runEvent_next.mp hx).1
    exact ctxTop_en hs hc
  | servo =>
    obtain ⟨-, -, rest, hc⟩ := cpuChoice_fireServo.mp (runEvent_next.mp hx).1
    exact ctxTop_en hs hc
  | adv =>
    obtain ⟨-, -, rest, hc⟩ := cpuChoice_fireAdv.mp (runEvent_next.mp hx).1
    exact ctxTop_en hs hc

theorem timerOk_effect (hs : TimerOk s.params u (s.timers.get u)) (hctx : CtxOk s) (hp : 1 ≤ reloadMax s.params)
    (hx : exec i s = .next t) (he : Effect i s t) : TimerOk s.params u (t.timers.get u) := by
  have hwrite := effect_timer he u
  generalize t.timers.get u = c at hwrite
  cases hwrite with
  | keep => exact hs
  | cfg prio f p r hpresent hmem hone hmax =>
    exact ⟨nofun, fun _ => hpresent, fun _ => rfl, fun _ => hmem, fun _ => ⟨hone, hmax⟩, fun _ => hp⟩
  | tick hen => exact timerOk_tickChan hs (Bool.and_eq_true_iff.mp hen).2 hp
  | take hd =>
    have hen := (dispatchable_en hd).2
    exact hs.update hen hen rfl rfl (hs.rld hen) (hs.count hen)
  | rearm i n hre hn =>
    have hen := hre.en hctx hx
    exact hs.update hen hen rfl rfl ⟨Nat.le_max_left 1 n, Nat.max_le.mpr ⟨hp, hn⟩⟩ (hs.count hen)

/-- The servo generator's firing runs where the generator is present (R7, R312). -/
theorem servoPresent_of_fireServo (hs : TimerOk s.params .servo (s.timers.get .servo)) (hctx : CtxOk s)
    (hx : exec .fireServo s = .next t) : s.params.servoPresent = true :=
  hs.here (Rearms.servo.en hctx hx)

/-- The advance pacer's firing runs where the pacer is present (R7, R312). -/
theorem advancePresent_of_fireAdv (hs : TimerOk s.params .adv (s.timers.get .adv)) (hctx : CtxOk s)
    (hx : exec .fireAdv s = .next t) : s.params.advancePresent = true :=
  hs.here (Rearms.adv.en hctx hx)

/-! The stepper. -/

/-- An empty firing's countdown is in Idle exactly at 0 (R134). -/
theorem stepperOk_relaxStep {v : Stepper} (h : StepperOk v) (ticks : BitVec 16) : StepperOk (relaxStep ticks v) := by
  cases hv : v.spState with
  | idle =>
    rw [relaxStep_idle hv]
    exact h
  | stepping =>
    rw [relaxStep_active (.inl ⟨hv, rfl⟩) rfl]
    constructor <;> simp
  | relaxing =>
    rw [relaxStep_active (.inr ⟨hv, rfl⟩) rfl]
    constructor <;> simp

theorem stepperOk_fireStep (hs : StepperOk s.stepper) (h : fireStepBody s = .ok t) : StepperOk t.stepper := by
  rcases fireStepBody_ok h with ⟨-, rfl⟩ | ⟨-, -, hb⟩ | ⟨-, -, hb⟩
  · exact hs
  · obtain ⟨-, rfl⟩ := steppingBranch_ok hb
    exact ⟨nofun, nofun⟩
  · obtain ⟨-, v, hv, rfl⟩ := emptyBranch_cases hb
    have hguarded : StepperOk { s.stepper with guard := true } := ⟨hs.idle, hs.relaxing⟩
    have hcount : StepperOk v.stepper := by
      rw [hv.stepper (by simp)]
      exact stepperOk_relaxStep hguarded _
    exact ⟨hcount.idle, hcount.relaxing⟩

theorem stepperOk_effect (hs : StepperOk s.stepper) (h : Effect i s t) : StepperOk t.stepper := by
  by_cases hw : .stepper ∈ writes i
  case neg =>
    rw [(effect_only h).stepper hw]
    exact hs
  rcases stepper_mem_writes.mp hw with rfl | rfl
  · exact stepperOk_fireStep hs h
  · obtain rfl := h
    exact ⟨hs.idle, hs.relaxing⟩

/-! The multiplexer. -/

/-- One analog channel's cells (R29): the accumulator holds only samples that fit. -/
def AnalogOk (p : Params) (ch : AnalogChan) : Prop :=
  ch.acc ≤ ch.scnt * (2 ^ p.adcBits - 1) ∧ ch.scnt < 2 ^ p.oversampleK ∧ ch.avg < 2 ^ p.outBits

theorem forall_mem_set {α : Type} {P : α → Prop} {l : List α} {k : Nat} {x : α} (h : ∀ y ∈ l, P y) (hx : P x) :
    ∀ y ∈ l.set k x, P y := by
  intro y hy
  rcases List.mem_or_eq_of_mem_set hy with hy | rfl
  · exact h y hy
  · exact hx

/-- A sample that fits keeps the analog cells (R166, R167): one more sample is in the accumulator, or the average is
published and the next channel is addressed. -/
theorem muxOk_acceptSample {ch : AnalogChan} {v : Nat} (hp : s.params.Legal) (hs : MuxOk s.params s.mux)
    (hn : s.params.nAnalog ≠ 0) (hcell : s.mux.analog[s.mux.adcPos.toNat]? = some ch)
    (hv : v ≤ 2 ^ s.params.adcBits - 1) : MuxOk s.params (acceptSample s.mux.adcPos ch v s).mux := by
  obtain ⟨hacc, hscnt, havg⟩ := hs.acc ch (List.mem_of_getElem? hcell)
  have hsum : ch.acc + v ≤ (ch.scnt + 1) * (2 ^ s.params.adcBits - 1) := by
    rw [Nat.succ_mul]
    exact Nat.add_le_add hacc hv
  obtain ⟨-, -, -, -, -, hmany, -, ⟨hadc, -⟩, ⟨hout, -⟩, -⟩ := hp
  by_cases hlast : ch.scnt + 1 = 2 ^ s.params.oversampleK
  · rw [acceptSample_publishes hlast]
    have hfits : normalizeAvg s.params (ch.acc + v) < 2 ^ s.params.outBits :=
      normalizedAverageFits _ _ hadc hout (by rwa [hlast, Nat.mul_comm] at hsum)
    have hcleared : AnalogOk s.params ⟨0, 0, normalizeAvg s.params (ch.acc + v)⟩ :=
      ⟨Nat.zero_le _, Nat.two_pow_pos _, hfits⟩
    have hnext : (s.mux.adcPos.toNat + 1) % s.params.nAnalog < s.params.nAnalog := Nat.mod_lt _ (by omega)
    refine ⟨hs.pwm, (List.length_set ..).trans hs.analog, forall_mem_set hs.acc hcleared, ?_, hs.tick⟩
    show (BitVec.ofNat 8 _).toNat < _
    rw [BitVec.toNat_ofNat, Nat.mod_eq_of_lt (by omega)]
    omega
  · rw [acceptSample_accumulates hlast]
    have hgrown : AnalogOk s.params { ch with acc := ch.acc + v, scnt := ch.scnt + 1 } :=
      ⟨hsum, Nat.lt_of_le_of_ne hscnt hlast, havg⟩
    exact ⟨hs.pwm, (List.length_set ..).trans hs.analog, forall_mem_set hs.acc hgrown, hs.pos, hs.tick⟩

theorem muxOk_analogStep (hp : s.params.Legal) (hs : MuxOk s.params s.mux) (h : analogStep s = .ok t) :
    MuxOk s.params t.mux := by
  rcases analogStep_ok h with ⟨-, rfl⟩ | ⟨-, -, rfl⟩ | ⟨hn, -, hv, ⟨ch, hcell, rfl⟩ | ⟨-, rfl⟩⟩
  · exact hs
  · exact hs
  · exact muxOk_acceptSample (s := setEnv (drewValue (drewReady s.env)) s) hp hs hn hcell hv
  · exact hs

/-- The maintenance counter restarts at its threshold (R168). -/
theorem tickCnt_lt (hp : p.Legal) (n : BitVec 32) :
    (if p.maintThreshold ≤ n.toNat + 1 then 0 else n + 1).toNat < p.maintThreshold := by
  obtain ⟨-, -, -, -, -, -, -, -, -, ⟨hone, hmax⟩, -⟩ := hp
  split
  case isTrue => exact hone
  case isFalse hlt => bv_omega

theorem muxOk_firePwm (hp : s.params.Legal) (hs : MuxOk s.params s.mux) (h : firePwmBody s = .ok t) :
    MuxOk s.params t.mux := by
  obtain ⟨w, hw, -, hmux⟩ := firePwmBody_mux h
  have hlatched : MuxOk s.params (pwmLatchAndCompare s.mux.pwmCnt s).mux :=
    ⟨(List.length_map _).trans hs.pwm, hs.analog, hs.acc, hs.pos, hs.tick⟩
  have hsampled : MuxOk s.params w.mux := muxOk_analogStep (s := pwmLatchAndCompare s.mux.pwmCnt s) hp hlatched hw
  rw [hmux]
  exact ⟨(List.length_map _).trans hs.pwm, hsampled.analog, hsampled.acc, hsampled.pos, tickCnt_lt hp _⟩

theorem muxOk_effect (hp : s.params.Legal) (hs : MuxOk s.params s.mux) (h : Effect i s t) :
    MuxOk s.params t.mux := by
  by_cases hi : i = .firePwm
  · subst hi
    exact muxOk_firePwm hp hs h
  rcases effect_mux h hi with hmux | ⟨k, duty, -, hmux⟩ | ⟨-, hmux⟩ <;> rw [hmux]
  · exact hs
  · exact ⟨(List.length_modify ..).trans hs.pwm, hs.analog, hs.acc, hs.pos, hs.tick⟩
  · exact ⟨hs.pwm, hs.analog, hs.acc, hs.pos, hs.tick⟩

/-! The servo generator. -/

/-- A list of channels with the widths of one that has four, 0 for an absent channel, is one too. -/
theorem servo_widths_of_map {l l' : List ServoChan} {n : Nat} (h : l'.map (·.width) = l.map (·.width))
    (hs : ∀ c, ∀ ch, l[c]? = some ch → n ≤ c → ch.width = 0) :
    ∀ c, ∀ ch, l'[c]? = some ch → n ≤ c → ch.width = 0 := by
  intro c ch hch hc
  have hview := congrArg (·[c]?) h
  simp only [List.getElem?_map, hch, Option.map_some] at hview
  obtain ⟨x, hx, hw⟩ := Option.map_eq_some_iff.mp hview.symm
  exact hw ▸ hs c x hx hc

theorem servoOk_effect (hs : ServoOk s.params s.servo) (h : Effect i s t)
    (hfire : i = .fireServo → s.params.servoPresent = true) : ServoOk s.params t.servo := by
  have hhigh : OwnPhase t.servo := ownPhase_effect hs.high h
  by_cases hi : i = .fireServo
  · subst hi
    have hwidths : t.servo.chans.map (·.width) = s.servo.chans.map (·.width) :=
      (effect_servo_width h).resolve_right (by simp)
    have hlen : t.servo.chans.length = 4 := by
      have hcount := congrArg List.length hwidths
      rw [List.length_map, List.length_map] at hcount
      exact hcount.trans hs.chans
    refine ⟨hlen, servo_widths_of_map hwidths hs.absent, hhigh, ?_, fun hoff => by simp [hfire rfl] at hoff⟩
    rcases fireServoBody_ok h with ⟨-, hmax, rfl⟩ | ⟨-, -, rfl⟩
    · exact hmax
    · exact hs.last
  rcases effect_servo h hi with hsame | ⟨k, us, -, hpresent, hk, hset⟩
  · rw [hsame]
    exact hs
  · rw [hset] at hhigh ⊢
    refine ⟨(List.length_modify ..).trans hs.chans, fun c ch hch hc => ?_, hhigh, hs.last, fun hoff => ?_⟩
    · obtain ⟨x, hx, rfl⟩ := getElem?_modify_some hch
      rw [if_neg (by omega)]
      exact hs.absent c x hx hc
    · simp [hpresent] at hoff

/-! The advance pacer. -/

theorem advOk_effect (hs : AdvOk s.params s.adv) (h : Effect i s t)
    (hfire : i = .fireAdv → s.params.advancePresent = true) : AdvOk s.params t.adv := by
  obtain ⟨hwrite, hwho⟩ := effect_adv h
  have hunit : s.params.advancePresent = false → t.adv = .reset := by
    intro hoff
    rcases hwho with hsame | hi | hpresent
    · exact hsame.trans (hs.unit hoff)
    · simp [hfire hi] at hoff
    · simp [hpresent] at hoff
  generalize t.adv = a at hwrite hunit
  cases hwrite with
  | keep => exact hs
  | interval x hx => exact ⟨hx, hs.level, hunit⟩
  | active | owed | comp | fold | pay => exact ⟨hs.interval, hs.level, hunit⟩
  | turn d => exact ⟨hs.interval, by cases d <;> simp [dirOf_eq], hunit⟩

/-! The clock and the wait record. -/

/-- A wait record within the counter's range; the goal of a wait that begins with a wrap is below its start (R262). -/
def WaitOk (range : Nat) (r : WaitRec) : Prop :=
  r.start < range ∧ r.goal < range ∧ (r.phase = .one → r.goal < r.start)

theorem waitOk_waitRecord {range c d : Nat} (hc : c < range) (hd : d < range) :
    WaitOk range (waitRecord range c d) := by
  by_cases hwrap : range ≤ c + d
  · rw [waitRecord_wrapped hwrap]
    exact ⟨hc, by dsimp only; omega, fun _ => by dsimp only; omega⟩
  · rw [waitRecord_unwrapped (Nat.not_le.mp hwrap)]
    exact ⟨hc, Nat.not_le.mp hwrap, nofun⟩

/-- A poll writes only the phase, and only to 2 (R263). -/
theorem waitOk_pollWait {range c : Nat} {r : WaitRec} (h : WaitOk range r) : WaitOk range (pollWait c r).1 := by
  obtain ⟨hstart, hgoal, hwrap⟩ := h
  unfold pollWait
  dsimp only
  split
  · exact ⟨hstart, hgoal, nofun⟩
  · exact ⟨hstart, hgoal, hwrap⟩

/-- The clock's rules, with those of the wait record under one name. -/
theorem clockOk_iff : ClockOk s ↔ s.usCnt < 2 ^ s.params.usBits ∧
    (∀ r, s.waitf = some r → WaitOk (2 ^ s.params.usBits) r) ∧ (s.waitf.isSome = true → s.hpc < s.env.prog.length) :=
  ⟨fun h => ⟨h.cnt, fun r hr => ⟨(h.wait r hr).1, (h.wait r hr).2, h.wrap r hr⟩, h.host⟩,
    fun ⟨hcnt, hwait, hhost⟩ =>
      ⟨hcnt, fun r hr => ⟨(hwait r hr).1, (hwait r hr).2.1⟩, fun r hr => (hwait r hr).2.2, hhost⟩⟩

theorem clockOk_pollBody (hs : ClockOk s) : ClockOk (pollBody s) := by
  obtain ⟨hcnt, hwait, hhost⟩ := clockOk_iff.mp hs
  cases hr : s.waitf with
  | none =>
    rw [pollBody, hr]
    exact hs
  | some r =>
    rw [pollBody_of_waitf hr]
    split
    · exact clockOk_iff.mpr ⟨hcnt, nofun, nofun⟩
    · refine clockOk_iff.mpr ⟨hcnt, ?_, fun _ => hhost (by simp [hr])⟩
      rintro r' ⟨⟩
      exact waitOk_pollWait (hwait r hr)

/-- A host command runs in main context (R306, R322). -/
theorem cpuChoice_of_command (h : exec i s = .next t) (hi : i.isCommand = true) : cpuChoice s = .main := by
  cases i with
  | tick | clkTick | dispatch | waitPoll | fireStep | stepTail | firePwm | fireServo | fireAdv => cases hi
  | _ => exact (runCommand_next.mp h).1

/-- A command runs with no wait recorded, and WAIT_US records one at a word of the host program (R262, R322). -/
theorem clockOk_effect (hs : ClockOk s) (hx : exec i s = .next t) (he : Effect i s t)
    (hcmd : i.isCommand = true → s.hpc < s.env.prog.length) : ClockOk t := by
  obtain ⟨hcnt, hwait, hhost⟩ := clockOk_iff.mp hs
  have honly := effect_only he
  by_cases hpoll : i = .waitPoll
  · subst hpoll
    obtain rfl := he
    exact clockOk_pollBody hs
  by_cases htick : i = .clkTick
  · subst htick
    obtain rfl := he
    exact clockOk_iff.mpr ⟨Nat.mod_lt _ (Nat.two_pow_pos _), hwait, hhost⟩
  have hcnt' : t.usCnt < 2 ^ t.params.usBits := by
    rw [honly.params, honly.usCnt (mt clock_mem_writes.mp htick)]
    exact hcnt
  by_cases hi : i.isCommand = true
  · obtain ⟨-, -, -, hnone⟩ := cpuChoice_main.mp (cpuChoice_of_command hx hi)
    by_cases hus : ∃ us, i = .waitUs us
    · obtain ⟨us, rfl⟩ := hus
      obtain ⟨hd, rfl⟩ := waitUsBody_ok he
      refine clockOk_iff.mpr ⟨hcnt, ?_, fun _ => hcmd rfl⟩
      rintro r ⟨⟩
      exact waitOk_waitRecord hcnt hd
    · have hwaitf : t.waitf = none := by
        rw [honly.waitf fun hw => (wait_mem_writes.mp hw).elim hpoll hus, hnone]
      exact clockOk_iff.mpr ⟨hcnt', by simp [hwaitf], by simp [hwaitf]⟩
  · obtain ⟨-, hwaitf, hhpc⟩ := effect_clock_wait he (by simpa using hi) htick hpoll
    refine clockOk_iff.mpr ⟨hcnt', ?_, ?_⟩
    · rw [honly.params, hwaitf]
      exact hwait
    · rw [honly.prog, hwaitf, hhpc]
      exact hhost

end Sys2Proof.Machine
end

section
/-! PROOF. Proofs/Invariant.lean: every step keeps the invariant of the block (10_state.md, R207, R312), unit by unit;
and the reset state, which has it (R350). -/

namespace Sys2Proof.Machine

variable {s t : State} {i : Instr} {p : Params}

/-! A step. -/

/-- hpc stays within PROG: it advances with a word of PROG, or with the wait of one (R22). -/
theorem hpc_le_effect (hs : s.hpc ≤ s.env.prog.length) (hclock : ClockOk s) (he : Effect i s t)
    (hcmd : i.isCommand = true → s.hpc < s.env.prog.length) : t.hpc ≤ t.env.prog.length := by
  rw [(effect_only he).prog]
  rcases effect_hpc he with hsame | ⟨hnext, hi | ⟨-, hsome, -⟩⟩
  · exact hsame ▸ hs
  · exact hnext ▸ hcmd hi
  · exact hnext ▸ hclock.host hsome

/-- RELOAD_MAX is positive (R8). -/
theorem one_le_reloadMax (hp : p.Legal) : 1 ≤ reloadMax p := by
  obtain ⟨-, -, hbits, -⟩ := hp
  have hpow : 2 ^ 8 ≤ 2 ^ p.timerBits := Nat.pow_le_pow_right (by omega) hbits
  unfold reloadMax
  omega

theorem blockInv_effect (hs : BlockInv s) (hx : exec i s = .next t) (he : Effect i s t)
    (hcmd : i.isCommand = true → s.hpc < s.env.prog.length) : BlockInv t := by
  have hparams : t.params = s.params := (effect_only he).params
  have hservo (hi : i = .fireServo) : s.params.servoPresent = true :=
    servoPresent_of_fireServo (hs.timers .servo) hs.ctx (hi ▸ hx)
  have hadv (hi : i = .fireAdv) : s.params.advancePresent = true :=
    advancePresent_of_fireAdv (hs.timers .adv) hs.ctx (hi ▸ hx)
  exact {
    params := hparams ▸ hs.params
    timers := fun u => hparams ▸ timerOk_effect (hs.timers u) hs.ctx (one_le_reloadMax hs.params) hx he
    ctx := ctxOk_effect hs.ctx hx he
    stepper := stepperOk_effect hs.stepper he
    mux := hparams ▸ muxOk_effect hs.params hs.mux he
    servo := hparams ▸ servoOk_effect hs.servo he hservo
    adv := hparams ▸ advOk_effect hs.adv he hadv
    clock := clockOk_effect hs.clock hx he hcmd
    hpc := hpc_le_effect hs.hpc hs.clock he hcmd
    info := fun _ => ((effect_only he).faultInfo fault_notMem_writes).trans (hs.info (exec_enabled hx).1) }

/-- A turn that passes leaves the block's cells. -/
theorem blockInv_nextTurn (hs : BlockInv s) : BlockInv (setEnv (nextTurn s.env) s) :=
  ⟨hs.params, hs.timers, ctxOk_of_eq hs.ctx rfl rfl rfl rfl, hs.stepper, hs.mux, hs.servo, hs.adv,
    ⟨hs.clock.cnt, hs.clock.wait, hs.clock.wrap, hs.clock.host⟩, hs.hpc, hs.info⟩

/-- A raise writes FAULT and FAULT_INFO only (R301). -/
theorem blockInv_raiseFault (hs : BlockInv s) (f : FaultCode) (w : Word) : BlockInv (raiseFault f w s) :=
  ⟨hs.params, hs.timers, ctxOk_of_eq hs.ctx rfl rfl rfl rfl, hs.stepper, hs.mux, hs.servo, hs.adv,
    ⟨hs.clock.cnt, hs.clock.wait, hs.clock.wrap, hs.clock.host⟩, hs.hpc, nofun⟩

/-- Settles O53: an effect keeps each unit's cells; a raise and a turn that passes leave them. -/
theorem stepKeepsInvariant : Obligations.StepKeepsInvariant := by
  intro s t hs h
  have hturn := blockInv_nextTurn hs
  obtain ⟨-, ⟨i, hi, hword⟩ | ⟨w, -, -, rfl⟩ | rfl⟩ := step_cases h
  · rcases exec_next hi with ⟨f, w, rfl, -⟩ | he
    · exact blockInv_raiseFault hturn f w
    · refine blockInv_effect hturn hi he fun hc => ?_
      obtain ⟨w, hw, -⟩ := hword hc
      exact (List.getElem?_eq_some_iff.mp hw).1
  · exact blockInv_raiseFault hturn _ _
  · exact hturn

/-! Reset. -/

theorem timerOk_reset (p : Params) (u : Timer) : TimerOk p u .reset :=
  ⟨fun _ => rfl, nofun, nofun, nofun, nofun, nofun⟩

theorem resetWith_timers (p : Params) (u : Timer) : (State.resetWith p).timers.get u = .reset := by
  cases u <;> rfl

theorem ctxOk_resetWith (p : Params) : CtxOk (State.resetWith p) :=
  ctxOk_iff.mpr ⟨.main false, nofun⟩

theorem muxOk_resetWith (hp : p.Legal) : MuxOk p (State.resetWith p).mux := by
  obtain ⟨-, -, -, -, -, -, -, -, -, ⟨hmaint, -⟩, -⟩ := hp
  refine ⟨List.length_replicate, List.length_replicate, fun ch hch => ?_, Nat.le_max_left 1 _, hmaint⟩
  obtain rfl := List.eq_of_mem_replicate hch
  exact ⟨Nat.zero_le _, Nat.two_pow_pos _, Nat.two_pow_pos _⟩

theorem servo_reset_chan {c : Nat} {ch : ServoChan} (h : Servo.reset.chans[c]? = some ch) : ch = ⟨0, false⟩ :=
  List.eq_of_mem_replicate (List.mem_of_getElem? h)

theorem servoOk_reset (p : Params) : ServoOk p .reset where
  chans := rfl
  absent c ch h _ := by rw [servo_reset_chan h]
  high c ch h hout := by simp [servo_reset_chan h] at hout
  last := Nat.zero_le _
  unit _ := rfl

theorem advOk_reset (p : Params) : AdvOk p .reset :=
  ⟨Nat.zero_le _, by decide, fun _ => rfl⟩

theorem clockOk_resetWith (hp : p.Legal) : ClockOk (State.resetWith p) := by
  obtain ⟨-, -, -, -, -, -, -, -, -, -, -, -, -, -, hcnt⟩ := hp
  exact ⟨hcnt, nofun, nofun, nofun⟩

/-- Settles O54: each unit's reset cells are legal. -/
theorem resetHasInvariant : Obligations.ResetHasInvariant := by
  intro p hp
  exact {
    params := hp
    timers := fun u => (resetWith_timers p u).symm ▸ timerOk_reset p u
    ctx := ctxOk_resetWith p
    stepper := ⟨fun _ => rfl, nofun⟩
    mux := muxOk_resetWith hp
    servo := servoOk_reset p
    adv := advOk_reset p
    clock := clockOk_resetWith hp
    hpc := Nat.zero_le _
    info := fun _ => rfl }

/-- No source can be taken with GIE = 0 (R304). -/
theorem noDispatch_of_gie (h : s.gie = false) : NoDispatch s := by
  intro hon
  simp [h] at hon

/-- No channel counts at reset (R106). -/
theorem exec_tick_resetWith (p : Params) (u : Timer) :
    exec (.tick (timerNumber u)) (State.resetWith p) = .refused .notEnabled := by
  have hoff : tickEnabled (State.resetWith p) u = false := by
    rw [tickEnabled, resetWith_timers]
    exact Bool.and_false _
  rw [exec_tick, hoff]
  rfl

/-- Settles O55: the cells are the definition's; with GIE = 0 the CPU is at the host program, and with EN = 0 no
channel ticks. -/
theorem resetLeavesEveryCellAtReset : Obligations.ResetLeavesEveryCellAtReset := by
  intro p s
  have hready : MainReady s := ⟨rfl, noDispatch_of_gie rfl, rfl, rfl⟩
  exact ⟨rfl, rfl, rfl, rfl, rfl, resetWith_timers p, rfl, rfl, rfl, rfl, rfl, rfl, rfl, rfl, rfl, rfl, rfl, rfl, rfl,
    rfl, hready, fun u => ⟨_, exec_tick_resetWith p u⟩⟩

end Sys2Proof.Machine
end
